-- ==== Sys2Proof/Word.lean ====
section
/-! DEFINITION. The words of the Zip LZ77 core: bytes and unsigned 16-bit fields (spec/00_scope.md R8). -/

namespace Sys2Proof

/-- A byte: 8 bits, value 0 to 255 (R8). -/
abbrev Byte := BitVec 8

/-- An unsigned 16-bit field: an offset or a length (R8, R64). -/
abbrev Half := BitVec 16

end Sys2Proof
end

