-- ==== Sys2Proof/Config.lean ====
section
/-! DEFINITION. What is fixed when an instance of the core is built (spec/00_scope.md R3 to R6), and the values the
spec leaves free (spec/93_implementation_defined.md U15, U16, U18). -/

namespace Sys2Proof

/-- ORDER: which byte of a 16-bit field comes first in the stream (R4, R45). -/
inductive Order where
  /-- low byte first -/
  | le
  /-- high byte first -/
  | be
  deriving DecidableEq, Repr

/-- The size of one step of the core. R6 leaves it to the model: "a model may make each micro-operation one step of a
small-step relation, or make a whole command one step, and the host-visible result is the same" (DESIGN CHOICE, safe,
log 3). -/
inductive Grain where
  /-- one step runs ENC.RUN or DEC.RUN whole -/
  | command
  /-- the encoder steps by the operations of R100's loop, the decoder by the elements of the stream -/
  | element
  /-- as `element`, but the decoder steps by the micro-operations of R120's loop -/
  | micro
  deriving DecidableEq, Repr

/-- The parameters of one instance (R3, R4, R5). `none` as a capacity is "unbounded". -/
structure Config where
  /-- W: how far back a match may start, 0 to 65535 (R3) -/
  windowSize : Fin 65536
  /-- L: the longest match length considered, 0 to 65535 (R3) -/
  lookaheadSize : Fin 65536
  /-- ORDER (R4) -/
  order : Order
  /-- CAP_IN (R5) -/
  capIn : Option Nat
  /-- CAP_OUT (R5) -/
  capOut : Option Nat
  /-- the model's own parameter (R6, log 3) -/
  grain : Grain
  deriving DecidableEq, Repr

/-- W of the instance that reset builds. OPEN in the spec (R3, D3): no value, only its range (DESIGN CHOICE, safe,
log 1). -/
opaque Config.builtWindow : Fin 65536

/-- L of the instance that reset builds. OPEN in the spec (R3, D3): no value, only its range (DESIGN CHOICE, safe,
log 1). -/
opaque Config.builtLookahead : Fin 65536

/-- This hardware's instance: W and L open, ORDER = LE (R4), capacities unbounded (R5), stepping by element (log 3). -/
def Config.built : Config where
  windowSize := Config.builtWindow
  lookaheadSize := Config.builtLookahead
  order := .le
  capIn := none
  capOut := none
  grain := .element

/-- Building an instance from numbers: "A configuration outside the range is refused when the instance is built" (R3). -/
def Config.build (w l : Nat) (order : Order) (capIn capOut : Option Nat) (grain : Grain) : Option Config :=
  if hw : w < 65536 then
    if hl : l < 65536 then some ⟨⟨w, hw⟩, ⟨l, hl⟩, order, capIn, capOut, grain⟩ else none
  else none

/-- A free value of a `w`-bit register: nothing in Lean can evaluate it. `draw` is the state's counter, `which` the
register (U15, U16, U18, log 7). -/
opaque Config.freeBits (w : Nat) (draw which : Nat) : BitVec w

/-- A free value of an AW-bit register, a natural number for this hardware (U15, U16, U18, R5, log 7). -/
opaque Config.freeNat (draw which : Nat) : Nat

end Sys2Proof
end

