-- ==== Sys2Proof/Syntax.lean ====
section
/-! DEFINITION. The instructions of the core: one constructor per row of spec/opcode_table.json. -/

namespace Sys2Proof

/-- The error kinds (spec/60_exceptions.md R165). Their numbers are `ErrKind.code` (Machine/Flags.lean). -/
inductive ErrKind where
  /-- nothing to compress (R166) -/
  | emptyInput
  /-- a Match cut off by the end of the stream (R167) -/
  | truncatedStream
  /-- a back-reference outside the output produced so far (R168) -/
  | invalidOffset
  /-- the reserved command value (R169) -/
  | badCommand
  /-- an append that does not fit a finite CAP_OUT (R170) -/
  | capacity
  deriving DecidableEq, Repr

/-- One instruction of the core: a stream element, a host command, a host operation, or a micro-operation of MAT, ENC
or DEC (spec/00_scope.md section 1). Micro-operations take their operands from the registers their rules name. -/
inductive Instr where
  /-- CTRL: the control byte of a flag group (R62) -/
  | ctrl (f : Byte)
  /-- LIT: a Literal token (R63) -/
  | lit (b : Byte)
  /-- MATCH: a Match token, offset, length, next_byte (R64) -/
  | matchTok (off len : Half) (nxt : Byte)
  /-- SLOT: a token slot of the encoder, off, len, byte (R65) -/
  | slot (off len : Half) (byte : Byte)
  /-- CMD = 00 (R152) -/
  | nop
  /-- CMD = 01 (R153) -/
  | encode
  /-- CMD = 10 (R154) -/
  | decode
  /-- CMD = 11 (R155) -/
  | reserved
  /-- MAT.FIND (R80) -/
  | matFind
  /-- MAT.RANGE (R81) -/
  | matRange
  /-- MAT.CMP (R82) -/
  | matCmp
  /-- MAT.LEN (R83) -/
  | matLen
  /-- MAT.SEL (R84) -/
  | matSel
  /-- ENC.RUN (R100) -/
  | encRun
  /-- ENC.START (R101) -/
  | encStart
  /-- ENC.SELECT (R102) -/
  | encSelect
  /-- ENC.LIT (R103) -/
  | encLit
  /-- ENC.MATCH (R104) -/
  | encMatch
  /-- ENC.PUSH (R105) -/
  | encPush
  /-- ENC.FLUSH (R106) -/
  | encFlush
  /-- ENC.END (R107) -/
  | encEnd
  /-- DEC.RUN (R120) -/
  | decRun
  /-- DEC.START (R121) -/
  | decStart
  /-- DEC.CTRL (R122) -/
  | decCtrl
  /-- DEC.BIT (R123) -/
  | decBit
  /-- DEC.LIT (R124) -/
  | decLit
  /-- DEC.FETCH_OFF (R125) -/
  | decFetchOff
  /-- DEC.FETCH_LEN (R126) -/
  | decFetchLen
  /-- DEC.FETCH_NXT (R127) -/
  | decFetchNxt
  /-- DEC.CHECK (R128) -/
  | decCheck
  /-- DEC.COPY (R129) -/
  | decCopy
  /-- DEC.NEXT (R130) -/
  | decNext
  /-- DEC.END (R131) -/
  | decEnd
  /-- DEC.ABORT (R132), with the kind that was raised -/
  | decAbort (kind : ErrKind)
  /-- HOST.LOAD (R151) -/
  | hostLoad (bytes : List Byte)
  /-- HOST.CMD: a write of the 2-bit CMD register (R150, R11) -/
  | hostCmd (v : BitVec 2)
  /-- HOST.POLL (R150) -/
  | hostPoll
  /-- HOST.READ (R156) -/
  | hostRead (a : Nat)
  /-- RUN(b, n): the pseudo-form of the listing notation (R75) -/
  | run (b : Byte) (n : Nat)
  deriving DecidableEq, Repr

end Sys2Proof
end

