-- ==== Sys2Proof/WellFormed.lean ====
section
/-! DEFINITION. Which terms of `Instr` the spec gives a form to. -/

namespace Sys2Proof

/-- A token slot: offset 0 tags a Literal, "whose `len` is 0" (R65). -/
def wellFormedSlot (off len : Half) : Bool := off != 0 || len == 0

/-- The kinds that a `raise` in DEC can carry (R132, R165): DEC raises these three and no others. -/
def wellFormedAbort (kind : ErrKind) : Bool :=
  match kind with
  | .truncatedStream => true
  | .invalidOffset => true
  | .capacity => true
  | .emptyInput => false
  | .badCommand => false

/-- RUN(b, n): "with `n >= 2`" (R75), and its Match's length `n - 2` fits the 16-bit field (R64). -/
def wellFormedRun (n : Nat) : Bool := decide (2 ≤ n) && decide (n ≤ 65537)

/-- The spec gives this instruction a form. Every other term is well-formed whatever its operands: all 256 control
bytes and Literals are legal (R62, R63), and so is every field value of a Match as an ENCODING, an illegal offset being
an error the decoder raises (R70). -/
def Instr.wellFormed (i : Instr) : Bool :=
  match i with
  | .slot off len _ => wellFormedSlot off len
  | .decAbort kind => wellFormedAbort kind
  | .run _ n => wellFormedRun n
  | .ctrl _ | .lit _ | .matchTok _ _ _ => true
  | .nop | .encode | .decode | .reserved => true
  | .matFind | .matRange | .matCmp | .matLen | .matSel => true
  | .encRun | .encStart | .encSelect | .encLit | .encMatch | .encPush | .encFlush | .encEnd => true
  | .decRun | .decStart | .decCtrl | .decBit | .decLit | .decFetchOff | .decFetchLen | .decFetchNxt => true
  | .decCheck | .decCopy | .decNext | .decEnd => true
  | .hostLoad _ | .hostCmd _ | .hostPoll | .hostRead _ => true

end Sys2Proof
end

