-- ==== Sys2Proof/Decode.lean ====
section
/-! DEFINITION. Reading and writing encodings (spec/30_encoding.md). An element of the stream has no opcode bits: what the
next bits are is selected by position and by the control byte (R68, R73), so decoding takes that context beside the
bytes. The bytes of a command word or of a token slot are those of the register, the least significant first. -/

namespace Sys2Proof

/-! ## 16-bit fields -/

/-- A 16-bit field from the byte at the lower index and the one after it (R45, R67). -/
def u16Of (o : Order) (b0 b1 : Byte) : Half :=
  match o with
  | .le => b1 ++ b0
  | .be => b0 ++ b1

/-- The two bytes of a 16-bit field, lower index first (R45, R67). -/
def u16Bytes (o : Order) (v : Half) : List Byte :=
  match o with
  | .le => [v.extractLsb' 0 8, v.extractLsb' 8 8]
  | .be => [v.extractLsb' 8 8, v.extractLsb' 0 8]

/-! ## Decoding -/

/-- What selects the next element (R68, R73). -/
inductive Ctx where
  /-- the 2-bit CMD register (R66) -/
  | command
  /-- a group boundary: the next element is a control byte -/
  | group
  /-- token `i` of a group, with bit `i` of its control byte: set for a Match, clear for a Literal (R61) -/
  | token (isMatch : Bool)
  /-- the encoder's 40-bit token slot (R65) -/
  | slot
  deriving DecidableEq, Repr

/-- Why bytes were not read as an instruction. -/
inductive DecodeError where
  /-- no byte where an element would start: the clean end of a stream (R122, R123) -/
  | cleanEnd
  /-- the bytes end inside a Match token (R71) -/
  | truncatedMatch
  /-- the bytes end inside a register word -/
  | shortWord
  /-- a command word wider than the 2-bit register (R66) -/
  | wideCommand
  /-- a slot with offset 0 and a length other than 0, which is neither a Literal nor a Match (R65) -/
  | badSlot
  deriving DecidableEq, Repr

/-- The four values of CMD (R66); the table's NOP, ENCODE, DECODE and RESERVED. -/
def decodeCommand (v : BitVec 2) : Instr :=
  if v = 0 then .nop
  else if v = 1 then .encode
  else if v = 2 then .decode
  else .reserved

/-- A Match token (R64): offset, length, next_byte in five consecutive bytes. -/
def decodeMatch (o : Order) (bytes : List Byte) : Except DecodeError (Instr × List Byte) :=
  match bytes with
  | [] => .error .cleanEnd
  | o0 :: o1 :: l0 :: l1 :: n :: rest => .ok (.matchTok (u16Of o o0 o1) (u16Of o l0 l1) n, rest)
  | _ => .error .truncatedMatch

/-- A token slot (R65): byte in bits 7 to 0, len in bits 23 to 8, off in bits 39 to 24, whatever ORDER is, since a slot
is a register and not a stretch of the stream. -/
def decodeSlot (bytes : List Byte) : Except DecodeError (Instr × List Byte) :=
  match bytes with
  | b :: l0 :: l1 :: o0 :: o1 :: rest =>
    if wellFormedSlot (o1 ++ o0) (l1 ++ l0) then .ok (.slot (o1 ++ o0) (l1 ++ l0) b, rest) else .error .badSlot
  | _ => .error .shortWord

/-- The instruction that the bytes hold in this context, and the bytes after it. Total: every other byte string is
rejected by name. -/
def decode (o : Order) (c : Ctx) (bytes : List Byte) : Except DecodeError (Instr × List Byte) :=
  match c with
  | .command =>
    match bytes with
    | [] => .error .shortWord
    | b :: rest => if b.toNat < 4 then .ok (decodeCommand (b.extractLsb' 0 2), rest) else .error .wideCommand
  | .group =>
    match bytes with
    | [] => .error .cleanEnd
    | b :: rest => .ok (.ctrl b, rest)
  | .token false =>
    match bytes with
    | [] => .error .cleanEnd
    | b :: rest => .ok (.lit b, rest)
  | .token true => decodeMatch o bytes
  | .slot => decodeSlot bytes

/-! ## Encoding -/

/-- The context and the bytes of an instruction that has an encoding. The micro-operations and the host operations have
none ("they are steps of fixed-function control", R73), nor has the pseudo-form RUN, which stands for two tokens
(`Instr.expand`). -/
def encode (o : Order) (i : Instr) : Option (Ctx × List Byte) :=
  match i with
  | .ctrl f => some (.group, [f])
  | .lit b => some (.token false, [b])
  | .matchTok off len nxt => some (.token true, u16Bytes o off ++ u16Bytes o len ++ [nxt])
  | .slot off len byte => some (.slot, byte :: (u16Bytes .le len ++ u16Bytes .le off))
  | .nop => some (.command, [0])
  | .encode => some (.command, [1])
  | .decode => some (.command, [2])
  | .reserved => some (.command, [3])
  | .matFind | .matRange | .matCmp | .matLen | .matSel => none
  | .encRun | .encStart | .encSelect | .encLit | .encMatch | .encPush | .encFlush | .encEnd => none
  | .decRun | .decStart | .decCtrl | .decBit | .decLit | .decFetchOff | .decFetchLen | .decFetchNxt => none
  | .decCheck | .decCopy | .decNext | .decEnd | .decAbort _ => none
  | .hostLoad _ | .hostCmd _ | .hostPoll | .hostRead _ => none
  | .run _ _ => none

/-- RUN(b, n) "stands for the two tokens `L(b), M(1, n-2, b)`" (R75); every other instruction stands for itself. -/
def Instr.expand (i : Instr) : List Instr :=
  match i with
  | .run b n => [.lit b, .matchTok 1 (BitVec.ofNat 16 (n - 2)) b]
  | j => [j]

/-! ## The table's numbering of bits -/

/-- The `n` bytes of a number, the least significant first. -/
def bytesOfNat (n w : Nat) : List Byte :=
  match n with
  | 0 => []
  | n + 1 => BitVec.ofNat 8 w :: bytesOfNat n (w / 256)

/-- The context in which a bare table word is read. The bits alone do not say it: a control byte, a Literal and a command
have at most 8 bits each, a Match and a slot 40. A value that fits the 2-bit CMD register is read as a command; any other
single byte as the first byte of a stream, a control byte (R68); five bytes as a Match, the only five-byte element of the
stream (DESIGN CHOICE, safe, log 16). -/
def tableContext (nbits w : Nat) : Option Ctx :=
  if nbits = 0 then none
  else if nbits ≤ 8 then
    if w < 4 then some .command else if w < 256 then some .group else none
  else if nbits = 40 then
    if w < 1099511627776 then some (.token true) else none
  else none

/-- The bytes of a table word, in the order the hardware stores them. -/
def tableBytes (nbits w : Nat) : List Byte := bytesOfNat (if nbits ≤ 8 then 1 else 5) w

/-- The instruction whose bits, numbered as spec/opcode_table.json numbers them, are `w` (ORDER = LE, R4). -/
def decodeTableWord (nbits w : Nat) : Option Instr :=
  match tableContext nbits w with
  | none => none
  | some c =>
    match decode .le c (tableBytes nbits w) with
    | .ok (i, _) => some i
    | .error _ => none

end Sys2Proof
end

