-- ==== Sys2Proof/Machine/State.lean ====
section
/-! DEFINITION. The state of the core as plain data (spec/10_state.md), the reasons a step can stop, and the state after
reset (spec/70_reset_and_hazards.md R190). -/

namespace Sys2Proof.Machine

/-- A byte buffer: the bytes that hold a value, by address, in one canonical form: addresses strictly rising. A byte that
is not listed holds no value ("holds no value and no rule reads it", R17, R58; log 9). -/
abbrev Memory := List Host.Cell

/-- A token in the encoder: `{off[15:0], len[15:0], byte[7:0]}`; `off = 0` marks a Literal (R20, R65). -/
structure Slot where
  off : Half
  len : Half
  byte : Byte
  deriving DecidableEq, Repr

/-- Where the core is inside the pseudocode of R100 or R120: what it runs next. "Steps of fixed-function control,
selected by the conditions their rules state" (R73); the spec gives this place no register (DESIGN CHOICE, safe, log 3). -/
inductive Seq where
  /-- no command runs -/
  | idle
  /-- ENC.RUN or DEC.RUN, whole -/
  | whole
  /-- ENC.START or DEC.START -/
  | start
  /-- the head of the encoder's loop: ENC.SELECT, or ENC.END when the input is used up -/
  | select
  /-- ENC.LIT or ENC.MATCH -/
  | emit
  /-- ENC.PUSH -/
  | push
  /-- a group boundary of the stream -/
  | group
  /-- a token boundary inside a group -/
  | token
  /-- DEC.FETCH_LEN -/
  | fetchLen
  /-- DEC.FETCH_NXT -/
  | fetchNxt
  /-- DEC.CHECK -/
  | check
  /-- DEC.COPY -/
  | copy
  /-- DEC.NEXT -/
  | next
  deriving DecidableEq, Repr

/-- A host operation (R150). -/
inductive HostOp where
  | load (bytes : List Byte)
  | cmd (v : BitVec 2)
  | poll
  | read (a : Nat)
  deriving DecidableEq, Repr

/-- A pending move of the host or of the platform, one consumed per step (DESIGN CHOICE, safe, log 4). -/
inductive Input where
  /-- the host makes this operation -/
  | op (o : HostOp)
  /-- the host makes no move in this step: the core moves -/
  | cede
  /-- the host waits until STATUS.BUSY = 0 (R192): the core moves until then -/
  | untilReady
  /-- the platform resets the core (R190) -/
  | reset
  deriving DecidableEq, Repr

/-- What HOST.POLL gives the host (R150). -/
structure PollResult where
  cmd : BitVec 2
  status : BitVec 3
  errCode : BitVec 3
  inLen : Nat
  outLen : Nat
  deriving DecidableEq, Repr

/-- What the last host operation gave back to the host (log 5). -/
inductive Answer where
  /-- no operation yet -/
  | nothing
  /-- HOST.LOAD or HOST.CMD was accepted -/
  | accepted
  /-- the operation was refused and nothing changed (R151, R156, R157) -/
  | refused
  /-- HOST.POLL -/
  | polled (r : PollResult)
  /-- HOST.READ -/
  | byte (b : Byte)
  deriving DecidableEq, Repr

/-- The state of the core: "exactly the registers and buffers of this file" (R10), the configuration of the instance, and
the model's own fields. -/
structure State where
  /-- W, L, ORDER, CAP_IN, CAP_OUT: constant while the hardware exists (R10, log 1) -/
  cfg : Config
  /-- CMD, 2 bits (R11) -/
  cmd : BitVec 2
  /-- STATUS, 3 bits: bit 0 BUSY, bit 1 DONE, bit 2 ERR (R12) -/
  status : BitVec 3
  /-- ERR_CODE, 3 bits (R13) -/
  errCode : BitVec 3
  /-- IN_LEN, AW (R14) -/
  inLen : Nat
  /-- OUT_LEN, AW (R15) -/
  outLen : Nat
  /-- IB (R16) -/
  ib : Memory
  /-- OB (R17) -/
  ob : Memory
  /-- POS, AW: the encoder's program counter (R19) -/
  pos : Nat
  /-- T, the token latch (R20) -/
  t : Slot
  /-- G_TOK[0..7], the group buffer (R21) -/
  gTok : Vector Slot 8
  /-- G_CNT, 4 bits (R22) -/
  gCnt : BitVec 4
  /-- G_CTRL, 8 bits (R23) -/
  gCtrl : Byte
  /-- M_LO, AW (R24) -/
  mLo : Nat
  /-- M_I, AW (R24) -/
  mI : Nat
  /-- M_K, 16 bits (R24) -/
  mK : Half
  /-- M_BOFF, 16 bits (R25) -/
  mBoff : Half
  /-- M_BLEN, 16 bits (R25) -/
  mBlen : Half
  /-- RP, AW: the decoder's program counter (R26) -/
  rp : Nat
  /-- D_CTRL, 8 bits (R27) -/
  dCtrl : Byte
  /-- D_BIT, 4 bits (R28) -/
  dBit : BitVec 4
  /-- D_OFF, 16 bits (R29) -/
  dOff : Half
  /-- D_LEN, 16 bits (R29) -/
  dLen : Half
  /-- D_NXT, 8 bits (R29) -/
  dNxt : Byte
  /-- D_SRC, AW (R30) -/
  dSrc : Nat
  /-- D_REM, 16 bits (R30) -/
  dRem : Half
  /-- the model's own: what the core runs next (log 3) -/
  seq : Seq
  /-- the model's own: pending moves of the host, oldest first (log 4) -/
  inputs : List Input
  /-- the model's own: what the host was given last (log 5) -/
  answer : Answer
  /-- the model's own: the comparator's last output (R82, log 12) -/
  eqOut : Bool
  /-- the model's own: how many times free values were drawn (log 7) -/
  freeCtr : Nat
  deriving DecidableEq, Repr

/-- Why a step stops. Every one is "a defect of the model, not a behaviour of the hardware" (R44): the invariant of
Safety.lean rules them all out, and in states that no run reaches stopping is safe (log 18). -/
inductive Fault where
  /-- a read of IB at or above IN_LEN, or of a byte that holds no value (R8, R44). Raised by every operation that reads
  IB. Safe. -/
  | ibRead
  /-- a read of OB at or above OUT_LEN, or of a byte that holds no value (R8, R44). Raised by DEC.COPY and HOST.READ.
  Safe. -/
  | obRead
  /-- MAT.CMP outside `i + k < pos` and `pos + k < N`, where it is not defined (R82). Safe. -/
  | cmpUndefined
  /-- MAT.SEL would write the distance to an index that is not before POS (R84). Safe. -/
  | noCandidate
  /-- ENC.PUSH with G_CNT above 7: there is no such slot (R105). Safe. -/
  | noFreeSlot
  /-- ENC.FLUSH outside its precondition `1 <= G_CNT <= 8` (R106). Safe. -/
  | noGroup
  /-- DEC.BIT with D_BIT above 7: there is no such control bit (R123). Safe. -/
  | noControlBit
  /-- DEC.COPY with D_OFF above OUT_LEN: `OUT_LEN - D_OFF` is not a natural number (R8, R129). Safe. -/
  | offsetPastOutput
  /-- BUSY = 1 with no micro-operation to run. Raised by the core's step. Safe. -/
  | lostSequencer
  /-- ENC.RUN or DEC.RUN ran past the bound that R201 gives. Safe. -/
  | loopBound
  deriving DecidableEq, Repr

/-- Why an instruction has no meaning. -/
inductive Refusal where
  /-- an arm of `exec` that has no meaning yet (there is none). Safe. -/
  | notModelled (mnemonic : String)
  /-- RUN(b, n) with n outside 2 to 65537, for which R75 gives no tokens. Raised by RUN. Safe. -/
  | illFormedRun
  deriving DecidableEq, Repr

/-- Power-on reset (R190): CMD, STATUS, ERR_CODE, IN_LEN and OUT_LEN are 0, no byte of IB or OB holds a value, no command
runs. The working registers, which R190 leaves unspecified, are 0 here (DESIGN CHOICE, unsafe, log 6). -/
def State.reset : State where
  cfg := Config.built
  cmd := 0
  status := 0
  errCode := 0
  inLen := 0
  outLen := 0
  ib := []
  ob := []
  pos := 0
  t := ⟨0, 0, 0⟩
  gTok := Vector.replicate 8 ⟨0, 0, 0⟩
  gCnt := 0
  gCtrl := 0
  mLo := 0
  mI := 0
  mK := 0
  mBoff := 0
  mBlen := 0
  rp := 0
  dCtrl := 0
  dBit := 0
  dOff := 0
  dLen := 0
  dNxt := 0
  dSrc := 0
  dRem := 0
  seq := .idle
  inputs := []
  answer := .nothing
  eqOut := false
  freeCtr := 0

end Sys2Proof.Machine
end

