-- ==== Sys2Proof/Machine/Flags.lean ====
section
/-! DEFINITION. The flags of the core (spec/10_state.md R31): the three STATUS bits, the eight bits of a control byte, the
Matcher's "found" condition; and the numbers of the error kinds (spec/60_exceptions.md R165). There are no arithmetic
condition codes. -/

namespace Sys2Proof.Machine

/-! ## STATUS (R12) -/

/-- STATUS `000`: idle, nothing run since reset (R12, R181). -/
def statusIdle : BitVec 3 := 0b000#3

/-- STATUS `001`: a command runs. -/
def statusRunning : BitVec 3 := 0b001#3

/-- STATUS `010`: completed with success. -/
def statusSuccess : BitVec 3 := 0b010#3

/-- STATUS `110`: completed with an error. -/
def statusError : BitVec 3 := 0b110#3

/-- STATUS.BUSY, bit 0 (R12). -/
def State.busy (s : State) : Bool := s.status.getLsbD 0

/-- STATUS.DONE, bit 1 (R12). -/
def State.done (s : State) : Bool := s.status.getLsbD 1

/-- STATUS.ERR, bit 2 (R12). -/
def State.err (s : State) : Bool := s.status.getLsbD 2

/-! ## Error kinds (R165) -/

/-- ERR_CODE of a kind (R13, R165). -/
def errCodeOf (k : ErrKind) : BitVec 3 :=
  match k with
  | .emptyInput => 1
  | .truncatedStream => 2
  | .invalidOffset => 3
  | .badCommand => 4
  | .capacity => 5

/-! ## Control bits (R46, R62) -/

/-- Bit `i` of a control byte, `(ctrl >> i) & 1` (R67): token `i` is a Match. -/
def controlBit (ctrl : Byte) (i : Nat) : Bool := ctrl.getLsbD i

/-- A control byte with bit `i` set (R105). -/
def setControlBit (ctrl : Byte) (i : Nat) : Byte := ctrl ||| (1#8 <<< i)

/-- The tag of a token slot: "the tag of the tagged value is `T.off != 0`" (R20, R65). -/
def isMatch (sl : Slot) : Bool := sl.off != 0

/-! ## The Matcher's condition (R31) -/

/-- "found": `M_BLEN != 0` at the end of MAT.FIND (R31, R85). -/
def State.found (s : State) : Bool := s.mBlen != 0

/-- ENC.SELECT's decision is "match" (R102): a literal below W and wherever nothing was found. -/
def State.wantsMatch (s : State) : Bool := !decide (s.pos < s.cfg.windowSize.val) && s.found

end Sys2Proof.Machine
end

