-- ==== Sys2Proof/Machine/Operands.lean ====
section
/-! DEFINITION. Operands: the two byte buffers, the 16-bit fields, the tokens (spec/20_memory.md, spec/30_encoding.md). -/

namespace Sys2Proof.Machine

/-! ## Byte buffers (R40) -/

/-- The canonical form: addresses strictly rising, so no address twice. An unlisted address holds no value, which no cell
can equal. -/
abbrev Memory.wf (m : Memory) : Prop := (m.map Prod.fst).Pairwise (· < ·)

/-- The byte at an address, `none` where the buffer holds no value. -/
def Memory.read (m : Memory) (a : Nat) : Option Byte :=
  match m with
  | [] => none
  | (b, v) :: rest => if a = b then some v else Memory.read rest a

/-- The buffer with one byte written, in its canonical place. -/
def Memory.write (m : Memory) (a : Nat) (v : Byte) : Memory :=
  match m with
  | [] => [(a, v)]
  | (b, x) :: rest =>
    if a < b then (a, v) :: (b, x) :: rest
    else if a = b then (a, v) :: rest
    else (b, x) :: Memory.write rest a v

/-- Consecutive bytes from an address on. -/
def Memory.fromAddr (a : Nat) (bytes : List Byte) : Memory :=
  match bytes with
  | [] => []
  | v :: rest => (a, v) :: Memory.fromAddr (a + 1) rest

/-- A buffer that holds these bytes from index 0 on and no other (R55, R151). -/
def Memory.ofBytes (bytes : List Byte) : Memory := Memory.fromAddr 0 bytes

/-- The bytes of a buffer in index order. -/
def Memory.bytes (m : Memory) : List Byte := m.map Prod.snd

/-- `MemRead(IB, a, 1)`: "Legal only when `a < IN_LEN`" (R8). -/
def State.readIB (s : State) (a : Nat) : Option Byte := if a < s.inLen then s.ib.read a else none

/-- `MemRead(OB, a, 1)`: "Legal only when `a < OUT_LEN`" (R8). -/
def State.readOB (s : State) (a : Nat) : Option Byte := if a < s.outLen then s.ob.read a else none

/-- `avail`, the number of stream bytes not yet consumed (R26, R120). With RP above IN_LEN, where `IN_LEN - RP` has no value
(R8) and which R26 rules out, it is 0: no byte is available (DESIGN CHOICE, unsafe, log 29). -/
def State.avail (s : State) : Nat := s.inLen - s.rp

/-! ## 16-bit fields (R45, R67) -/

/-- `U16Read(a)`: two byte reads, lower index first (R8, R49). -/
def State.readU16 (s : State) (a : Nat) : Option Half :=
  match s.readIB a with
  | none => none
  | some b0 =>
    match s.readIB (a + 1) with
    | none => none
    | some b1 => some (u16Of s.cfg.order b0 b1)

/-! ## Tokens (R63, R64, R65) -/

/-- The stream bytes of a token: a Literal "writes its single byte", a Match "`offset`, `length`, then `next_byte`, in
that exact order" (R52, R106). -/
def tokenBytes (o : Order) (sl : Slot) : List Byte :=
  if isMatch sl then u16Bytes o sl.off ++ u16Bytes o sl.len ++ [sl.byte] else [sl.byte]

/-- The occupied slots of the group buffer, in emission order (R21). -/
def State.group (s : State) : List Slot := s.gTok.toList.take s.gCnt.toNat

/-! ## The window (R56, R81) -/

/-- `max(0, pos - W)` (R81). -/
def State.windowStart (s : State) : Nat := s.pos - s.cfg.windowSize.val

end Sys2Proof.Machine
end

