-- ==== Sys2Proof/Machine/Ops.lean ====
section
/-! DEFINITION. The operations the meanings share: Append, the error entry, completion, command start, free values, and
the running of one operation after another. -/

namespace Sys2Proof.Machine

/-! ## Running one operation after another -/

/-- What an operation of the core leads to. `ended` is a command that completed, with success or with an error: "no later
micro-operation runs" (R172). -/
inductive Flow where
  /-- the command goes on -/
  | go (s : State)
  /-- the command has completed, in this state -/
  | ended (s : State)
  /-- the model stops -/
  | stop (f : Fault)
  deriving DecidableEq, Repr

/-- One operation, then another unless the command has completed. -/
def Flow.andThen (x : Flow) (k : State → Flow) : Flow :=
  match x with
  | .go s => k s
  | .ended s => .ended s
  | .stop f => .stop f

/-- An operation as an instruction: whether the command goes on or has completed, there is a next state. -/
def Flow.outcome (x : Flow) : Host.Outcome State Fault Refusal :=
  match x with
  | .go s => .next s
  | .ended s => .next s
  | .stop f => .fault f

/-! ## Free values (U15, U16, U18, log 7) -/

/-- A group buffer of free values. -/
def freeGroup (c : Nat) : Vector Slot 8 :=
  #v[⟨Config.freeBits 16 c 0, Config.freeBits 16 c 1, Config.freeBits 8 c 2⟩,
     ⟨Config.freeBits 16 c 3, Config.freeBits 16 c 4, Config.freeBits 8 c 5⟩,
     ⟨Config.freeBits 16 c 6, Config.freeBits 16 c 7, Config.freeBits 8 c 8⟩,
     ⟨Config.freeBits 16 c 9, Config.freeBits 16 c 10, Config.freeBits 8 c 11⟩,
     ⟨Config.freeBits 16 c 12, Config.freeBits 16 c 13, Config.freeBits 8 c 14⟩,
     ⟨Config.freeBits 16 c 15, Config.freeBits 16 c 16, Config.freeBits 8 c 17⟩,
     ⟨Config.freeBits 16 c 18, Config.freeBits 16 c 19, Config.freeBits 8 c 20⟩,
     ⟨Config.freeBits 16 c 21, Config.freeBits 16 c 22, Config.freeBits 8 c 23⟩]

/-- The working registers whose value a command start leaves "unspecified, written before read" (R191 and the tables of
10_state.md), each at a free value. -/
def freeScratch (s : State) : State :=
  { s with
    t := ⟨Config.freeBits 16 s.freeCtr 24, Config.freeBits 16 s.freeCtr 25, Config.freeBits 8 s.freeCtr 26⟩
    gTok := freeGroup s.freeCtr
    mLo := Config.freeNat s.freeCtr 27
    mI := Config.freeNat s.freeCtr 28
    mK := Config.freeBits 16 s.freeCtr 29
    mBoff := Config.freeBits 16 s.freeCtr 30
    mBlen := Config.freeBits 16 s.freeCtr 31
    dCtrl := Config.freeBits 8 s.freeCtr 32
    dBit := Config.freeBits 4 s.freeCtr 33
    dOff := Config.freeBits 16 s.freeCtr 34
    dLen := Config.freeBits 16 s.freeCtr 35
    dNxt := Config.freeBits 8 s.freeCtr 36
    dSrc := Config.freeNat s.freeCtr 37
    dRem := Config.freeBits 16 s.freeCtr 38
    freeCtr := s.freeCtr + 1 }

/-- Every working register at a free value: after an error (R172, U15) and after a reset (R190, U16). -/
def freeWorking (s : State) : State :=
  { freeScratch s with
    pos := Config.freeNat s.freeCtr 39
    gCnt := Config.freeBits 4 s.freeCtr 40
    gCtrl := Config.freeBits 8 s.freeCtr 41
    rp := Config.freeNat s.freeCtr 42 }

/-! ## Output, errors, completion -/

/-- `OUT_LEN <- 0`: "so no byte is valid" (R17), and the bytes of OB hold no value (R58). -/
def clearOutput (s : State) : State := { s with outLen := 0, ob := [] }

/-- The error entry (R172): "OUT_LEN <- 0, ERR_CODE <- code of the kind, STATUS <- ERR = 1, DONE = 1, BUSY = 0"; CMD, IB
and IN_LEN are kept, the working registers are unspecified. This is the one exception entry of the hardware; there is no
return from it (R174). -/
def errorEntry (k : ErrKind) (s : State) : State :=
  { clearOutput (freeWorking s) with
    errCode := errCodeOf k
    status := statusError
    seq := .idle }

/-- `raise` inside a command: the command stops at once (R8, R172). -/
def raise (k : ErrKind) (s : State) : Flow := .ended (errorEntry k s)

/-- Completion with success (R158): "STATUS <- ERR = 0, DONE = 1, BUSY = 0, ERR_CODE stays 0, OUT_LEN and OB hold the
result". The working registers keep their last values, as the operands of ENC.END and DEC.END say (R107, R131: they write
STATUS), where U16 lets them hold any value between commands (DESIGN CHOICE, unsafe, log 27). -/
def complete (s : State) : State := { s with status := statusSuccess, seq := .idle }

/-- An append does not fit: `OUT_LEN = CAP_OUT` with a finite CAP_OUT (R8, R170). -/
def State.outputFull (s : State) : Bool :=
  match s.cfg.capOut with
  | none => false
  | some c => decide (c ≤ s.outLen)

/-- The state after one byte is written at index OUT_LEN and OUT_LEN is increased by 1 (R42). -/
def appended (v : Byte) (s : State) : State :=
  { s with ob := s.ob.write s.outLen v, outLen := s.outLen + 1 }

/-- `Append(v)` (R8, R42), with the check of a finite CAP_OUT before the byte is written (R170). -/
def append (v : Byte) (s : State) : Flow :=
  if s.outputFull then raise .capacity s else .go (appended v s)

/-- Several appends, in order (R49, R52). -/
def appendAll (bytes : List Byte) (s : State) : Flow :=
  match bytes with
  | [] => .go s
  | v :: rest => (append v s).andThen (appendAll rest)

/-! ## Commands and reset -/

/-- Where the core begins a command, by the size of its steps (R6, log 3). -/
def firstSeq (g : Grain) : Seq :=
  match g with
  | .command => .whole
  | .element => .start
  | .micro => .start

/-- Command start (R153, R154, R191): CMD takes the command, STATUS is `001`, ERR_CODE and OUT_LEN are 0, IB and IN_LEN
are kept. POS, RP, G_CNT and G_CTRL keep their values until ENC.START or DEC.START sets them (DESIGN CHOICE, log 7). -/
def commandStart (c : BitVec 2) (s : State) : State :=
  { clearOutput (freeScratch s) with
    cmd := c
    status := statusRunning
    errCode := 0
    seq := firstSeq s.cfg.grain }

/-- Reset of the core at any time (R190): "nothing of it survives". The instance's configuration and the host's own side
(its pending moves, what it was given) are not the core's. -/
def powerOn (s : State) : State :=
  { clearOutput (freeWorking s) with
    cmd := 0
    status := statusIdle
    errCode := 0
    inLen := 0
    ib := []
    seq := .idle }

/-! ## The host's answers -/

/-- A host operation refused: "the operation is refused, nothing changes" (R151). -/
def refuseHost (s : State) : State := { s with answer := .refused }

/-- A host operation accepted. -/
def acceptHost (s : State) : State := { s with answer := .accepted }

/-- HOST.LOAD of more than CAP_IN bytes (R57, R151). -/
def State.loadTooLong (s : State) (n : Nat) : Bool :=
  match s.cfg.capIn with
  | none => false
  | some c => decide (c < n)

/-- What HOST.POLL reads (R150). While BUSY = 1 the values of ERR_CODE and OUT_LEN are any value (R158, U18, log 8). -/
def pollResult (s : State) : PollResult :=
  if s.busy then
    ⟨s.cmd, s.status, Config.freeBits 3 s.freeCtr 0, s.inLen, Config.freeNat s.freeCtr 1⟩
  else ⟨s.cmd, s.status, s.errCode, s.inLen, s.outLen⟩

end Sys2Proof.Machine
end

