-- ==== Sys2Proof/Machine/HostCmd.lean ====
section
/-! DEFINITION. The host commands and the host operations (spec/43_host_commands.md). -/

namespace Sys2Proof.Machine

/-- LOAD, CMD and READ "are accepted only while `STATUS.BUSY = 0`" (R150); refused, they change nothing (R151, R157). -/
def whenReady (k : State → Host.Outcome State Fault Refusal) (s : State) : Host.Outcome State Fault Refusal :=
  if s.busy then .next (refuseHost s) else k s

/-- NOP (R152): `CMD <- 0`, "Nothing else changes". -/
def nopDone (s : State) : State := { s with cmd := 0 }

/-- The reserved command (R155): CMD <- 3, then the error entry for BadCommand, "Neither unit runs". -/
def badCommand (s : State) : State := errorEntry .badCommand { s with cmd := 3 }

/-- HOST.LOAD (R151): IB holds the bytes and no other, IN_LEN is their number. -/
def loaded (bytes : List Byte) (s : State) : State := { s with ib := Memory.ofBytes bytes, inLen := bytes.length }

/-- HOST.READ's requirement beside BUSY = 0 (R156). -/
def State.readable (s : State) (a : Nat) : Bool := s.done && !s.err && decide (a < s.outLen)

/-- NOP (R152). -/
def execNop (s : State) : Host.Outcome State Fault Refusal :=
  whenReady (fun a => .next (acceptHost (nopDone a))) s

/-- ENCODE (R153): the command is accepted and ENC.RUN begins. -/
def execEncode (s : State) : Host.Outcome State Fault Refusal :=
  whenReady (fun a => .next (acceptHost (commandStart 1 a))) s

/-- DECODE (R154): the command is accepted and DEC.RUN begins. -/
def execDecode (s : State) : Host.Outcome State Fault Refusal :=
  whenReady (fun a => .next (acceptHost (commandStart 2 a))) s

/-- The reserved command (R155). -/
def execReserved (s : State) : Host.Outcome State Fault Refusal :=
  whenReady (fun a => .next (acceptHost (badCommand a))) s

/-- HOST.LOAD (R151): refused as well when the bytes do not fit a finite CAP_IN. -/
def execHostLoad (bytes : List Byte) (s : State) : Host.Outcome State Fault Refusal :=
  whenReady (fun a =>
    if a.loadTooLong bytes.length then .next (refuseHost a) else .next (acceptHost (loaded bytes a))) s

/-- HOST.CMD (R150, R11): a write of the CMD register, which runs the command that the value encodes (R66). -/
def execHostCmd (v : BitVec 2) (s : State) : Host.Outcome State Fault Refusal :=
  if v = 0 then execNop s
  else if v = 1 then execEncode s
  else if v = 2 then execDecode s
  else execReserved s

/-- HOST.POLL (R150), accepted at any time. Free values are drawn while BUSY = 1 (log 8). -/
def execHostPoll (s : State) : Host.Outcome State Fault Refusal :=
  .next { s with
    answer := .polled (pollResult s)
    freeCtr := if s.busy then s.freeCtr + 1 else s.freeCtr }

/-- HOST.READ (R156): the byte at index `a` of the result; "Reading does not change any state" of the core. -/
def execHostRead (a : Nat) (s : State) : Host.Outcome State Fault Refusal :=
  whenReady (fun c =>
    if c.readable a then
      match c.readOB a with
      | none => .fault .obRead
      | some b => .next { c with answer := .byte b }
    else .next (refuseHost c)) s

end Sys2Proof.Machine
end

