-- ==== Sys2Proof/Machine/Decoder.lean ====
section
/-! DEFINITION. The frame decoder, DEC (spec/42_decoder.md). `M` of the rules is IN_LEN, `avail` is IN_LEN - RP. -/

namespace Sys2Proof.Machine

/-! ## The deserializer -/

/-- DEC.START (R121): RP <- 0; OUT_LEN <- 0. -/
def decStart (s : State) : Flow := .go { clearOutput s with rp := 0 }

/-- DEC.END (R131): the clean end, success. -/
def decEnd (s : State) : Flow := .ended (complete s)

/-- The control byte of a group has been read: D_CTRL, RP + 1, D_BIT <- 0 (R122). -/
def controlRead (f : Byte) (s : State) : State := { s with dCtrl := f, rp := s.rp + 1, dBit := 0 }

/-- DEC.CTRL (R122): the clean end when no byte is available, else the control byte at RP. -/
def decCtrl (s : State) : Flow :=
  if s.avail = 0 then decEnd s
  else
    match s.readIB s.rp with
    | none => .stop .ibRead
    | some f => .go (controlRead f s)

/-- A Literal's byte appended, then RP + 1 (R124). -/
def literalRead (b : Byte) (s : State) : Flow := (append b s).andThen fun a => .go { a with rp := a.rp + 1 }

/-- DEC.LIT (R124). -/
def decLit (s : State) : Flow :=
  match s.readIB s.rp with
  | none => .stop .ibRead
  | some b => literalRead b s

/-- The offset latched, RP + 2 (R125). -/
def offsetRead (v : Half) (s : State) : State := { s with dOff := v, rp := s.rp + 2 }

/-- The length latched, RP + 2 (R126). -/
def lengthRead (v : Half) (s : State) : State := { s with dLen := v, rp := s.rp + 2 }

/-- The next_byte latched, RP + 1 (R127). -/
def nextRead (b : Byte) (s : State) : State := { s with dNxt := b, rp := s.rp + 1 }

/-- DEC.FETCH_OFF (R125): none of the field is a clean end, half of it is fatal. -/
def decFetchOff (s : State) : Flow :=
  if s.avail = 0 then decEnd s
  else if s.avail = 1 then raise .truncatedStream s
  else
    match s.readU16 s.rp with
    | none => .stop .ibRead
    | some v => .go (offsetRead v s)

/-- DEC.FETCH_LEN (R126): fewer than two bytes are fatal, none included. -/
def decFetchLen (s : State) : Flow :=
  if s.avail < 2 then raise .truncatedStream s
  else
    match s.readU16 s.rp with
    | none => .stop .ibRead
    | some v => .go (lengthRead v s)

/-- DEC.FETCH_NXT (R127): no byte is fatal. -/
def decFetchNxt (s : State) : Flow :=
  if s.avail < 1 then raise .truncatedStream s
  else
    match s.readIB s.rp with
    | none => .stop .ibRead
    | some b => .go (nextRead b s)

/-! ## The replay unit -/

/-- DEC.CHECK (R128): "if D_OFF = 0 or D_OFF > OUT_LEN: raise InvalidOffsetError". -/
def decCheck (s : State) : Flow :=
  if s.dOff = 0 ∨ s.outLen < s.dOff.toNat then raise .invalidOffset s else .go s

/-- The loop of DEC.COPY (R129): "read one byte, then append it", `n` times, so that a copy longer than its offset re-reads
what it has just appended (R51, R193). -/
def copyBytes (n : Nat) (s : State) : Flow :=
  match n with
  | 0 => .go s
  | n + 1 =>
    match s.readOB s.dSrc with
    | none => .stop .obRead
    | some b => (append b s).andThen fun a => copyBytes n { a with dSrc := a.dSrc + 1, dRem := a.dRem - 1 }

/-- DEC.COPY (R129): D_SRC <- OUT_LEN - D_OFF; D_REM <- D_LEN; then D_LEN single-byte copies. -/
def decCopy (s : State) : Flow :=
  if s.dOff.toNat ≤ s.outLen then
    copyBytes s.dLen.toNat { s with dSrc := s.outLen - s.dOff.toNat, dRem := s.dLen }
  else .stop .offsetPastOutput

/-- DEC.NEXT (R130): Append(D_NXT), "always, with no test for a sentinel". -/
def decNext (s : State) : Flow := append s.dNxt s

/-- What follows the three fetches of a Match: validation, copy, append (R123, R128 to R130). -/
def replay (s : State) : Flow := (decCheck s).andThen fun a => (decCopy a).andThen decNext

/-- The Match sequence: the three fetches first, in this order, then the replay (R123, R171). -/
def decMatch (s : State) : Flow :=
  (decFetchOff s).andThen fun a => (decFetchLen a).andThen fun b => (decFetchNxt b).andThen replay

/-- D_BIT <- D_BIT + 1 (R123, R28). -/
def bitDone (s : State) : State := { s with dBit := s.dBit + 1 }

/-- DEC.BIT (R123) for one value of D_BIT: nothing when no byte is available ("leave the group"), else the token that the
control bit selects, then D_BIT + 1. -/
def decBit (s : State) : Flow :=
  if s.avail = 0 then .go s
  else if s.dBit.toNat < 8 then
    (if controlBit s.dCtrl s.dBit.toNat then decMatch s else decLit s).andThen fun a => .go (bitDone a)
  else .stop .noControlBit

/-- DEC.ABORT (R132): the fatal end, by any `raise` in DEC. -/
def decAbort (k : ErrKind) (s : State) : Flow := raise k s

/-! ## The whole decoder -/

/-- The tokens of one group (R120): `while D_BIT < 8`, left early when no byte is available. `n` bounds the passes; eight
are enough. -/
def decTokens (n : Nat) (s : State) : Flow :=
  match n with
  | 0 => .go s
  | n + 1 =>
    if s.dBit.toNat < 8 ∧ s.avail ≠ 0 then (decBit s).andThen (decTokens n) else .go s

/-- The outer loop of DEC.RUN (R120). `n` bounds the passes; each consumes at least one byte (R134), so IN_LEN + 1 are
enough, the last one being the clean end. -/
def decLoop (n : Nat) (s : State) : Flow :=
  match n with
  | 0 => .stop .loopBound
  | n + 1 => (decCtrl s).andThen fun a => (decTokens 8 a).andThen (decLoop n)

/-- DEC.RUN (R120). -/
def decRun (s : State) : Flow := (decStart s).andThen fun a => decLoop (a.inLen + 1) a

/-! ## The instructions -/

/-- DEC.RUN (R120). -/
def execDecRun (s : State) : Host.Outcome State Fault Refusal := (decRun s).outcome

/-- DEC.START (R121). -/
def execDecStart (s : State) : Host.Outcome State Fault Refusal := (decStart s).outcome

/-- DEC.CTRL (R122). -/
def execDecCtrl (s : State) : Host.Outcome State Fault Refusal := (decCtrl s).outcome

/-- DEC.BIT (R123). -/
def execDecBit (s : State) : Host.Outcome State Fault Refusal := (decBit s).outcome

/-- DEC.LIT (R124). -/
def execDecLit (s : State) : Host.Outcome State Fault Refusal := (decLit s).outcome

/-- DEC.FETCH_OFF (R125). -/
def execDecFetchOff (s : State) : Host.Outcome State Fault Refusal := (decFetchOff s).outcome

/-- DEC.FETCH_LEN (R126). -/
def execDecFetchLen (s : State) : Host.Outcome State Fault Refusal := (decFetchLen s).outcome

/-- DEC.FETCH_NXT (R127). -/
def execDecFetchNxt (s : State) : Host.Outcome State Fault Refusal := (decFetchNxt s).outcome

/-- DEC.CHECK (R128). -/
def execDecCheck (s : State) : Host.Outcome State Fault Refusal := (decCheck s).outcome

/-- DEC.COPY (R129). -/
def execDecCopy (s : State) : Host.Outcome State Fault Refusal := (decCopy s).outcome

/-- DEC.NEXT (R130). -/
def execDecNext (s : State) : Host.Outcome State Fault Refusal := (decNext s).outcome

/-- DEC.END (R131). -/
def execDecEnd (s : State) : Host.Outcome State Fault Refusal := (decEnd s).outcome

/-- DEC.ABORT (R132). -/
def execDecAbort (k : ErrKind) (s : State) : Host.Outcome State Fault Refusal := (decAbort k s).outcome

end Sys2Proof.Machine
end

