-- ==== Sys2Proof/Machine/Matcher.lean ====
section
/-! DEFINITION. The window matcher, MAT (spec/40_matcher.md). `pos` of the rules is POS, `N` is IN_LEN. -/

namespace Sys2Proof.Machine

/-! ## MAT.CMP -/

/-- Where `eq(i, k)` is defined: the source side before POS, the target side before IN_LEN (R82). -/
def State.cmpDefined (s : State) (i k : Nat) : Bool :=
  decide (i + k < s.pos) && decide (s.pos + k < s.inLen)

/-- `eq(i, k)`: the bytes of IB at `i + k` and at `pos + k` are equal (R82). -/
def State.cmpBytes (s : State) (i k : Nat) : Except Fault Bool :=
  if s.cmpDefined i k then
    match s.readIB (i + k) with
    | none => .error .ibRead
    | some x =>
      match s.readIB (s.pos + k) with
      | none => .error .ibRead
      | some y => .ok (x == y)
  else .error .cmpUndefined

/-- MAT.CMP (R82) of candidate M_I at run index M_K (R24): two reads, no register written; the comparator yields
`eq(M_I, M_K)`, which the model's own field `eqOut` shows (log 12). -/
def matCmp (s : State) : Flow :=
  match s.cmpBytes s.mI s.mK.toNat with
  | .error f => .stop f
  | .ok b => .go { s with eqOut := b }

/-! ## MAT.RANGE -/

/-- MAT.RANGE (R81): `M_LO <- max(0, pos - W)`; the subtraction saturates at 0. -/
def matRange (s : State) : Flow := .go { s with mLo := s.windowStart }

/-! ## MAT.LEN -/

/-- The run of MAT.LEN goes on while `M_K < L` and the comparison is defined and true (R80, R83). The first argument bounds
the passes; L passes are enough, since each raises M_K by 1. -/
def extendRun (n : Nat) (s : State) : Flow :=
  match n with
  | 0 => .go s
  | n + 1 =>
    if decide (s.mK.toNat < s.cfg.lookaheadSize.val) && s.cmpDefined s.mI s.mK.toNat then
      match s.cmpBytes s.mI s.mK.toNat with
      | .error f => .stop f
      | .ok true => extendRun n { s with mK := s.mK + 1 }
      | .ok false => .go s
    else .go s

/-- MAT.LEN (R83) of candidate M_I: M_K becomes the largest run length under the three bounds L, `pos - M_I`,
`N - pos`. With M_I not before POS, or POS above IN_LEN, where these bounds have no value, it is 0, as the loop of R80 gives
(DESIGN CHOICE, unsafe, log 30). -/
def matLen (s : State) : Flow := extendRun s.cfg.lookaheadSize.val { s with mK := 0 }

/-! ## MAT.SEL -/

/-- `M_BLEN <- M_K ; M_BOFF <- pos - i` (R84). A candidate of R81 is at most W before POS, so that its distance fits the
16-bit field; of a distance that does not fit, which an M_I below M_LO can have, the spec says neither "truncation modulo
65536, saturation, or an error" (spec/91_not_in_source.md N3): M_BOFF is then a free value (DESIGN CHOICE, safe,
log 28). -/
def selected (s : State) : State :=
  if s.pos - s.mI < 65536 then { s with mBlen := s.mK, mBoff := BitVec.ofNat 16 (s.pos - s.mI) }
  else { s with mBlen := s.mK, mBoff := Config.freeBits 16 s.freeCtr 43, freeCtr := s.freeCtr + 1 }

/-- MAT.SEL (R84): `if M_K > M_BLEN: M_BLEN <- M_K ; M_BOFF <- pos - i`, strictly greater, with `i` the candidate just
measured, M_I. An index not before POS has no distance (log 18). -/
def matSel (s : State) : Flow :=
  if s.mBlen.toNat < s.mK.toNat then
    if s.mI < s.pos then .go (selected s) else .stop .noCandidate
  else .go s

/-! ## MAT.FIND -/

/-- The last `n` candidates before POS, in ascending order (R80, R81): each is measured, then compared with the best. -/
def scanCandidates (n : Nat) (s : State) : Flow :=
  match n with
  | 0 => .go s
  | n + 1 => (matLen { s with mI := s.pos - (n + 1) }).andThen fun a => (matSel a).andThen (scanCandidates n)

/-- MAT.FIND (R80): the reference sequential scan, oldest candidate first. "Defined for any `0 <= pos <= N`"; above, nothing
is found (DESIGN CHOICE, unsafe, log 30). -/
def matFind (s : State) : Flow :=
  (matRange { s with mBoff := 0, mBlen := 0 }).andThen fun a => scanCandidates (a.pos - a.mLo) a

/-! ## The instructions -/

/-- MAT.FIND (R80). -/
def execMatFind (s : State) : Host.Outcome State Fault Refusal := (matFind s).outcome

/-- MAT.RANGE (R81). -/
def execMatRange (s : State) : Host.Outcome State Fault Refusal := (matRange s).outcome

/-- MAT.CMP (R82). -/
def execMatCmp (s : State) : Host.Outcome State Fault Refusal := (matCmp s).outcome

/-- MAT.LEN (R83). -/
def execMatLen (s : State) : Host.Outcome State Fault Refusal := (matLen s).outcome

/-- MAT.SEL (R84). -/
def execMatSel (s : State) : Host.Outcome State Fault Refusal := (matSel s).outcome

end Sys2Proof.Machine
end

