-- ==== Sys2Proof/Machine/Encoder.lean ====
section
/-! DEFINITION. The frame encoder, ENC (spec/41_encoder.md). `N` of the rules is IN_LEN. -/

namespace Sys2Proof.Machine

/-! ## The token mux -/

/-- ENC.START (R101): EmptyInputError when IN_LEN = 0, before anything is written; else POS, G_CNT, G_CTRL and OUT_LEN
are 0. -/
def encStart (s : State) : Flow :=
  if s.inLen = 0 then raise .emptyInput s
  else .go { clearOutput s with pos := 0, gCnt := 0, gCtrl := 0 }

/-- ENC.SELECT (R102): "MAT.FIND is not run" while POS < W; the decision it yields is `State.wantsMatch` of the state it
leaves. -/
def encSelect (s : State) : Flow :=
  if s.pos < s.cfg.windowSize.val then .go s else matFind s

/-- ENC.LIT (R103): T <- (0, 0, IB[POS]); POS <- POS + 1. -/
def encLit (s : State) : Flow :=
  match s.readIB s.pos with
  | none => .stop .ibRead
  | some b => .go { s with t := ⟨0, 0, b⟩, pos := s.pos + 1 }

/-- The next_byte of a Match: the input byte after it if there is one, else the sentinel 0x00 (R104). `none` is a read
that the invariant rules out. -/
def State.nextByte (s : State) : Option Byte :=
  if s.pos + s.mBlen.toNat < s.inLen then s.readIB (s.pos + s.mBlen.toNat) else some 0

/-- ENC.MATCH (R104): T <- (M_BOFF, M_BLEN, next_byte); POS <- POS + M_BLEN + 1. -/
def encMatch (s : State) : Flow :=
  match s.nextByte with
  | none => .stop .ibRead
  | some nb => .go { s with t := ⟨s.mBoff, s.mBlen, nb⟩, pos := s.pos + s.mBlen.toNat + 1 }

/-! ## The control-byte serializer -/

/-- One token slot written to the stream (R106). -/
def emitSlot (sl : Slot) (s : State) : Flow := appendAll (tokenBytes s.cfg.order sl) s

/-- Several token slots, in order (R52, R106). -/
def emitSlots (sls : List Slot) (s : State) : Flow :=
  match sls with
  | [] => .go s
  | sl :: rest => (emitSlot sl s).andThen (emitSlots rest)

/-- The group is written out: G_CNT <- 0 and G_CTRL <- 0 (R106). G_TOK is not among what ENC.FLUSH writes (log 11). -/
def groupEmptied (s : State) : State := { s with gCnt := 0, gCtrl := 0 }

/-- ENC.FLUSH (R106): "write the control byte, then each token". -/
def encFlush (s : State) : Flow :=
  if 1 ≤ s.gCnt.toNat ∧ s.gCnt.toNat ≤ 8 then
    (append s.gCtrl s).andThen fun a => (emitSlots s.group a).andThen fun b => .go (groupEmptied b)
  else .stop .noGroup

/-- The token latch stored in slot G_CNT, its control bit set when it is a Match, G_CNT increased (R105). -/
def stored (s : State) : State :=
  { s with
    gTok := s.gTok.setIfInBounds s.gCnt.toNat s.t
    gCtrl := if isMatch s.t then setControlBit s.gCtrl s.gCnt.toNat else s.gCtrl
    gCnt := s.gCnt + 1 }

/-- ENC.PUSH (R105): store, then "Every 8 tokens ... flush". -/
def encPush (s : State) : Flow :=
  if s.gCnt.toNat < 8 then
    if (stored s).gCnt.toNat = 8 then encFlush (stored s) else .go (stored s)
  else .stop .noFreeSlot

/-- ENC.END (R107): flush a non-empty partial group, then complete with success. -/
def encEnd (s : State) : Flow :=
  (if 0 < s.gCnt.toNat then encFlush s else .go s).andThen fun a => .ended (complete a)

/-! ## The whole encoder -/

/-- One pass of the loop of ENC.RUN (R100). -/
def encPass (s : State) : Flow :=
  (encSelect s).andThen fun a => (if a.wantsMatch then encMatch a else encLit a).andThen encPush

/-- The loop of ENC.RUN, `while POS < N`, then ENC.END (R100). The first argument bounds the passes; "each loop pass
raises POS by at least 1" (R201), so IN_LEN passes are enough. -/
def encLoop (n : Nat) (s : State) : Flow :=
  match n with
  | 0 => if s.pos < s.inLen then .stop .loopBound else encEnd s
  | n + 1 => if s.pos < s.inLen then (encPass s).andThen (encLoop n) else encEnd s

/-- ENC.RUN (R100). -/
def encRun (s : State) : Flow := (encStart s).andThen fun a => encLoop a.inLen a

/-! ## The instructions -/

/-- ENC.RUN (R100). -/
def execEncRun (s : State) : Host.Outcome State Fault Refusal := (encRun s).outcome

/-- ENC.START (R101). -/
def execEncStart (s : State) : Host.Outcome State Fault Refusal := (encStart s).outcome

/-- ENC.SELECT (R102). -/
def execEncSelect (s : State) : Host.Outcome State Fault Refusal := (encSelect s).outcome

/-- ENC.LIT (R103). -/
def execEncLit (s : State) : Host.Outcome State Fault Refusal := (encLit s).outcome

/-- ENC.MATCH (R104). -/
def execEncMatch (s : State) : Host.Outcome State Fault Refusal := (encMatch s).outcome

/-- ENC.PUSH (R105). -/
def execEncPush (s : State) : Host.Outcome State Fault Refusal := (encPush s).outcome

/-- ENC.FLUSH (R106). -/
def execEncFlush (s : State) : Host.Outcome State Fault Refusal := (encFlush s).outcome

/-- ENC.END (R107). -/
def execEncEnd (s : State) : Host.Outcome State Fault Refusal := (encEnd s).outcome

end Sys2Proof.Machine
end

