-- ==== Sys2Proof/Machine/Stream.lean ====
section
/-! DEFINITION. The elements of the stream as instructions (spec/30_encoding.md): what the decoder does with an element it
has read at RP, and what the encoder does with one it writes. -/

namespace Sys2Proof.Machine

/-- In running mode "the direction (encode or decode) is given by CMD" (R181). -/
def State.encoding (s : State) : Bool := s.cmd == 1

/-- CTRL: read by the decoder (R122), written by the encoder (R106: "write the control byte"), by the direction
(DESIGN CHOICE, safe, log 13). -/
def ctrlElement (f : Byte) (s : State) : Flow :=
  if s.encoding then append f s else .go (controlRead f s)

/-- MATCH (R125 to R130): the three fields latched in stream order, RP past each, then validated and replayed. -/
def matchElement (off len : Half) (nxt : Byte) (s : State) : Flow :=
  replay (nextRead nxt (lengthRead len (offsetRead off s)))

/-- CTRL (R62, R122, R106). -/
def execCtrl (f : Byte) (s : State) : Host.Outcome State Fault Refusal := (ctrlElement f s).outcome

/-- LIT (R63, R124). -/
def execLit (b : Byte) (s : State) : Host.Outcome State Fault Refusal := (literalRead b s).outcome

/-- MATCH (R64, R125 to R130). -/
def execMatchTok (off len : Half) (nxt : Byte) (s : State) : Host.Outcome State Fault Refusal :=
  (matchElement off len nxt s).outcome

/-- SLOT (R65): the serializer writes the slot's token to the stream (R106; DESIGN CHOICE, safe, log 14). -/
def execSlot (off len : Half) (byte : Byte) (s : State) : Host.Outcome State Fault Refusal :=
  (emitSlot ⟨off, len, byte⟩ s).outcome

/-- RUN(b, n), "the two tokens `L(b), M(1, n-2, b)`" (R75), one after the other. -/
def execRun (b : Byte) (n : Nat) (s : State) : Host.Outcome State Fault Refusal :=
  if wellFormedRun n then
    ((literalRead b s).andThen (matchElement 1 (BitVec.ofNat 16 (n - 2)) b)).outcome
  else .refused .illFormedRun

end Sys2Proof.Machine
end

