-- ==== Sys2Proof/Machine/Dispatch.lean ====
section
/-! DEFINITION. One arm per instruction, in the order of spec/opcode_table.json. -/

namespace Sys2Proof.Machine

def exec (i : Instr) (s : State) : Host.Outcome State Fault Refusal :=
  match i with
  | .ctrl f => Sys2Proof.Machine.execCtrl f s
  | .lit b => Sys2Proof.Machine.execLit b s
  | .matchTok off len nxt => Sys2Proof.Machine.execMatchTok off len nxt s
  | .slot off len byte => Sys2Proof.Machine.execSlot off len byte s
  | .nop => Sys2Proof.Machine.execNop s
  | .encode => Sys2Proof.Machine.execEncode s
  | .decode => Sys2Proof.Machine.execDecode s
  | .reserved => Sys2Proof.Machine.execReserved s
  | .matFind => Sys2Proof.Machine.execMatFind s
  | .matRange => Sys2Proof.Machine.execMatRange s
  | .matCmp => Sys2Proof.Machine.execMatCmp s
  | .matLen => Sys2Proof.Machine.execMatLen s
  | .matSel => Sys2Proof.Machine.execMatSel s
  | .encRun => Sys2Proof.Machine.execEncRun s
  | .encStart => Sys2Proof.Machine.execEncStart s
  | .encSelect => Sys2Proof.Machine.execEncSelect s
  | .encLit => Sys2Proof.Machine.execEncLit s
  | .encMatch => Sys2Proof.Machine.execEncMatch s
  | .encPush => Sys2Proof.Machine.execEncPush s
  | .encFlush => Sys2Proof.Machine.execEncFlush s
  | .encEnd => Sys2Proof.Machine.execEncEnd s
  | .decRun => Sys2Proof.Machine.execDecRun s
  | .decStart => Sys2Proof.Machine.execDecStart s
  | .decCtrl => Sys2Proof.Machine.execDecCtrl s
  | .decBit => Sys2Proof.Machine.execDecBit s
  | .decLit => Sys2Proof.Machine.execDecLit s
  | .decFetchOff => Sys2Proof.Machine.execDecFetchOff s
  | .decFetchLen => Sys2Proof.Machine.execDecFetchLen s
  | .decFetchNxt => Sys2Proof.Machine.execDecFetchNxt s
  | .decCheck => Sys2Proof.Machine.execDecCheck s
  | .decCopy => Sys2Proof.Machine.execDecCopy s
  | .decNext => Sys2Proof.Machine.execDecNext s
  | .decEnd => Sys2Proof.Machine.execDecEnd s
  | .decAbort kind => Sys2Proof.Machine.execDecAbort kind s
  | .hostLoad bytes => Sys2Proof.Machine.execHostLoad bytes s
  | .hostCmd v => Sys2Proof.Machine.execHostCmd v s
  | .hostPoll => Sys2Proof.Machine.execHostPoll s
  | .hostRead a => Sys2Proof.Machine.execHostRead a s
  | .run b n => Sys2Proof.Machine.execRun b n s

end Sys2Proof.Machine
end

