-- ==== Sys2Proof/Machine/Sequencer.lean ====
section
/-! DEFINITION. Which instruction the core runs next, and where it goes after it: the control flow of R100 and R120, "selected
by the conditions their rules state" (spec/30_encoding.md R73). In DECODE the elements of the stream are fetched at RP, the
decoder's program counter (R18, R26, R54). -/

namespace Sys2Proof.Machine

/-! ## Fetching an element of the stream -/

/-- `n` bytes of IB from index `a` on. -/
def fetchBytes (n a : Nat) (s : State) : Option (List Byte) :=
  match n with
  | 0 => some []
  | n + 1 =>
    match s.readIB a with
    | none => none
    | some b =>
      match fetchBytes n (a + 1) s with
      | none => none
      | some rest => some (b :: rest)

/-- The most bytes an element can have in this context: 5 for a Match, 1 for a Literal or a control byte (R68). -/
def elementSize (c : Ctx) : Nat :=
  match c with
  | .token true => 5
  | .token false => 1
  | .group => 1
  | .command => 1
  | .slot => 5

/-- The instruction for the element at RP. No byte available is the clean end (R122, R123, R131); a Match cut off is
TruncatedStreamError (R71, R132, R167). -/
def fetchElement (c : Ctx) (s : State) : Except Fault Instr :=
  if s.avail = 0 then .ok .decEnd
  else
    match fetchBytes (min s.avail (elementSize c)) s.rp s with
    | none => .error .ibRead
    | some bytes =>
      match decode s.cfg.order c bytes with
      | .ok (i, _) => .ok i
      | .error .truncatedMatch => .ok (.decAbort .truncatedStream)
      | .error .cleanEnd => .ok .decEnd
      | .error .shortWord => .error .lostSequencer
      | .error .wideCommand => .error .lostSequencer
      | .error .badSlot => .error .lostSequencer

/-! ## Selection -/

/-- The encoder's operation or the decoder's: "the direction (encode or decode) is given by CMD" (R181). -/
def byDirection (e d : Instr) (s : State) : Except Fault Instr :=
  if s.cmd = 1 then .ok e else if s.cmd = 2 then .ok d else .error .lostSequencer

/-- At a group boundary (R120, R122). -/
def selectAtGroup (s : State) : Except Fault Instr :=
  match s.cfg.grain with
  | .micro => .ok .decCtrl
  | .element => fetchElement .group s
  | .command => fetchElement .group s

/-- At a token boundary inside a group (R120, R123). -/
def selectAtToken (s : State) : Except Fault Instr :=
  if 8 ≤ s.dBit.toNat then .error .noControlBit
  else
    match s.cfg.grain with
    | .micro =>
      if s.avail = 0 then .ok .decBit
      else if controlBit s.dCtrl s.dBit.toNat then .ok .decFetchOff else .ok .decLit
    | .element => fetchElement (.token (controlBit s.dCtrl s.dBit.toNat)) s
    | .command => fetchElement (.token (controlBit s.dCtrl s.dBit.toNat)) s

/-- The instruction that a running core runs next. -/
def selectInstr (s : State) : Except Fault Instr :=
  match s.seq with
  | .idle => .error .lostSequencer
  | .whole => byDirection .encRun .decRun s
  | .start => byDirection .encStart .decStart s
  | .select => if s.pos < s.inLen then .ok .encSelect else .ok .encEnd
  | .emit => if s.wantsMatch then .ok .encMatch else .ok .encLit
  | .push => .ok .encPush
  | .group => selectAtGroup s
  | .token => selectAtToken s
  | .fetchLen => .ok .decFetchLen
  | .fetchNxt => .ok .decFetchNxt
  | .check => .ok .decCheck
  | .copy => .ok .decCopy
  | .next => .ok .decNext

/-! ## Where the core goes next -/

/-- The sequencer moved to a place. -/
def goto (q : Seq) (s : State) : State := { s with seq := q }

/-- A token of the group is done: D_BIT + 1, "when D_BIT = 8 go to DEC.CTRL" (R123; log 17). -/
def tokenDone (s : State) : State :=
  goto (if (bitDone s).dBit.toNat = 8 then .group else .token) (bitDone s)

/-- Where the core goes after an instruction, unless the command has completed (R100, R120). -/
def advance (i : Instr) (s : State) : State :=
  if s.busy then
    match i with
    | .encStart => goto .select s
    | .encSelect => goto .emit s
    | .encLit | .encMatch => goto .push s
    | .encPush => goto .select s
    | .decStart => goto .group s
    | .ctrl _ | .decCtrl => goto .token s
    | .lit _ | .matchTok _ _ _ | .decLit | .decNext => tokenDone s
    | .decBit => goto .group s
    | .decFetchOff => goto .fetchLen s
    | .decFetchLen => goto .fetchNxt s
    | .decFetchNxt => goto .check s
    | .decCheck => goto .copy s
    | .decCopy => goto .next s
    | .encRun | .decRun | .encEnd | .decEnd | .decAbort _ => s
    | .matFind | .matRange | .matCmp | .matLen | .matSel | .encFlush => s
    | .slot _ _ _ | .run _ _ => s
    | .nop | .encode | .decode | .reserved => s
    | .hostLoad _ | .hostCmd _ | .hostPoll | .hostRead _ => s
  else s

/-! ## The host's moves -/

/-- The instruction of a host operation (R150). -/
def HostOp.instr (o : HostOp) : Instr :=
  match o with
  | .load bytes => .hostLoad bytes
  | .cmd v => .hostCmd v
  | .poll => .hostPoll
  | .read a => .hostRead a

/-! ## Placing an instruction where it is fetched next (log 24) -/

/-- The bytes of an element placed in IB at RP, with IN_LEN past them. -/
def placeBytes (bytes : List Byte) (a : Nat) (s : State) : State :=
  match bytes with
  | [] => s
  | b :: rest => placeBytes rest (a + 1) { s with ib := s.ib.write a b, inLen := max s.inLen (a + 1) }

/-- A running DECODE that stands before the element at RP. -/
def placeElement (q : Seq) (bytes : List Byte) (s : State) : State :=
  { placeBytes bytes s.rp s with
    cfg := { s.cfg with grain := .element }
    cmd := 2
    status := statusRunning
    inputs := []
    seq := q }

/-- A command word waiting to be written by the host, at a core that is not busy. -/
def placeCommand (v : BitVec 2) (s : State) : State :=
  { s with
    status := if s.busy then statusIdle else s.status
    seq := .idle
    inputs := [.op (.cmd v)] }

/-- The state in which the next step fetches the instruction that these bytes hold in this context. -/
def placeAt (c : Ctx) (bytes : List Byte) (s : State) : State :=
  match c with
  | .command => placeCommand ((bytes.headD 0).extractLsb' 0 2) s
  | .group => placeElement .group bytes s
  | .token m =>
    { placeElement .token bytes s with
      dCtrl := if m then 1 else 0
      dBit := 0 }
  | .slot => s

end Sys2Proof.Machine
end

