-- ==== Sys2Proof/Machine/Step.lean ====
section
/-! DEFINITION. One step of the machine: a move of the host or of the platform, or one step of the core. -/

namespace Sys2Proof.Machine

/-- One instruction of a running core: selected (and, in DECODE, fetched at RP), run, and the sequencer moved on. -/
def runStep (s : State) : Host.Outcome State Fault Refusal :=
  match selectInstr s with
  | .error f => .fault f
  | .ok i =>
    match exec i s with
    | .next t => .next (advance i t)
    | .fault f => .fault f
    | .refused r => .refused r

/-- The core's move: an instruction while BUSY = 1, nothing otherwise ("no command runs until the host writes one",
R190). -/
def coreStep (s : State) : Host.Outcome State Fault Refusal := if s.busy then runStep s else .next s

/-- One step: the first pending move of the host decides who moves (log 4). -/
def step (s : State) : Host.Outcome State Fault Refusal :=
  match s.inputs with
  | [] => coreStep s
  | .cede :: rest => coreStep { s with inputs := rest }
  | .untilReady :: rest => if s.busy then coreStep s else .next { s with inputs := rest }
  | .reset :: rest => .next (powerOn { s with inputs := rest })
  | .op o :: rest => exec o.instr { s with inputs := rest }

/-- `s` with the instruction of a table word placed where the next step fetches it: a command word as the host's next
move, an element of the stream, in the instance's byte order, at RP of a running DECODE (log 24). A word that decodes to
nothing changes nothing. -/
def State.withFetchWord (s : State) (nbits w : Nat) : State :=
  match decodeTableWord nbits w with
  | none => s
  | some i =>
    match encode s.cfg.order i with
    | none => s
    | some (c, bytes) => placeAt c bytes s

end Sys2Proof.Machine
end

