-- ==== Sys2Proof/Machine/Reference.lean ====
section
/-! DEFINITION. The core as three functions over byte lists: "The rules define the core twice, and the two must agree: as
three reference functions over byte lists ... and as sequences of micro-operations over the registers"
(spec/00_scope.md section 6). Nothing here mentions a register of State. -/

namespace Sys2Proof.Machine

/-! ## findBestMatch (R80, closed form) -/

/-- `kmax(i) = min(L, pos - i, N - pos)` (R83). -/
def refMaxLen (b : List Byte) (pos l i : Nat) : Nat := min l (min (pos - i) (b.length - pos))

/-- `len(i)`: the largest `k <= kmax(i)` such that `eq(i, j)` holds for every `j < k` (R83). -/
def refLen (b : List Byte) (pos l i : Nat) : Nat :=
  ((List.range (refMaxLen b pos l i)).takeWhile fun j => b[i + j]? == b[pos + j]?).length

/-- The candidates `[max(0, pos - W), pos)`, ascending (R81). -/
def refCandidates (pos w : Nat) : List Nat := List.range' (pos - w) (pos - (pos - w))

/-- The largest `len(i)` over the range, or 0 when the range is empty (R80). -/
def refBest (b : List Byte) (pos w l : Nat) : Nat :=
  ((refCandidates pos w).map (refLen b pos l)).foldl max 0

/-- `findBestMatch` (R80): `(0, 0)` when nothing matches, else the distance to the SMALLEST index of maximal length, and
that length (R84). -/
def refFind (b : List Byte) (pos w l : Nat) : Nat × Nat :=
  if refBest b pos w l = 0 then (0, 0)
  else
    match (refCandidates pos w).find? fun i => refLen b pos l i == refBest b pos w l with
    | none => (0, 0)
    | some i => (pos - i, refBest b pos w l)

/-! ## encode (R100) -/

/-- `B[pos]`; only read below the length. -/
def refByte (b : List Byte) (pos : Nat) : Byte := (b[pos]?).getD 0

/-- `B[pos+len] if pos+len < N else 0`: the next_byte of a Match (R100, R104). -/
def refNext (b : List Byte) (pos len : Nat) : Byte := if pos + len < b.length then refByte b (pos + len) else 0

/-- The token formed at a position (R100, R102). -/
def refToken (b : List Byte) (w l pos : Nat) : Slot :=
  if pos < w ∨ (refFind b pos w l).2 = 0 then ⟨0, 0, refByte b pos⟩
  else
    ⟨BitVec.ofNat 16 (refFind b pos w l).1, BitVec.ofNat 16 (refFind b pos w l).2,
      refNext b pos (refFind b pos w l).2⟩

/-- The position after the token formed at a position (R19, R100). -/
def refAdvance (b : List Byte) (w l pos : Nat) : Nat :=
  if pos < w ∨ (refFind b pos w l).2 = 0 then pos + 1 else pos + (refFind b pos w l).2 + 1

/-- The tokens from a position on. `n` bounds the passes; the length of the input is enough. -/
def refTokensFrom (n : Nat) (b : List Byte) (w l pos : Nat) : List Slot :=
  match n with
  | 0 => []
  | n + 1 =>
    if pos < b.length then refToken b w l pos :: refTokensFrom n b w l (refAdvance b w l pos) else []

/-- The tokens of an input (R100). -/
def refTokens (b : List Byte) (w l : Nat) : List Slot := refTokensFrom b.length b w l 0

/-- The final POS: `N`, or `N + 1` when the last token carries the sentinel (R19, R110). -/
def refFinalFrom (n : Nat) (b : List Byte) (w l pos : Nat) : Nat :=
  match n with
  | 0 => pos
  | n + 1 => if pos < b.length then refFinalFrom n b w l (refAdvance b w l pos) else pos

/-- The final POS of an input (R110). -/
def refFinalPos (b : List Byte) (w l : Nat) : Nat := refFinalFrom b.length b w l 0

/-- The control byte of a group as a number: bit `i` set when token `i` is a Match, the other bits 0 (R61, R62). -/
def refControl (toks : List Slot) : Nat :=
  match toks with
  | [] => 0
  | tk :: rest => (if isMatch tk then 1 else 0) + 2 * refControl rest

/-- A flag group: its control byte, then its tokens (R61). -/
def refGroup (o : Order) (toks : List Slot) : List Byte :=
  BitVec.ofNat 8 (refControl toks) :: toks.flatMap (tokenBytes o)

/-- Consecutive groups of 8, the last possibly shorter, none empty (R100). `n` bounds the number of groups. -/
def refGroups (n : Nat) (o : Order) (toks : List Slot) : List Byte :=
  match n with
  | 0 => []
  | n + 1 => if toks = [] then [] else refGroup o (toks.take 8) ++ refGroups n o (toks.drop 8)

/-- The stream of a list of tokens. -/
def refStream (o : Order) (toks : List Slot) : List Byte := refGroups toks.length o toks

/-- `encode(B)` (R100). -/
def refEncode (b : List Byte) (w l : Nat) (o : Order) : Except ErrKind (List Byte) :=
  if b = [] then .error .emptyInput else .ok (refStream o (refTokens b w l))

/-! ## decode (R120) -/

/-- `for j from 0 to len - 1: out += [out[start + j]]`, one byte at a time (R120, R129). -/
def refCopy (len start : Nat) (out : List Byte) : List Byte :=
  match len with
  | 0 => out
  | len + 1 => refCopy len (start + 1) (out ++ [(out[start]?).getD 0])

/-- A Match applied to the output (R120, R128 to R130). -/
def refReplay (off len : Half) (nb : Byte) (out : List Byte) : Except ErrKind (List Byte) :=
  if off.toNat < 1 ∨ out.length < off.toNat then .error .invalidOffset
  else .ok (refCopy len.toNat (out.length - off.toNat) out ++ [nb])

/-- The last `n` of the eight control bits of a group: what is left of the stream, and the output (R120). -/
def refTokensDecode (n : Nat) (o : Order) (ctl : Byte) (s out : List Byte) : Except ErrKind (List Byte × List Byte) :=
  match n with
  | 0 => .ok (s, out)
  | n + 1 =>
    match s with
    | [] => .ok ([], out)
    | b :: rest =>
      if controlBit ctl (7 - n) then
        match rest with
        | o1 :: l0 :: l1 :: nb :: rest' =>
          match refReplay (u16Of o b o1) (u16Of o l0 l1) nb out with
          | .ok out' => refTokensDecode n o ctl rest' out'
          | .error e => .error e
        | _ => .error .truncatedStream
      else refTokensDecode n o ctl rest (out ++ [b])

/-- The groups of a stream (R120). `n` bounds their number; one more than the bytes is enough. -/
def refDecodeFrom (n : Nat) (o : Order) (s out : List Byte) : Except ErrKind (List Byte) :=
  match n with
  | 0 => .ok out
  | n + 1 =>
    match s with
    | [] => .ok out
    | ctl :: rest =>
      match refTokensDecode 8 o ctl rest out with
      | .ok (rest', out') => refDecodeFrom n o rest' out'
      | .error e => .error e

/-- `decode(S)` (R120). -/
def refDecode (s : List Byte) (o : Order) : Except ErrKind (List Byte) := refDecodeFrom (s.length + 1) o s []

end Sys2Proof.Machine
end

