-- ==== Sys2Proof/Safety.lean ====
section
/-! DEFINITION. What a safe run is, in the terms the claims use: the invariant of the machine, what the host can see, and
what an error leaves. -/

namespace Sys2Proof.Machine

/-! ## The invariant -/

/-- A buffer's bytes that hold a value are exactly those below `n` (R16, R17, R55). -/
abbrev Memory.dense (m : Memory) (n : Nat) : Prop := m.map Prod.fst = List.range n

/-- A length fits a capacity, `none` being unbounded (R5). -/
def fitsCap (cap : Option Nat) (n : Nat) : Bool :=
  match cap with
  | none => true
  | some c => decide (n ≤ c)

/-- G_CTRL: "bit `j` is 1 exactly when slot `j` is occupied by a Match, for `j < G_CNT`; bits `G_CNT .. 7` are 0" (R23). -/
def State.controlAgrees (s : State) : Bool :=
  (List.range 8).all fun j =>
    controlBit s.gCtrl j == (decide (j < s.gCnt.toNat) && isMatch (s.gTok.toList.getD j ⟨0, 0, 0⟩))

/-- What holds between the operations of a running ENCODE (R14, R19, R22, R23). -/
abbrev State.encoderOk (s : State) : Prop :=
  s.cmd = 1 ∧ 0 < s.inLen ∧ s.pos ≤ s.inLen + 1 ∧ s.gCnt.toNat ≤ 7 ∧ s.controlAgrees = true

/-- What holds between the operations of a running DECODE (R26). -/
abbrev State.decoderOk (s : State) : Prop := s.cmd = 2 ∧ s.rp ≤ s.inLen

/-- The Matcher's result: `(0, 0)`, or a match within its bounds (R25, R87). -/
abbrev State.matcherOk (s : State) : Prop :=
  (s.mBlen = 0 ∧ s.mBoff = 0) ∨
    (1 ≤ s.mBlen.toNat ∧ s.mBlen.toNat ≤ s.mBoff.toNat ∧ s.mBoff.toNat ≤ min s.cfg.windowSize.val s.pos ∧
      s.mBlen.toNat ≤ s.cfg.lookaheadSize.val ∧ s.pos + s.mBlen.toNat ≤ s.inLen)

/-- What holds at each place of the pseudocode. -/
def State.placeOk (s : State) : Prop :=
  match s.seq with
  | .idle => True
  | .whole => s.outLen = 0
  | .start => s.outLen = 0
  | .select => s.encoderOk
  | .emit => s.encoderOk ∧ s.pos < s.inLen ∧ (s.cfg.windowSize.val ≤ s.pos → s.matcherOk)
  | .push => s.encoderOk ∧ (s.t.off = 0 → s.t.len = 0)
  | .group => s.decoderOk
  | .token => s.decoderOk ∧ s.dBit.toNat < 8
  | .fetchLen => s.decoderOk ∧ s.dBit.toNat < 8
  | .fetchNxt => s.decoderOk ∧ s.dBit.toNat < 8
  | .check => s.decoderOk ∧ s.dBit.toNat < 8
  | .copy => s.decoderOk ∧ s.dBit.toNat < 8 ∧ s.dOff ≠ 0 ∧ s.dOff.toNat ≤ s.outLen
  | .next => s.decoderOk ∧ s.dBit.toNat < 8

/-- The invariant of the machine. -/
structure Inv (s : State) : Prop where
  /-- exactly the first IN_LEN bytes of IB hold a value (R14, R16) -/
  ibDense : s.ib.dense s.inLen
  /-- exactly the first OUT_LEN bytes of OB hold a value (R15, R17) -/
  obDense : s.ob.dense s.outLen
  /-- `IN_LEN <= CAP_IN` (R14) -/
  inFits : fitsCap s.cfg.capIn s.inLen = true
  /-- OUT_LEN never passes CAP_OUT (R170) -/
  outFits : fitsCap s.cfg.capOut s.outLen = true
  /-- the four reachable values of STATUS (R12) -/
  statusLegal : s.status = statusIdle ∨ s.status = statusRunning ∨ s.status = statusSuccess ∨ s.status = statusError
  /-- "`ERR_CODE != 0` exactly when `STATUS.ERR = 1`" (R13) -/
  errCodeIffErr : s.errCode ≠ 0 ↔ s.err = true
  /-- "6 and 7 never written" (R13) -/
  errCodeLegal : s.errCode.toNat ≤ 5
  /-- the core stands somewhere in a command exactly while BUSY = 1 -/
  busyIffPlace : s.busy = true ↔ s.seq ≠ .idle
  /-- a running command is ENCODE or DECODE (R181) -/
  direction : s.busy = true → s.cmd = 1 ∨ s.cmd = 2
  /-- the place of the pseudocode -/
  place : s.placeOk

/-! ## What the host can see -/

/-- All that the host can read of a completed command (R150, R158): CMD, STATUS, ERR_CODE, IN_LEN, OUT_LEN and the bytes of
the result; and the input it loaded itself. -/
structure HostView where
  cmd : BitVec 2
  status : BitVec 3
  errCode : BitVec 3
  inLen : Nat
  outLen : Nat
  ib : Memory
  ob : Memory
  deriving DecidableEq, Repr

/-- What the host can see of a state. -/
def State.hostView (s : State) : HostView := ⟨s.cmd, s.status, s.errCode, s.inLen, s.outLen, s.ib, s.ob⟩

/-! ## What an error leaves (R172) -/

/-- `t` is `s` after `raise` of the kind numbered `code`: OUT_LEN <- 0, ERR_CODE <- code, STATUS <- 110, CMD, IB and
IN_LEN kept. Of OB and the working registers it says nothing: "unspecified after an error" (R172). -/
structure ErrorEntered (code : BitVec 3) (s t : State) : Prop where
  outLen : t.outLen = 0
  errCode : t.errCode = code
  status : t.status = 0b110#3
  cmd : t.cmd = s.cmd
  ib : t.ib = s.ib
  inLen : t.inLen = s.inLen
  cfg : t.cfg = s.cfg
  inputs : t.inputs = s.inputs
  answer : t.answer = s.answer

/-- `t` is the completion of a command with success and this output (R158). -/
structure SucceededWith (output : List Byte) (s t : State) : Prop where
  ob : t.ob = Memory.ofBytes output
  outLen : t.outLen = output.length
  errCode : t.errCode = 0
  status : t.status = 0b010#3
  cmd : t.cmd = s.cmd
  ib : t.ib = s.ib
  inLen : t.inLen = s.inLen

/-- The instruction completes the command with success and changes nothing else (R131, R158). Where the sequencer then
stands is the model's own field (log 3), of which this says nothing; that the working registers still hold their values is the
model's choice (log 27). -/
def EndsCleanly (i : Instr) (s : State) : Prop :=
  ∃ t, exec i s = .next t ∧ t = { s with status := 0b010#3, seq := t.seq }

/-! ## Steps -/

/-- What the core's step makes of an instruction's outcome: the sequencer moves on from a next state. -/
def advanced (i : Instr) (x : Host.Outcome State Fault Refusal) : Host.Outcome State Fault Refusal :=
  match x with
  | .next t => .next (advance i t)
  | .fault f => .fault f
  | .refused r => .refused r

/-- `n` steps of the machine lead from `s` to `t`. -/
def Reaches (n : Nat) (s t : State) : Prop := Host.Core.run Sys2Proof.core n s = .next t

/-- The next move is the core's or the host's, not a reset by the platform. -/
def State.notResetNext (s : State) : Prop := ∀ rest, s.inputs ≠ .reset :: rest

/-! ## Where bytes are stored -/

/-- `t` has these bytes appended to the output of `s`, and every other byte of OB reads as before (R42). -/
structure AppendedTo (bytes : List Byte) (s t : State) : Prop where
  outLen : t.outLen = s.outLen + bytes.length
  stored : ∀ j, j < bytes.length → t.ob.read (s.outLen + j) = bytes[j]?
  others : ∀ a, (a < s.outLen ∨ s.outLen + bytes.length ≤ a) → t.ob.read a = s.ob.read a

/-- An append of `n` more bytes fits CAP_OUT (R170); always, when it is unbounded. -/
def State.roomFor (s : State) (n : Nat) : Bool := fitsCap s.cfg.capOut (s.outLen + n)

end Sys2Proof.Machine
end

