-- ==== Sys2Proof/Certificates/Slice0/Obligations.lean ====
section
/-! DEFINITION. The statements about the model, each from a rule of spec/ that its docstring names. Where a byte is stored,
the address is OUT_LEN of the state before, as R42 says. -/

open Sys2Proof Sys2Proof.Machine

/-! ## Reset, the invariant, the step -/

/-- R190. The values after power-on, a reset applied in any state, and that "no command runs until the host writes one". The
queue that holds the host's moves is the model's own (log 4); the zeros of log 6 are not claimed. -/
def Obligations.ResetLeavesTheCoreIdle : Prop :=
  (State.reset.cmd = 0 ∧ State.reset.status = 0b000#3 ∧ State.reset.errCode = 0 ∧ State.reset.inLen = 0 ∧
    State.reset.outLen = 0 ∧ State.reset.inputs = []) ∧
  (∀ (s : State) (rest : List Input), s.inputs = .reset :: rest →
    ∃ t, step s = .next t ∧ t.cmd = 0 ∧ t.status = 0b000#3 ∧ t.errCode = 0 ∧ t.inLen = 0 ∧ t.outLen = 0 ∧
      (∀ a, t.readIB a = none ∧ t.readOB a = none) ∧ t.cfg = s.cfg ∧ t.inputs = rest) ∧
  (∀ s : State, s.status = 0b000#3 → s.inputs = [] → step s = .next s)

/-- The invariant holds after reset. Its choice of zeros for the working registers (log 6) is not used. -/
def Obligations.ResetMeetsTheInvariant : Prop := Inv State.reset

/-- Every step keeps the invariant: the buffers hold exactly their valid bytes, STATUS, ERR_CODE and the registers stay
within what R12 to R34 say. -/
def Obligations.StepKeepsTheInvariant : Prop :=
  ∀ s t : State, Inv s → step s = .next t → Inv t

/-- No step stops: "Every read the rules perform is inside the valid part of its buffer" (R44), and no loop runs past its
bound (R201). -/
def Obligations.InvariantStepNeverStops : Prop :=
  ∀ s : State, Inv s → ∃ t, step s = .next t

/-- The configuration "does not change while the hardware exists" (R10), in any state. -/
def Obligations.StepKeepsTheConfiguration : Prop :=
  ∀ s t : State, step s = .next t → t.cfg = s.cfg

/-- R41, in any state: while a command runs, neither the core nor the host changes IB or IN_LEN. -/
def Obligations.RunningStepKeepsTheInput : Prop :=
  ∀ s t : State, s.busy = true → s.notResetNext → step s = .next t → t.ib = s.ib ∧ t.inLen = s.inLen

/-- R42: while a command runs, a step appends bytes at OUT_LEN and leaves every other byte of OB, or it is the error entry,
which sets OUT_LEN to 0. -/
def Obligations.RunningStepOnlyAppendsOutput : Prop :=
  ∀ s t : State, Inv s → s.busy = true → s.notResetNext → step s = .next t →
    (∃ bytes, AppendedTo bytes s t) ∨ (t.outLen = 0 ∧ t.status = 0b110#3 ∧ t.errCode ≠ 0)

/-- A step runs the instruction it fetches: a host operation; the command that a written word decodes to; the element of the
stream whose bytes stand at RP; or the micro-operation the sequencer selects. Around it the step takes the operation out of
the queue, or moves the sequencer on (`advance`): into the group after a control byte, past one more control bit after a
token, "when D_BIT = 8 go to DEC.CTRL" (R123). The queue, the sequencer and the grain are the model's own (log 3, 4, 17). -/
def Obligations.StepRunsTheFetchedInstruction : Prop :=
  (∀ (s : State) (o : HostOp) (rest : List Input), s.inputs = .op o :: rest →
    step s = exec o.instr { s with inputs := rest }) ∧
  (∀ (s : State) (v : BitVec 2), exec (.hostCmd v) s = exec (decodeCommand v) s) ∧
  (∀ (s : State) (bytes rest : List Byte) (i : Instr), s.busy = true → s.inputs = [] → s.cfg.grain ≠ .micro →
    s.seq = .group → 0 < s.avail → fetchBytes 1 s.rp s = some bytes →
    decode s.cfg.order .group bytes = .ok (i, rest) → step s = advanced i (exec i s)) ∧
  (∀ (s : State) (bytes rest : List Byte) (i : Instr) (m : Bool), s.busy = true → s.inputs = [] →
    s.cfg.grain ≠ .micro → s.seq = .token → s.dBit.toNat < 8 → s.dCtrl.getLsbD s.dBit.toNat = m →
    (if m then 5 else 1) ≤ s.avail → fetchBytes (if m then 5 else 1) s.rp s = some bytes →
    decode s.cfg.order (.token m) bytes = .ok (i, rest) → step s = advanced i (exec i s)) ∧
  (∀ (s : State) (i : Instr), s.busy = true → s.inputs = [] → selectInstr s = .ok i →
    step s = advanced i (exec i s)) ∧
  (∀ s : State, s.busy = true →
    (∀ f, advance (.ctrl f) s = { s with seq := .token }) ∧
    (∀ b, s.dBit.toNat < 7 → advance (.lit b) s = { s with dBit := s.dBit + 1, seq := .token }) ∧
    (∀ b, s.dBit.toNat = 7 → advance (.lit b) s = { s with dBit := 8, seq := .group }) ∧
    (∀ off len nxt, s.dBit.toNat < 7 →
      advance (.matchTok off len nxt) s = { s with dBit := s.dBit + 1, seq := .token }) ∧
    (∀ off len nxt, s.dBit.toNat = 7 →
      advance (.matchTok off len nxt) s = { s with dBit := 8, seq := .group }))

/-- The step after `withFetchWord` runs the instruction that the table word decodes to (the model's own placing, log 16,
log 24 and log 26). -/
def Obligations.FetchWordIsRunNext : Prop :=
  ∀ (s : State) (nbits w : Nat) (i : Instr), decodeTableWord nbits w = some i →
    step (s.withFetchWord nbits w) = exec i { s.withFetchWord nbits w with inputs := [] } ∨
    step (s.withFetchWord nbits w) = advanced i (exec i (s.withFetchWord nbits w))

/-! ## Encodings -/

/-- Decoding what the encoder writes gives the instruction back, in either byte order, whatever follows it. The bytes of a
command and of a slot are the model's choice (log 26). -/
def Obligations.DecodeOfEncodeIsTheInstruction : Prop :=
  ∀ (o : Order) (i : Instr) (c : Ctx) (bytes rest : List Byte), i.wellFormed = true →
    encode o i = some (c, bytes) → decode o c (bytes ++ rest) = .ok (i, rest)

/-- Encoding what was decoded gives the bytes back: no two byte strings stand for one instruction in a context, and every
decoded instruction is well-formed. The bytes of a command and of a slot are the model's choice (log 26). -/
def Obligations.EncodeOfDecodeIsTheBytes : Prop :=
  ∀ (o : Order) (c : Ctx) (bytes rest : List Byte) (i : Instr), decode o c bytes = .ok (i, rest) →
    i.wellFormed = true ∧ ∃ read, encode o i = some (c, read) ∧ bytes = read ++ rest

/-- Words written out from the spec's encodings: CTRL 0x18 (R62), the Literal 'a' (R63), the Match of vector D6 in LE and of
vector D25 in BE (R64). The last three kinds of clause are the model's choice: the spec lays out the bits of a command (R66)
and of a slot (R65) but gives them no bytes, which are the register's, least significant first (log 26); and that five bytes of
a table word are read as a Match and not as a slot, numbered as the table numbers bits, is log 16. -/
def Obligations.SpecWordsDecode : Prop :=
  decode .le .group [0x18] = .ok (.ctrl 0x18, []) ∧
  decode .le (.token false) [0x61] = .ok (.lit 0x61, []) ∧
  decode .le (.token true) [0x01, 0x00, 0x05, 0x00, 0x42] = .ok (.matchTok 1 5 0x42, []) ∧
  decode .be (.token true) [0x00, 0x01, 0x00, 0x05, 0x42] = .ok (.matchTok 1 5 0x42, []) ∧
  decode .le .command [0x00] = .ok (.nop, []) ∧ decode .le .command [0x01] = .ok (.encode, []) ∧
  decode .le .command [0x02] = .ok (.decode, []) ∧ decode .le .command [0x03] = .ok (.reserved, []) ∧
  decode .le .slot [0x61, 0, 0, 0, 0] = .ok (.slot 0 0 0x61, []) ∧
  decodeTableWord 40 0x4200050001 = some (.matchTok 1 5 0x42)

/-- R45 and R64: the five bytes of a Match are offset, length, next_byte; with LE a field is `b0 + 256 * b1`, with BE
`256 * b0 + b1`, for both fields, in the decoder and in the encoder. -/
def Obligations.MatchFieldsHaveTheirByteOrder : Prop :=
  ∀ (o : Order) (b0 b1 b2 b3 b4 : Byte), ∃ off len : Half,
    off.toNat = (match o with | .le => b0.toNat + 256 * b1.toNat | .be => 256 * b0.toNat + b1.toNat) ∧
    len.toNat = (match o with | .le => b2.toNat + 256 * b3.toNat | .be => 256 * b2.toNat + b3.toNat) ∧
    decode o (.token true) [b0, b1, b2, b3, b4] = .ok (.matchTok off len b4, []) ∧
    tokenBytes o ⟨off, len, b4⟩ = (if off = 0 then [b4] else [b0, b1, b2, b3, b4])

/-! ## The matcher -/

/-- R81: M_LO is `max(0, pos - W)`, so that there are `min(W, pos)` candidates; nothing else is written. -/
def Obligations.RangeStartsAtTheWindow : Prop :=
  ∀ s : State, ∃ t, exec .matRange s = .next t ∧ t = { s with mLo := t.mLo } ∧
    (s.pos ≤ s.cfg.windowSize.val → t.mLo = 0) ∧
    (s.cfg.windowSize.val ≤ s.pos → t.mLo + s.cfg.windowSize.val = s.pos) ∧
    s.pos - t.mLo = min s.cfg.windowSize.val s.pos

/-- R82: MAT.CMP yields whether two bytes of IB are equal, and writes no register. What it yields is shown in the model's own
field `eqOut` (log 12); outside its conditions it is "not defined", and the model's stop there is its own (log 18). -/
def Obligations.CompareYieldsByteEquality : Prop :=
  ∀ s : State,
    (∀ x y : Byte, s.mI + s.mK.toNat < s.pos → s.pos + s.mK.toNat < s.inLen →
      s.readIB (s.mI + s.mK.toNat) = some x → s.readIB (s.pos + s.mK.toNat) = some y →
      exec .matCmp s = .next { s with eqOut := decide (x = y) }) ∧
    ((s.pos ≤ s.mI + s.mK.toNat ∨ s.inLen ≤ s.pos + s.mK.toNat) → exec .matCmp s = .fault .cmpUndefined)

/-- R83: M_K becomes the LARGEST run length under the bounds L, `pos - i` and `N - pos`: all its bytes agree, and the next
ones do not unless a bound is reached. Only M_K is written. -/
def Obligations.RunLengthIsTheLargest : Prop :=
  ∀ s : State, s.ib.dense s.inLen → s.mI < s.pos → s.pos ≤ s.inLen →
    ∃ t, exec .matLen s = .next t ∧ t = { s with mK := t.mK } ∧
      t.mK.toNat ≤ min s.cfg.lookaheadSize.val (min (s.pos - s.mI) (s.inLen - s.pos)) ∧
      (∀ j, j < t.mK.toNat → s.readIB (s.mI + j) = s.readIB (s.pos + j)) ∧
      (t.mK.toNat < min s.cfg.lookaheadSize.val (min (s.pos - s.mI) (s.inLen - s.pos)) →
        s.readIB (s.mI + t.mK.toNat) ≠ s.readIB (s.pos + t.mK.toNat))

/-- R84: the candidate just measured replaces the best only if it is strictly longer; the offset written is the distance.
That MAT.SEL runs, with an offset of which nothing is said, where the distance does not fit the field is the model's choice
(log 28). -/
def Obligations.SelectTakesOnlyTheStrictlyLonger : Prop :=
  ∀ s : State,
    (s.mK.toNat ≤ s.mBlen.toNat → exec .matSel s = .next s) ∧
    (s.mBlen.toNat < s.mK.toNat → s.mI < s.pos → s.pos ≤ s.mI + 65535 →
      ∃ t, exec .matSel s = .next t ∧ t = { s with mBlen := s.mK, mBoff := t.mBoff } ∧
        t.mBoff.toNat = s.pos - s.mI) ∧
    (s.mBlen.toNat < s.mK.toNat → s.mI + 65536 ≤ s.pos →
      ∃ t, exec .matSel s = .next t ∧ t = { s with mBlen := s.mK, mBoff := t.mBoff, freeCtr := t.freeCtr })

/-- R80: MAT.FIND leaves in (M_BOFF, M_BLEN) the pair of the closed form, and writes no register but the M_ ones. -/
def Obligations.FindReturnsTheClosedForm : Prop :=
  ∀ s : State, s.ib.dense s.inLen → s.pos ≤ s.inLen →
    ∃ t, exec .matFind s = .next t ∧
      t = { s with mLo := t.mLo, mI := t.mI, mK := t.mK, mBoff := t.mBoff, mBlen := t.mBlen } ∧
      (t.mBoff.toNat, t.mBlen.toNat) =
        refFind s.ib.bytes s.pos s.cfg.windowSize.val s.cfg.lookaheadSize.val

/-- R87: the bounds of every match found, and that its bytes agree. -/
def Obligations.FoundMatchIsWithinBounds : Prop :=
  ∀ s t : State, s.ib.dense s.inLen → s.pos ≤ s.inLen → exec .matFind s = .next t → 1 ≤ t.mBlen.toNat →
    t.mBlen.toNat ≤ t.mBoff.toNat ∧ t.mBoff.toNat ≤ min s.cfg.windowSize.val s.pos ∧
    t.mBlen.toNat ≤ s.cfg.lookaheadSize.val ∧ s.pos + t.mBlen.toNat ≤ s.inLen ∧
    ∀ j, j < t.mBlen.toNat → s.readIB (s.pos - t.mBoff.toNat + j) = s.readIB (s.pos + j)

/-- R85: nothing is found exactly when the range is empty, L is 0, POS is at the end, or no byte of the window equals the
byte at POS. -/
def Obligations.NothingFoundExactlyWithoutACandidate : Prop :=
  ∀ s t : State, s.ib.dense s.inLen → s.pos ≤ s.inLen → exec .matFind s = .next t →
    ((t.mBoff = 0 ∧ t.mBlen = 0) ↔
      (s.cfg.windowSize.val = 0 ∨ s.pos = 0 ∨ s.cfg.lookaheadSize.val = 0 ∨ s.pos = s.inLen ∨
        ∀ i, s.pos - s.cfg.windowSize.val ≤ i → i < s.pos → s.readIB i ≠ s.readIB s.pos))

/-! ## The encoder -/

/-- R101 and R166: EmptyInputError on an empty input, before anything is written; otherwise POS, G_CNT, G_CTRL and OUT_LEN
are 0 and nothing else changes but the bytes of OB, none of which is valid. -/
def Obligations.EncodeStartInitialisesOrRefusesEmpty : Prop :=
  ∀ s : State,
    (s.inLen = 0 → ∃ t, exec .encStart s = .next t ∧ ErrorEntered 1 s t) ∧
    (s.inLen ≠ 0 → ∃ t, exec .encStart s = .next t ∧
      t = { s with pos := 0, gCnt := 0, gCtrl := 0, outLen := 0, ob := t.ob } ∧ ∀ a, t.readOB a = none)

/-- R102: below W the decision is literal and MAT.FIND is not run; from W on MAT.FIND is run, and the decision is match
exactly when it found a length of 1 or more. -/
def Obligations.SelectDecidesLiteralOrMatch : Prop :=
  ∀ s : State,
    (s.pos < s.cfg.windowSize.val → exec .encSelect s = .next s ∧ s.wantsMatch = false) ∧
    (s.cfg.windowSize.val ≤ s.pos → s.ib.dense s.inLen → s.pos ≤ s.inLen →
      ∃ t, exec .encSelect s = .next t ∧ exec .matFind s = .next t ∧
        (t.wantsMatch = true ↔ 1 ≤ t.mBlen.toNat))

/-- R103: T <- (0, 0, IB[POS]); POS <- POS + 1; nothing else. -/
def Obligations.EncodeLiteralTakesOneByte : Prop :=
  ∀ (s : State) (b : Byte), s.readIB s.pos = some b →
    exec .encLit s = .next { s with t := ⟨0, 0, b⟩, pos := s.pos + 1 }

/-- R104: T <- (M_BOFF, M_BLEN, next_byte); POS <- POS + M_BLEN + 1; the next_byte is the input byte after the match, or
the sentinel 0x00 when there is none. -/
def Obligations.EncodeMatchTakesTheNextByteOrTheSentinel : Prop :=
  ∀ s : State,
    (∀ b : Byte, s.pos + s.mBlen.toNat < s.inLen → s.readIB (s.pos + s.mBlen.toNat) = some b →
      exec .encMatch s = .next { s with t := ⟨s.mBoff, s.mBlen, b⟩, pos := s.pos + s.mBlen.toNat + 1 }) ∧
    (s.inLen ≤ s.pos + s.mBlen.toNat →
      exec .encMatch s = .next { s with t := ⟨s.mBoff, s.mBlen, 0x00⟩, pos := s.pos + s.mBlen.toNat + 1 })

/-- R105, before the eighth token: slot G_CNT receives T, bit G_CNT of G_CTRL is set exactly when T is a Match (else
unchanged), the other bits and slots are unchanged, G_CNT is one more. With the eighth token the group so stored is flushed
at once. -/
def Obligations.PushStoresTheTokenAndFlushesTheEighth : Prop :=
  ∀ s : State, s.gCnt.toNat < 8 →
    ∃ g : State, g = { s with gTok := g.gTok, gCtrl := g.gCtrl, gCnt := g.gCnt } ∧
      g.gTok = s.gTok.setIfInBounds s.gCnt.toNat s.t ∧
      (∀ j, j < 8 → g.gCtrl.getLsbD j =
        (if j = s.gCnt.toNat ∧ s.t.off ≠ 0 then true else s.gCtrl.getLsbD j)) ∧
      g.gCnt.toNat = s.gCnt.toNat + 1 ∧
      (s.gCnt.toNat < 7 → exec .encPush s = .next g) ∧
      (s.gCnt.toNat = 7 → exec .encPush s = exec .encFlush g)

/-- R106: the control byte, then each token of the group in slot order, are appended; then G_CNT and G_CTRL are 0; nothing
else is written. That the slots keep their bits, which "hold no value" then, is the model's choice (log 11). -/
def Obligations.FlushAppendsTheGroup : Prop :=
  ∀ (s : State) (bytes : List Byte), 1 ≤ s.gCnt.toNat → s.gCnt.toNat ≤ 8 →
    bytes = s.gCtrl :: (s.gTok.toList.take s.gCnt.toNat).flatMap (fun sl =>
      if sl.off = 0 then [sl.byte] else u16Bytes s.cfg.order sl.off ++ u16Bytes s.cfg.order sl.len ++ [sl.byte]) →
    s.roomFor bytes.length = true →
    ∃ t, exec .encFlush s = .next t ∧ AppendedTo bytes s t ∧
      t = { s with ob := t.ob, outLen := t.outLen, gCnt := 0, gCtrl := 0 }

/-- R107: with an empty group the command completes with success; a partial group is flushed first. That its slots keep their
bits, and that the working registers hold their values after the completion, is the model's choice (log 11, log 27). -/
def Obligations.EncodeEndFlushesThePartialGroup : Prop :=
  ∀ s : State,
    (s.gCnt = 0 → EndsCleanly .encEnd s) ∧
    (∀ bytes : List Byte, 1 ≤ s.gCnt.toNat → s.gCnt.toNat ≤ 8 →
      bytes = s.gCtrl :: (s.gTok.toList.take s.gCnt.toNat).flatMap (tokenBytes s.cfg.order) →
      s.roomFor bytes.length = true →
      ∃ t, exec .encEnd s = .next t ∧ AppendedTo bytes s t ∧
        t = { s with
          ob := t.ob, outLen := t.outLen, gCnt := 0, gCtrl := 0, status := 0b010#3, seq := t.seq })

/-- R100: ENC.RUN completes with the stream of the reference function `encode` and POS at the final position, or with
EmptyInputError; with CapacityError when the stream does not fit a finite CAP_OUT (R170). IB, IN_LEN and CMD are
unchanged. -/
def Obligations.EncodeRunIsTheReferenceEncoder : Prop :=
  ∀ s : State, s.ib.dense s.inLen → s.errCode = 0 →
    match refEncode s.ib.bytes s.cfg.windowSize.val s.cfg.lookaheadSize.val s.cfg.order with
    | .ok stream =>
      (fitsCap s.cfg.capOut stream.length = true → ∃ t, exec .encRun s = .next t ∧ SucceededWith stream s t ∧
        t.pos = refFinalPos s.ib.bytes s.cfg.windowSize.val s.cfg.lookaheadSize.val) ∧
      (fitsCap s.cfg.capOut stream.length = false → ∃ t, exec .encRun s = .next t ∧ ErrorEntered 5 s t)
    | .error k => k = .emptyInput ∧ ∃ t, exec .encRun s = .next t ∧ ErrorEntered 1 s t

/-- R109: the length of the stream: `ceil(T / 8) + Lits + 5 * Matches`. -/
def Obligations.StreamLengthFormula : Prop :=
  ∀ (o : Order) (toks : List Slot),
    (refStream o toks).length =
      (toks.length + 7) / 8 + toks.countP (fun tk => decide (tk.off = 0)) +
        5 * toks.countP (fun tk => decide (tk.off ≠ 0))

/-- R112, of the tokens: every Match has `1 <= length <= offset <= min(W, start)` and `length <= L`, and the first
`min(W, N)` tokens are Literals. -/
def Obligations.EncodedTokensAreCanonical : Prop :=
  ∀ (b : List Byte) (w l : Fin 65536),
    (∀ pos, pos < b.length → (refToken b w.val l.val pos).off ≠ 0 →
      1 ≤ (refToken b w.val l.val pos).len.toNat ∧
      (refToken b w.val l.val pos).len.toNat ≤ (refToken b w.val l.val pos).off.toNat ∧
      (refToken b w.val l.val pos).off.toNat ≤ min w.val pos ∧
      (refToken b w.val l.val pos).len.toNat ≤ l.val) ∧
    (∀ j, j < min w.val b.length → (refTokens b w.val l.val)[j]? = some ⟨0, 0, refByte b j⟩)

/-- R110 and R138: decoding what was encoded gives the input, or the input and one zero byte, by the final position. -/
def Obligations.RoundTripUpToTheSentinel : Prop :=
  ∀ (b : List Byte) (w l : Fin 65536) (o : Order), b ≠ [] →
    ∃ stream, refEncode b w.val l.val o = .ok stream ∧
      (refFinalPos b w.val l.val = b.length ∨ refFinalPos b w.val l.val = b.length + 1) ∧
      (refFinalPos b w.val l.val = b.length → refDecode stream o = .ok b) ∧
      (refFinalPos b w.val l.val = b.length + 1 → refDecode stream o = .ok (b ++ [0x00]))

/-! ## The decoder -/

/-- R121: RP and OUT_LEN are 0; nothing else changes but the bytes of OB, none of which is valid. -/
def Obligations.DecodeStartInitialises : Prop :=
  ∀ s : State, ∃ t, exec .decStart s = .next t ∧ t = { s with rp := 0, outLen := 0, ob := t.ob } ∧
    ∀ a, t.readOB a = none

/-- R122, R131, R158: DEC.CTRL is the clean end when no byte is available, else the control byte is latched, RP is one more
and D_BIT is 0. The clean end, DEC.END: STATUS is 010 and the output is kept. That the working
registers hold their values after it, and that no byte is available with RP above IN_LEN, is the model's choice (log 27,
log 29). -/
def Obligations.ControlByteIsLatchedOrTheStreamEnds : Prop :=
  ∀ s : State,
    EndsCleanly .decEnd s ∧
    (s.inLen ≤ s.rp → EndsCleanly .decCtrl s) ∧
    (∀ f : Byte, s.readIB s.rp = some f →
      exec .decCtrl s = .next { s with dCtrl := f, rp := s.rp + 1, dBit := 0 })

/-- R123, R124, for a clear bit: at the end of the stream DEC.BIT leaves the group; a clear bit reads one Literal; D_BIT is then one
more. That no byte is available with RP above IN_LEN is the model's
choice (log 29). -/
def Obligations.ClearBitReadsOneLiteral : Prop :=
  ∀ s : State,
    (s.inLen ≤ s.rp → exec .decBit s = .next s) ∧
    (∀ b : Byte, s.dBit.toNat < 8 → s.dCtrl.getLsbD s.dBit.toNat = false → s.readIB s.rp = some b →
      s.roomFor 1 = true →
      ∃ t, exec .decBit s = .next t ∧ AppendedTo [b] s t ∧
        t = { s with ob := t.ob, outLen := t.outLen, rp := s.rp + 1, dBit := s.dBit + 1 })

/-- R123, R125 to R130: a set bit with five bytes available and a legal offset replays one Match: the copy is the last
`off` bytes of the output repeated cyclically (R129), then next_byte; RP is five more and D_BIT one more. -/
def Obligations.SetBitReplaysOneMatch : Prop :=
  ∀ (s : State) (off len : Half) (b0 b1 b2 b3 nb : Byte), s.ob.dense s.outLen → s.dBit.toNat < 8 →
    s.dCtrl.getLsbD s.dBit.toNat = true → fetchBytes 5 s.rp s = some [b0, b1, b2, b3, nb] →
    off = u16Of s.cfg.order b0 b1 → len = u16Of s.cfg.order b2 b3 →
    off ≠ 0 → off.toNat ≤ s.outLen → s.roomFor (len.toNat + 1) = true →
    ∃ (t : State) (copied : List Byte), exec .decBit s = .next t ∧ AppendedTo (copied ++ [nb]) s t ∧
      copied.length = len.toNat ∧
      (∀ j, j < len.toNat → copied[j]? = s.ob.read (s.outLen - off.toNat + j % off.toNat)) ∧
      t = { s with
        ob := t.ob, outLen := t.outLen, rp := s.rp + 5, dBit := s.dBit + 1, dOff := off, dLen := len, dNxt := nb,
        dSrc := t.dSrc, dRem := t.dRem }

/-- R123, R128, R167, R168, R171: a set bit with 1 to 4 bytes left is TruncatedStreamError, whatever the offset; with a
whole token whose offset is 0 or past the output, InvalidOffsetError. -/
def Obligations.SetBitWithABrokenMatchRaises : Prop :=
  ∀ s : State, s.dBit.toNat < 8 → s.dCtrl.getLsbD s.dBit.toNat = true →
    (s.ib.dense s.inLen → 1 ≤ s.inLen - s.rp → s.inLen - s.rp ≤ 4 →
      ∃ t, exec .decBit s = .next t ∧ ErrorEntered 2 s t) ∧
    (∀ b0 b1 b2 b3 nb : Byte, fetchBytes 5 s.rp s = some [b0, b1, b2, b3, nb] →
      (u16Of s.cfg.order b0 b1 = 0 ∨ s.outLen < (u16Of s.cfg.order b0 b1).toNat) →
      ∃ t, exec .decBit s = .next t ∧ ErrorEntered 3 s t)

/-- R125, R126, R127: the three fetches of a Match. Offset: no byte is the clean end, one byte is TruncatedStreamError, else
D_OFF is the field and RP is two more. Length: fewer than two bytes are TruncatedStreamError, none included; else D_LEN and
RP + 2. Next_byte: no byte is TruncatedStreamError; else D_NXT and RP + 1. That the
working registers hold their values after the clean end, and that no byte is available with RP above IN_LEN, is the model's
choice (log 27, log 29). -/
def Obligations.FetchesLatchTheirFieldsOrTruncate : Prop :=
  ∀ s : State,
    (s.inLen ≤ s.rp → EndsCleanly .decFetchOff s) ∧
    (s.inLen = s.rp + 1 → ∃ t, exec .decFetchOff s = .next t ∧ ErrorEntered 2 s t) ∧
    (∀ b0 b1 : Byte, s.readIB s.rp = some b0 → s.readIB (s.rp + 1) = some b1 →
      exec .decFetchOff s = .next { s with dOff := u16Of s.cfg.order b0 b1, rp := s.rp + 2 }) ∧
    (s.inLen ≤ s.rp + 1 → ∃ t, exec .decFetchLen s = .next t ∧ ErrorEntered 2 s t) ∧
    (∀ b0 b1 : Byte, s.readIB s.rp = some b0 → s.readIB (s.rp + 1) = some b1 →
      exec .decFetchLen s = .next { s with dLen := u16Of s.cfg.order b0 b1, rp := s.rp + 2 }) ∧
    (s.inLen ≤ s.rp → ∃ t, exec .decFetchNxt s = .next t ∧ ErrorEntered 2 s t) ∧
    (∀ b : Byte, s.readIB s.rp = some b → exec .decFetchNxt s = .next { s with dNxt := b, rp := s.rp + 1 })

/-- R128: a legal offset changes nothing, whatever D_LEN is; offset 0 or past OUT_LEN is InvalidOffsetError. -/
def Obligations.CheckPassesExactlyLegalOffsets : Prop :=
  ∀ s : State,
    (s.dOff ≠ 0 → s.dOff.toNat ≤ s.outLen → exec .decCheck s = .next s) ∧
    ((s.dOff = 0 ∨ s.outLen < s.dOff.toNat) → ∃ t, exec .decCheck s = .next t ∧ ErrorEntered 3 s t)

/-- R129: D_LEN bytes are appended, the last D_OFF bytes of the output repeated cyclically, which only a byte-serial copy
gives (R51, R193); D_SRC and D_REM end where the loop leaves them. -/
def Obligations.CopyRepeatsTheLastBytesCyclically : Prop :=
  ∀ s : State, s.ob.dense s.outLen → s.dOff ≠ 0 → s.dOff.toNat ≤ s.outLen → s.roomFor s.dLen.toNat = true →
    ∃ (t : State) (copied : List Byte), exec .decCopy s = .next t ∧ AppendedTo copied s t ∧
      copied.length = s.dLen.toNat ∧
      (∀ j, j < s.dLen.toNat → copied[j]? = s.ob.read (s.outLen - s.dOff.toNat + j % s.dOff.toNat)) ∧
      t = { s with
        ob := t.ob, outLen := t.outLen, dSrc := s.outLen - s.dOff.toNat + s.dLen.toNat, dRem := 0 }

/-- R130: D_NXT is appended; nothing else. -/
def Obligations.NextAppendsTheNextByte : Prop :=
  ∀ s : State, s.roomFor 1 = true →
    ∃ t, exec .decNext s = .next t ∧ AppendedTo [s.dNxt] s t ∧ t = { s with ob := t.ob, outLen := t.outLen }

/-- R132 and R172: the error entry, for every kind DEC raises: OUT_LEN <- 0, ERR_CODE <- the kind's number, STATUS <- 110,
and CMD, IB and IN_LEN kept. -/
def Obligations.AbortEntersTheError : Prop :=
  ∀ s : State,
    (∃ t, exec (.decAbort .truncatedStream) s = .next t ∧ ErrorEntered 2 s t) ∧
    (∃ t, exec (.decAbort .invalidOffset) s = .next t ∧ ErrorEntered 3 s t) ∧
    (∃ t, exec (.decAbort .capacity) s = .next t ∧ ErrorEntered 5 s t)

/-- R170: an append that does not fit a finite CAP_OUT is CapacityError: a Literal, a next_byte, the control byte of a
group, a copy of at least one byte. -/
def Obligations.FullOutputRaisesCapacityError : Prop :=
  ∀ (s : State) (c : Nat), s.cfg.capOut = some c → s.outLen = c →
    (∀ b, ∃ t, exec (.lit b) s = .next t ∧ ErrorEntered 5 s t) ∧
    (∃ t, exec .decNext s = .next t ∧ ErrorEntered 5 s t) ∧
    (1 ≤ s.gCnt.toNat → s.gCnt.toNat ≤ 8 → ∃ t, exec .encFlush s = .next t ∧ ErrorEntered 5 s t) ∧
    (s.ob.dense s.outLen → s.dOff ≠ 0 → s.dOff.toNat ≤ s.outLen → s.dLen ≠ 0 →
      ∃ t, exec .decCopy s = .next t ∧ ErrorEntered 5 s t)

/-- R120: DEC.RUN completes with the output of the reference function `decode`, or with its error; with CapacityError when
the output does not fit a finite CAP_OUT (R170). IB, IN_LEN and CMD are unchanged. -/
def Obligations.DecodeRunIsTheReferenceDecoder : Prop :=
  ∀ s : State, s.ib.dense s.inLen → s.errCode = 0 →
    match refDecode s.ib.bytes s.cfg.order with
    | .ok out =>
      (fitsCap s.cfg.capOut out.length = true → ∃ t, exec .decRun s = .next t ∧ SucceededWith out s t) ∧
      (fitsCap s.cfg.capOut out.length = false → ∃ t, exec .decRun s = .next t ∧ ErrorEntered 5 s t)
    | .error k => (k = .truncatedStream ∨ k = .invalidOffset) ∧
        ∃ t, exec .decRun s = .next t ∧
          (ErrorEntered (errCodeOf k) s t ∨ (s.cfg.capOut ≠ none ∧ ErrorEntered 5 s t))

/-- R136: "Control bits that describe no token are ignored": where the stream ends after the `els` of a group, each of the
size that its control bit says, two control bytes that agree on the bits of those tokens decode alike, whatever was produced
before and whatever errors the tokens hold. -/
def Obligations.UnusedControlBitsAreIgnored : Prop :=
  ∀ (o : Order) (c c' : Byte) (els : List (List Byte)) (out : List Byte) (n : Nat), els.length ≤ 8 →
    (∀ (j : Nat) (e : List Byte), els[j]? = some e →
      e.length = (if c.getLsbD j then 5 else 1) ∧ c'.getLsbD j = c.getLsbD j) →
    refDecodeFrom n o (c :: els.flatten) out = refDecodeFrom n o (c' :: els.flatten) out

/-! ## Elements of the stream -/

/-- R62, R122, R106: a control byte is read in DECODE and written in ENCODE (the direction by CMD, R181, log 13). -/
def Obligations.ControlElementIsReadOrWritten : Prop :=
  ∀ (f : Byte) (s : State),
    (s.cmd ≠ 1 → exec (.ctrl f) s = .next { s with dCtrl := f, rp := s.rp + 1, dBit := 0 }) ∧
    (s.cmd = 1 → s.roomFor 1 = true →
      ∃ t, exec (.ctrl f) s = .next t ∧ AppendedTo [f] s t ∧ t = { s with ob := t.ob, outLen := t.outLen })

/-- R63, R124, R133: a Literal, as the element that was fetched and as DEC.LIT which reads it at RP: the byte is appended,
RP is one more; nothing else. -/
def Obligations.LiteralAppendsItsByte : Prop :=
  ∀ (b : Byte) (s : State), s.roomFor 1 = true →
    ∃ t, exec (.lit b) s = .next t ∧ AppendedTo [b] s t ∧
      t = { s with ob := t.ob, outLen := t.outLen, rp := s.rp + 1 } ∧
      (s.readIB s.rp = some b → exec .decLit s = .next t)

/-- R64, R129, R130, R133: a Match with a legal offset: RP + 5 and OUT_LEN + length + 1; with an offset of 0 or past the
output, InvalidOffsetError (R70). -/
def Obligations.MatchElementReplaysOrIsInvalid : Prop :=
  ∀ (off len : Half) (nxt : Byte) (s : State),
    ((off = 0 ∨ s.outLen < off.toNat) → ∃ t, exec (.matchTok off len nxt) s = .next t ∧ ErrorEntered 3 s t) ∧
    (s.ob.dense s.outLen → off ≠ 0 → off.toNat ≤ s.outLen → s.roomFor (len.toNat + 1) = true →
      ∃ (t : State) (copied : List Byte), exec (.matchTok off len nxt) s = .next t ∧
        AppendedTo (copied ++ [nxt]) s t ∧ copied.length = len.toNat ∧
        (∀ j, j < len.toNat → copied[j]? = s.ob.read (s.outLen - off.toNat + j % off.toNat)) ∧
        t = { s with
          ob := t.ob, outLen := t.outLen, rp := s.rp + 5, dOff := off, dLen := len, dNxt := nxt, dSrc := t.dSrc,
          dRem := t.dRem })

/-- R65, R106: a token slot is written as a Literal of one byte when its offset is 0, else as a Match of five bytes. That
SLOT as an instruction is this serialisation is the model's choice (log 14). -/
def Obligations.SlotElementIsSerialised : Prop :=
  ∀ (off len : Half) (byte : Byte) (s : State) (bytes : List Byte),
    bytes = (if off = 0 then [byte] else u16Bytes s.cfg.order off ++ u16Bytes s.cfg.order len ++ [byte]) →
    s.roomFor bytes.length = true →
    ∃ t, exec (.slot off len byte) s = .next t ∧ AppendedTo bytes s t ∧
      t = { s with ob := t.ob, outLen := t.outLen }

/-- R75: RUN(b, n) gives `n` copies of the byte: "one from the Literal, `n - 2` from the overlapping copy at offset 1, one
from next_byte"; RP moves past the six bytes of the two tokens. Outside 2 to 65537 the pseudo-form stands for nothing
(log 15). -/
def Obligations.RunPseudoFormRepeatsItsByte : Prop :=
  ∀ (b : Byte) (n : Nat) (s : State),
    (s.ob.dense s.outLen → 2 ≤ n → n ≤ 65537 → s.roomFor n = true →
      ∃ t, exec (.run b n) s = .next t ∧ AppendedTo (List.replicate n b) s t ∧
        t = { s with
          ob := t.ob, outLen := t.outLen, rp := s.rp + 6, dOff := 1, dLen := BitVec.ofNat 16 (n - 2), dNxt := b,
          dSrc := t.dSrc, dRem := t.dRem }) ∧
    ((n < 2 ∨ 65537 < n) → exec (.run b n) s = .refused .illFormedRun)

/-! ## The host -/

/-- R157, R151: while BUSY = 1, LOAD, READ and every write of CMD are refused and change nothing (the answer the host gets
is the model's own field, log 5). -/
def Obligations.BusyCoreRefusesTheHost : Prop :=
  ∀ s : State, s.busy = true →
    (∀ bytes, exec (.hostLoad bytes) s = .next { s with answer := .refused }) ∧
    (∀ a, exec (.hostRead a) s = .next { s with answer := .refused }) ∧
    (∀ v, exec (.hostCmd v) s = .next { s with answer := .refused }) ∧
    exec .nop s = .next { s with answer := .refused } ∧ exec .encode s = .next { s with answer := .refused } ∧
    exec .decode s = .next { s with answer := .refused } ∧ exec .reserved s = .next { s with answer := .refused }

/-- R151: HOST.LOAD sets IB and IN_LEN and nothing else of the core; too many bytes for a finite CAP_IN are refused (the
answer the host gets is the model's own field, log 5). -/
def Obligations.LoadSetsTheInput : Prop :=
  ∀ (s : State) (bytes : List Byte), s.busy = false →
    (fitsCap s.cfg.capIn bytes.length = true →
      ∃ t, exec (.hostLoad bytes) s = .next t ∧
        t = { s with ib := t.ib, inLen := bytes.length, answer := .accepted } ∧
        ∀ a, t.readIB a = bytes[a]?) ∧
    (fitsCap s.cfg.capIn bytes.length = false → exec (.hostLoad bytes) s = .next { s with answer := .refused })

/-- R152: NOP sets CMD to 0 and nothing else of the core (the answer the host gets is the model's own field, log 5). -/
def Obligations.NopSetsOnlyTheCommandRegister : Prop :=
  ∀ s : State, s.busy = false →
    exec .nop s = .next { s with cmd := 0, answer := .accepted } ∧
    exec (.hostCmd 0) s = .next { s with cmd := 0, answer := .accepted }

/-- R153, R154, R191: ENCODE and DECODE are accepted: CMD takes the command, STATUS is 001, ERR_CODE and OUT_LEN are 0, IB
and IN_LEN are kept. Two clauses are the model's choice. POS, RP, G_CNT and G_CTRL keep their values at this step (log 7):
R191 and the tables of R19, R22, R23 and R26 give 0 for command start, which ENC.START and DEC.START set as the first operation
of the run. The core stands at the start of the run in the model's own sequencer (log 3). -/
def Obligations.CommandStartBeginsTheRun : Prop :=
  ∀ (s : State) (i : Instr) (v : BitVec 2), s.busy = false → (i = .encode ∧ v = 1 ∨ i = .decode ∧ v = 2) →
    ∃ t, exec i s = .next t ∧ exec (.hostCmd v) s = .next t ∧ t.cmd = v ∧ t.status = 0b001#3 ∧ t.errCode = 0 ∧
      t.outLen = 0 ∧ (∀ a, t.readOB a = none) ∧ t.ib = s.ib ∧ t.inLen = s.inLen ∧ t.cfg = s.cfg ∧
      t.inputs = s.inputs ∧ t.pos = s.pos ∧ t.rp = s.rp ∧ t.gCnt = s.gCnt ∧ t.gCtrl = s.gCtrl ∧
      (s.cfg.grain = .command → t.seq = .whole) ∧ (s.cfg.grain ≠ .command → t.seq = .start)

/-- R155, R169: the reserved command completes at once with BadCommand. -/
def Obligations.ReservedCommandIsBadCommand : Prop :=
  ∀ s : State, s.busy = false →
    ∃ t, exec .reserved s = .next t ∧ exec (.hostCmd 3) s = .next t ∧ t.cmd = 3 ∧ t.status = 0b110#3 ∧
      t.errCode = 4 ∧ t.outLen = 0 ∧ (∀ a, t.readOB a = none) ∧ t.ib = s.ib ∧ t.inLen = s.inLen ∧ t.cfg = s.cfg ∧
      t.inputs = s.inputs

/-- R150, R156: HOST.POLL reads CMD, STATUS, ERR_CODE, IN_LEN and OUT_LEN at any time and changes nothing (while BUSY = 1
ERR_CODE and OUT_LEN are any value, R158). HOST.READ gives the byte of a successful result, or is refused. The answer is
the model's own field (log 5, log 8). -/
def Obligations.PollAndReadGiveTheHostTheResult : Prop :=
  ∀ s : State,
    (∃ r t, exec .hostPoll s = .next t ∧ t = { s with answer := .polled r, freeCtr := t.freeCtr } ∧ r.cmd = s.cmd ∧
      r.status = s.status ∧ r.inLen = s.inLen ∧ (s.busy = false → r.errCode = s.errCode ∧ r.outLen = s.outLen)) ∧
    (∀ (a : Nat) (b : Byte), s.status = 0b010#3 → s.readOB a = some b →
      exec (.hostRead a) s = .next { s with answer := .byte b }) ∧
    (∀ a : Nat, (s.status ≠ 0b010#3 ∧ Inv s ∨ s.outLen ≤ a) →
      exec (.hostRead a) s = .next { s with answer := .refused })

/-! ## Whole commands -/

/-- R159: HOST.LOAD(X); ENCODE; wait: whatever the core did before, the result is `encode(X)`. The queue that holds the
host's moves is the model's own (log 4). -/
def Obligations.EncodeEntryPointComputesEncode : Prop :=
  ∀ (s : State) (x : List Byte), Inv s → s.busy = false → s.cfg.capIn = none → s.cfg.capOut = none →
    s.inputs = [.op (.load x), .op (.cmd 1), .untilReady] →
    ∃ n t, Reaches n s t ∧ t.busy = false ∧ t.inputs = [] ∧
      match refEncode x s.cfg.windowSize.val s.cfg.lookaheadSize.val s.cfg.order with
      | .ok stream => t.status = 0b010#3 ∧ t.errCode = 0 ∧ t.outLen = stream.length ∧
          ∀ a, t.readOB a = stream[a]?
      | .error k => t.status = 0b110#3 ∧ t.errCode = errCodeOf k ∧ t.outLen = 0

/-- R159: HOST.LOAD(X); DECODE; wait: whatever the core did before, the result is `decode(X)`. The queue that holds the
host's moves is the model's own (log 4). -/
def Obligations.DecodeEntryPointComputesDecode : Prop :=
  ∀ (s : State) (x : List Byte), Inv s → s.busy = false → s.cfg.capIn = none → s.cfg.capOut = none →
    s.inputs = [.op (.load x), .op (.cmd 2), .untilReady] →
    ∃ n t, Reaches n s t ∧ t.busy = false ∧ t.inputs = [] ∧
      match refDecode x s.cfg.order with
      | .ok out => t.status = 0b010#3 ∧ t.errCode = 0 ∧ t.outLen = out.length ∧ ∀ a, t.readOB a = out[a]?
      | .error k => t.status = 0b110#3 ∧ t.errCode = errCodeOf k ∧ t.outLen = 0

/-- R6: whatever the size of a step, the model's own parameter (log 3), a command leads to the same host-visible result. -/
def Obligations.GrainDoesNotChangeTheResult : Prop :=
  ∀ (s : State) (v : BitVec 2) (g : Grain), Inv s → s.busy = false → (v = 1 ∨ v = 2) →
    s.inputs = [.op (.cmd v), .untilReady] →
    ∃ n n' t t', Reaches n { s with cfg := { s.cfg with grain := .command } } t ∧
      Reaches n' { s with cfg := { s.cfg with grain := g } } t' ∧ t.busy = false ∧ t'.busy = false ∧
      t.inputs = [] ∧ t'.inputs = [] ∧ t.hostView = t'.hostView

/-- R201: a running command always completes by itself. -/
def Obligations.EveryCommandCompletes : Prop :=
  ∀ s : State, Inv s → s.busy = true → s.inputs = [] →
    ∃ n t, Reaches n s t ∧ t.busy = false ∧ (t.status = 0b010#3 ∨ t.status = 0b110#3)
end

