-- ==== Sys2Proof/Laws/Memory.lean ====
section
/-! SUPPORT. Laws of the byte buffers: read after write, the canonical form, buffers that hold exactly their first bytes. -/

namespace Sys2Proof.Machine

/-! ## Reading what was written -/

@[simp] theorem Memory.read_nil (a : Nat) : Memory.read [] a = none := rfl

theorem Memory.read_cons (b : Nat) (v : Byte) (m : Memory) (a : Nat) :
    Memory.read ((b, v) :: m) a = if a = b then some v else Memory.read m a := rfl

@[simp] theorem Memory.read_write_same (m : Memory) (a : Nat) (v : Byte) : (m.write a v).read a = some v := by
  induction m with
  | nil => simp [Memory.write, Memory.read]
  | cons c m ih =>
    obtain ⟨b, x⟩ := c
    simp only [Memory.write]
    split
    · simp [Memory.read]
    · split
      · simp [Memory.read]
      · rename_i h; simp [Memory.read, h, ih]

theorem Memory.read_write_other (m : Memory) {a a' : Nat} (v : Byte) (h : a' ≠ a) :
    (m.write a v).read a' = m.read a' := by
  induction m with
  | nil => simp [Memory.write, Memory.read, h]
  | cons c m ih =>
    obtain ⟨b, x⟩ := c
    simp only [Memory.write]
    split
    · simp [Memory.read, h]
    · split
      · rename_i hb; subst hb; simp [Memory.read, h]
      · simp [Memory.read, ih]

/-! ## The canonical form -/

theorem Memory.write_addrs (m : Memory) (a : Nat) (v : Byte) (b : Nat) :
    b ∈ (m.write a v).map Prod.fst ↔ b = a ∨ b ∈ m.map Prod.fst := by
  induction m with
  | nil => simp [Memory.write]
  | cons c m ih =>
    obtain ⟨d, x⟩ := c
    simp only [Memory.write]
    split
    · simp
    · split
      · rename_i hd; subst hd; simp
      · simp only [List.map_cons, List.mem_cons, ih]; tauto

/-- A write keeps the canonical form. -/
theorem Memory.write_wf {m : Memory} (h : m.wf) (a : Nat) (v : Byte) : (m.write a v).wf := by
  induction m with
  | nil => simp [Memory.write, Memory.wf]
  | cons c m ih =>
    obtain ⟨d, x⟩ := c
    simp only [Memory.wf, List.map_cons, List.pairwise_cons] at h
    simp only [Memory.write]
    split
    · rename_i had
      simp only [Memory.wf, List.map_cons, List.pairwise_cons, List.mem_cons]
      refine ⟨?_, h⟩
      rintro b (rfl | hb)
      · exact had
      · exact Nat.lt_trans had (h.1 b hb)
    · split
      · rename_i hd; subst hd; exact List.pairwise_cons.2 h
      · rename_i h1 h2
        refine List.pairwise_cons.2 ⟨fun b hb => ?_, ih h.2⟩
        rcases (Memory.write_addrs m a v b).1 hb with rfl | hb
        · change d < b; omega
        · exact h.1 b hb

theorem Memory.fromAddr_addrs (bytes : List Byte) (a : Nat) :
    (Memory.fromAddr a bytes).map Prod.fst = List.range' a bytes.length := by
  induction bytes generalizing a with
  | nil => rfl
  | cons v rest ih => simp [Memory.fromAddr, ih, List.range'_succ]

/-- A loaded buffer holds exactly its bytes. -/
theorem Memory.ofBytes_dense (bytes : List Byte) : (Memory.ofBytes bytes).dense bytes.length := by
  simp [Memory.dense, Memory.ofBytes, Memory.fromAddr_addrs, List.range_eq_range']

/-- A dense buffer is in canonical form. -/
theorem Memory.wf_of_dense {m : Memory} {n : Nat} (h : m.dense n) : m.wf := by
  simp only [Memory.wf, h]; exact List.pairwise_lt_range

/-- A loaded buffer is in canonical form. -/
theorem Memory.ofBytes_wf (bytes : List Byte) : (Memory.ofBytes bytes).wf :=
  Memory.wf_of_dense (Memory.ofBytes_dense bytes)

@[simp] theorem Memory.fromAddr_bytes (bytes : List Byte) (a : Nat) : (Memory.fromAddr a bytes).bytes = bytes := by
  induction bytes generalizing a with
  | nil => rfl
  | cons v rest ih =>
    have := ih (a + 1)
    simp only [Memory.bytes] at this
    simp [Memory.fromAddr, Memory.bytes, this]

@[simp] theorem Memory.ofBytes_bytes (bytes : List Byte) : (Memory.ofBytes bytes).bytes = bytes :=
  Memory.fromAddr_bytes bytes 0

/-! ## Buffers that hold exactly their first bytes -/

theorem Memory.dense_length {m : Memory} {n : Nat} (h : m.dense n) : m.length = n := by
  simpa using congrArg List.length h

theorem Memory.bytes_length {m : Memory} {n : Nat} (h : m.dense n) : m.bytes.length = n := by
  simp [Memory.bytes, Memory.dense_length h]

theorem Memory.eq_fromAddr {m : Memory} {a : Nat} (h : m.map Prod.fst = List.range' a m.length) :
    m = Memory.fromAddr a m.bytes := by
  induction m generalizing a with
  | nil => rfl
  | cons c m ih =>
    obtain ⟨b, x⟩ := c
    simp only [List.map_cons, List.length_cons, List.range'_succ, List.cons.injEq] at h
    obtain ⟨rfl, h⟩ := h
    simp only [Memory.bytes, List.map_cons, Memory.fromAddr]
    rw [show List.map Prod.snd m = Memory.bytes m from rfl, ← ih h]

/-- A dense buffer is the buffer of its bytes. -/
theorem Memory.eq_ofBytes {m : Memory} {n : Nat} (h : m.dense n) : m = Memory.ofBytes m.bytes := by
  refine Memory.eq_fromAddr ?_
  rw [Memory.dense_length h, ← List.range_eq_range']; exact h

theorem Memory.read_fromAddr (bytes : List Byte) (a j : Nat) :
    (Memory.fromAddr a bytes).read (a + j) = bytes[j]? := by
  induction bytes generalizing a j with
  | nil => simp [Memory.fromAddr]
  | cons v rest ih =>
    simp only [Memory.fromAddr, Memory.read_cons]
    cases j with
    | zero => simp
    | succ j =>
      have := ih (a + 1) j
      rw [show a + 1 + j = a + (j + 1) by omega] at this
      simp [this]

@[simp] theorem Memory.read_ofBytes (bytes : List Byte) (a : Nat) : (Memory.ofBytes bytes).read a = bytes[a]? := by
  simpa [Memory.ofBytes] using Memory.read_fromAddr bytes 0 a

theorem Memory.read_dense {m : Memory} {n : Nat} (h : m.dense n) (a : Nat) : m.read a = m.bytes[a]? := by
  conv_lhs => rw [Memory.eq_ofBytes h]
  simp

theorem Memory.fromAddr_append (xs ys : List Byte) (a : Nat) :
    Memory.fromAddr a (xs ++ ys) = Memory.fromAddr a xs ++ Memory.fromAddr (a + xs.length) ys := by
  induction xs generalizing a with
  | nil => rfl
  | cons v rest ih =>
    simp only [List.cons_append, Memory.fromAddr, ih, List.length_cons]
    rw [show a + 1 + rest.length = a + (rest.length + 1) by omega]

theorem Memory.write_fromAddr_end (bytes : List Byte) (a : Nat) (v : Byte) :
    (Memory.fromAddr a bytes).write (a + bytes.length) v = Memory.fromAddr a (bytes ++ [v]) := by
  induction bytes generalizing a with
  | nil => simp [Memory.fromAddr, Memory.write]
  | cons x rest ih =>
    have := ih (a + 1)
    rw [show a + 1 + rest.length = a + (rest.length + 1) by omega] at this
    simp [Memory.fromAddr, Memory.write, this]

/-- Writing at the end of a buffer appends the byte. -/
theorem Memory.write_ofBytes_end (bytes : List Byte) (v : Byte) :
    (Memory.ofBytes bytes).write bytes.length v = Memory.ofBytes (bytes ++ [v]) := by
  simpa [Memory.ofBytes] using Memory.write_fromAddr_end bytes 0 v

theorem Memory.dense_write {m : Memory} {n : Nat} (h : m.dense n) (v : Byte) : (m.write n v).dense (n + 1) := by
  have e := Memory.eq_ofBytes h
  have l := Memory.bytes_length h
  have w := Memory.write_ofBytes_end m.bytes v
  rw [l, ← e] at w
  rw [w]
  simpa [l] using Memory.ofBytes_dense (m.bytes ++ [v])

theorem Memory.bytes_write {m : Memory} {n : Nat} (h : m.dense n) (v : Byte) : (m.write n v).bytes = m.bytes ++ [v] := by
  have e := Memory.eq_ofBytes h
  have l := Memory.bytes_length h
  have w := Memory.write_ofBytes_end m.bytes v
  rw [l, ← e] at w
  simp [w]

/-- Reset's memory is in canonical form. -/
theorem reset_memory_wf : State.reset.ib.wf ∧ State.reset.ob.wf := by decide

end Sys2Proof.Machine
end

