-- ==== Sys2Proof/Laws/State.lean ====
section
/-! SUPPORT. The fields of every named update of State, each true by rfl, as simp lemmas: no later proof unfolds a record
update. -/

namespace Sys2Proof.Machine

/-- BUSY in the four values of STATUS (R12). -/
theorem status_bits_busy :
    statusIdle.getLsbD 0 = false ∧ statusRunning.getLsbD 0 = true ∧ statusSuccess.getLsbD 0 = false ∧
      statusError.getLsbD 0 = false := by decide

/-- The byte appended at OUT_LEN. -/
@[simp] theorem appended_fields (v : Byte) (s : State) :
    (appended v s).cfg = s.cfg ∧ (appended v s).cmd = s.cmd ∧ (appended v s).status = s.status ∧
    (appended v s).errCode = s.errCode ∧ (appended v s).inLen = s.inLen ∧ (appended v s).outLen = s.outLen + 1 ∧
    (appended v s).ib = s.ib ∧ (appended v s).ob = s.ob.write s.outLen v ∧ (appended v s).pos = s.pos ∧
    (appended v s).t = s.t ∧ (appended v s).gTok = s.gTok ∧ (appended v s).gCnt = s.gCnt ∧
    (appended v s).gCtrl = s.gCtrl ∧ (appended v s).mLo = s.mLo ∧ (appended v s).mI = s.mI ∧
    (appended v s).mK = s.mK ∧ (appended v s).mBoff = s.mBoff ∧ (appended v s).mBlen = s.mBlen ∧
    (appended v s).rp = s.rp ∧ (appended v s).dCtrl = s.dCtrl ∧ (appended v s).dBit = s.dBit ∧
    (appended v s).dOff = s.dOff ∧ (appended v s).dLen = s.dLen ∧ (appended v s).dNxt = s.dNxt ∧
    (appended v s).dSrc = s.dSrc ∧ (appended v s).dRem = s.dRem ∧ (appended v s).seq = s.seq ∧
    (appended v s).inputs = s.inputs ∧ (appended v s).answer = s.answer ∧ (appended v s).eqOut = s.eqOut ∧
    (appended v s).freeCtr = s.freeCtr ∧ (appended v s).busy = s.busy := by
  and_intros <;> rfl

/-- OUT_LEN cleared. -/
@[simp] theorem clearOutput_fields (s : State) :
    (clearOutput s).cfg = s.cfg ∧ (clearOutput s).cmd = s.cmd ∧ (clearOutput s).status = s.status ∧
    (clearOutput s).errCode = s.errCode ∧ (clearOutput s).inLen = s.inLen ∧ (clearOutput s).outLen = 0 ∧
    (clearOutput s).ib = s.ib ∧ (clearOutput s).ob = [] ∧ (clearOutput s).pos = s.pos ∧ (clearOutput s).t = s.t ∧
    (clearOutput s).gTok = s.gTok ∧ (clearOutput s).gCnt = s.gCnt ∧ (clearOutput s).gCtrl = s.gCtrl ∧
    (clearOutput s).mLo = s.mLo ∧ (clearOutput s).mI = s.mI ∧ (clearOutput s).mK = s.mK ∧
    (clearOutput s).mBoff = s.mBoff ∧ (clearOutput s).mBlen = s.mBlen ∧ (clearOutput s).rp = s.rp ∧
    (clearOutput s).dCtrl = s.dCtrl ∧ (clearOutput s).dBit = s.dBit ∧ (clearOutput s).dOff = s.dOff ∧
    (clearOutput s).dLen = s.dLen ∧ (clearOutput s).dNxt = s.dNxt ∧ (clearOutput s).dSrc = s.dSrc ∧
    (clearOutput s).dRem = s.dRem ∧ (clearOutput s).seq = s.seq ∧ (clearOutput s).inputs = s.inputs ∧
    (clearOutput s).answer = s.answer ∧ (clearOutput s).eqOut = s.eqOut ∧ (clearOutput s).freeCtr = s.freeCtr ∧
    (clearOutput s).busy = s.busy := by
  and_intros <;> rfl

/-- Free values in the registers that a command start leaves unspecified; of those registers nothing is said. -/
@[simp] theorem freeScratch_fields (s : State) :
    (freeScratch s).cfg = s.cfg ∧ (freeScratch s).cmd = s.cmd ∧ (freeScratch s).status = s.status ∧
    (freeScratch s).errCode = s.errCode ∧ (freeScratch s).inLen = s.inLen ∧ (freeScratch s).outLen = s.outLen ∧
    (freeScratch s).ib = s.ib ∧ (freeScratch s).ob = s.ob ∧ (freeScratch s).pos = s.pos ∧
    (freeScratch s).gCnt = s.gCnt ∧ (freeScratch s).gCtrl = s.gCtrl ∧ (freeScratch s).rp = s.rp ∧
    (freeScratch s).seq = s.seq ∧ (freeScratch s).inputs = s.inputs ∧ (freeScratch s).answer = s.answer ∧
    (freeScratch s).eqOut = s.eqOut ∧ (freeScratch s).freeCtr = s.freeCtr + 1 ∧ (freeScratch s).busy = s.busy := by
  and_intros <;> rfl

/-- Free values in every working register; of those registers nothing is said. -/
@[simp] theorem freeWorking_fields (s : State) :
    (freeWorking s).cfg = s.cfg ∧ (freeWorking s).cmd = s.cmd ∧ (freeWorking s).status = s.status ∧
    (freeWorking s).errCode = s.errCode ∧ (freeWorking s).inLen = s.inLen ∧ (freeWorking s).outLen = s.outLen ∧
    (freeWorking s).ib = s.ib ∧ (freeWorking s).ob = s.ob ∧ (freeWorking s).seq = s.seq ∧
    (freeWorking s).inputs = s.inputs ∧ (freeWorking s).answer = s.answer ∧ (freeWorking s).eqOut = s.eqOut ∧
    (freeWorking s).freeCtr = s.freeCtr + 1 ∧ (freeWorking s).busy = s.busy := by
  and_intros <;> rfl

/-- The error entry; of the working registers nothing is said. -/
@[simp] theorem errorEntry_fields (k : ErrKind) (s : State) :
    (errorEntry k s).cfg = s.cfg ∧ (errorEntry k s).cmd = s.cmd ∧ (errorEntry k s).status = statusError ∧
    (errorEntry k s).errCode = errCodeOf k ∧ (errorEntry k s).inLen = s.inLen ∧ (errorEntry k s).outLen = 0 ∧
    (errorEntry k s).ib = s.ib ∧ (errorEntry k s).ob = [] ∧ (errorEntry k s).seq = .idle ∧
    (errorEntry k s).inputs = s.inputs ∧ (errorEntry k s).answer = s.answer ∧ (errorEntry k s).eqOut = s.eqOut ∧
    (errorEntry k s).freeCtr = s.freeCtr + 1 ∧ (errorEntry k s).busy = false := by
  and_intros <;> first | rfl | exact status_bits_busy.2.2.2

/-- Completion with success. -/
@[simp] theorem complete_fields (s : State) :
    (complete s).cfg = s.cfg ∧ (complete s).cmd = s.cmd ∧ (complete s).status = statusSuccess ∧
    (complete s).errCode = s.errCode ∧ (complete s).inLen = s.inLen ∧ (complete s).outLen = s.outLen ∧
    (complete s).ib = s.ib ∧ (complete s).ob = s.ob ∧ (complete s).pos = s.pos ∧ (complete s).t = s.t ∧
    (complete s).gTok = s.gTok ∧ (complete s).gCnt = s.gCnt ∧ (complete s).gCtrl = s.gCtrl ∧
    (complete s).mLo = s.mLo ∧ (complete s).mI = s.mI ∧ (complete s).mK = s.mK ∧ (complete s).mBoff = s.mBoff ∧
    (complete s).mBlen = s.mBlen ∧ (complete s).rp = s.rp ∧ (complete s).dCtrl = s.dCtrl ∧
    (complete s).dBit = s.dBit ∧ (complete s).dOff = s.dOff ∧ (complete s).dLen = s.dLen ∧
    (complete s).dNxt = s.dNxt ∧ (complete s).dSrc = s.dSrc ∧ (complete s).dRem = s.dRem ∧ (complete s).seq = .idle ∧
    (complete s).inputs = s.inputs ∧ (complete s).answer = s.answer ∧ (complete s).eqOut = s.eqOut ∧
    (complete s).freeCtr = s.freeCtr ∧ (complete s).busy = false := by
  and_intros <;> first | rfl | exact status_bits_busy.2.2.1

/-- Command start; of the registers it leaves unspecified nothing is said. -/
@[simp] theorem commandStart_fields (c : BitVec 2) (s : State) :
    (commandStart c s).cfg = s.cfg ∧ (commandStart c s).cmd = c ∧ (commandStart c s).status = statusRunning ∧
    (commandStart c s).errCode = 0 ∧ (commandStart c s).inLen = s.inLen ∧ (commandStart c s).outLen = 0 ∧
    (commandStart c s).ib = s.ib ∧ (commandStart c s).ob = [] ∧ (commandStart c s).pos = s.pos ∧
    (commandStart c s).gCnt = s.gCnt ∧ (commandStart c s).gCtrl = s.gCtrl ∧ (commandStart c s).rp = s.rp ∧
    (commandStart c s).seq = firstSeq s.cfg.grain ∧ (commandStart c s).inputs = s.inputs ∧
    (commandStart c s).answer = s.answer ∧ (commandStart c s).eqOut = s.eqOut ∧
    (commandStart c s).freeCtr = s.freeCtr + 1 ∧ (commandStart c s).busy = true := by
  and_intros <;> first | rfl | exact status_bits_busy.2.1

/-- Reset; of the working registers nothing is said. -/
@[simp] theorem powerOn_fields (s : State) :
    (powerOn s).cfg = s.cfg ∧ (powerOn s).cmd = 0 ∧ (powerOn s).status = statusIdle ∧ (powerOn s).errCode = 0 ∧
    (powerOn s).inLen = 0 ∧ (powerOn s).outLen = 0 ∧ (powerOn s).ib = [] ∧ (powerOn s).ob = [] ∧
    (powerOn s).seq = .idle ∧ (powerOn s).inputs = s.inputs ∧ (powerOn s).answer = s.answer ∧
    (powerOn s).eqOut = s.eqOut ∧ (powerOn s).freeCtr = s.freeCtr + 1 ∧ (powerOn s).busy = false := by
  and_intros <;> first | rfl | exact status_bits_busy.1

/-- The control byte read. -/
@[simp] theorem controlRead_fields (f : Byte) (s : State) :
    (controlRead f s).cfg = s.cfg ∧ (controlRead f s).cmd = s.cmd ∧ (controlRead f s).status = s.status ∧
    (controlRead f s).errCode = s.errCode ∧ (controlRead f s).inLen = s.inLen ∧ (controlRead f s).outLen = s.outLen ∧
    (controlRead f s).ib = s.ib ∧ (controlRead f s).ob = s.ob ∧ (controlRead f s).pos = s.pos ∧
    (controlRead f s).t = s.t ∧ (controlRead f s).gTok = s.gTok ∧ (controlRead f s).gCnt = s.gCnt ∧
    (controlRead f s).gCtrl = s.gCtrl ∧ (controlRead f s).mLo = s.mLo ∧ (controlRead f s).mI = s.mI ∧
    (controlRead f s).mK = s.mK ∧ (controlRead f s).mBoff = s.mBoff ∧ (controlRead f s).mBlen = s.mBlen ∧
    (controlRead f s).rp = s.rp + 1 ∧ (controlRead f s).dCtrl = f ∧ (controlRead f s).dBit = 0 ∧
    (controlRead f s).dOff = s.dOff ∧ (controlRead f s).dLen = s.dLen ∧ (controlRead f s).dNxt = s.dNxt ∧
    (controlRead f s).dSrc = s.dSrc ∧ (controlRead f s).dRem = s.dRem ∧ (controlRead f s).seq = s.seq ∧
    (controlRead f s).inputs = s.inputs ∧ (controlRead f s).answer = s.answer ∧ (controlRead f s).eqOut = s.eqOut ∧
    (controlRead f s).freeCtr = s.freeCtr ∧ (controlRead f s).busy = s.busy := by
  and_intros <;> rfl

/-- The offset latched. -/
@[simp] theorem offsetRead_fields (v : Half) (s : State) :
    (offsetRead v s).cfg = s.cfg ∧ (offsetRead v s).cmd = s.cmd ∧ (offsetRead v s).status = s.status ∧
    (offsetRead v s).errCode = s.errCode ∧ (offsetRead v s).inLen = s.inLen ∧ (offsetRead v s).outLen = s.outLen ∧
    (offsetRead v s).ib = s.ib ∧ (offsetRead v s).ob = s.ob ∧ (offsetRead v s).pos = s.pos ∧
    (offsetRead v s).t = s.t ∧ (offsetRead v s).gTok = s.gTok ∧ (offsetRead v s).gCnt = s.gCnt ∧
    (offsetRead v s).gCtrl = s.gCtrl ∧ (offsetRead v s).mLo = s.mLo ∧ (offsetRead v s).mI = s.mI ∧
    (offsetRead v s).mK = s.mK ∧ (offsetRead v s).mBoff = s.mBoff ∧ (offsetRead v s).mBlen = s.mBlen ∧
    (offsetRead v s).rp = s.rp + 2 ∧ (offsetRead v s).dCtrl = s.dCtrl ∧ (offsetRead v s).dBit = s.dBit ∧
    (offsetRead v s).dOff = v ∧ (offsetRead v s).dLen = s.dLen ∧ (offsetRead v s).dNxt = s.dNxt ∧
    (offsetRead v s).dSrc = s.dSrc ∧ (offsetRead v s).dRem = s.dRem ∧ (offsetRead v s).seq = s.seq ∧
    (offsetRead v s).inputs = s.inputs ∧ (offsetRead v s).answer = s.answer ∧ (offsetRead v s).eqOut = s.eqOut ∧
    (offsetRead v s).freeCtr = s.freeCtr ∧ (offsetRead v s).busy = s.busy := by
  and_intros <;> rfl

/-- The length latched. -/
@[simp] theorem lengthRead_fields (v : Half) (s : State) :
    (lengthRead v s).cfg = s.cfg ∧ (lengthRead v s).cmd = s.cmd ∧ (lengthRead v s).status = s.status ∧
    (lengthRead v s).errCode = s.errCode ∧ (lengthRead v s).inLen = s.inLen ∧ (lengthRead v s).outLen = s.outLen ∧
    (lengthRead v s).ib = s.ib ∧ (lengthRead v s).ob = s.ob ∧ (lengthRead v s).pos = s.pos ∧
    (lengthRead v s).t = s.t ∧ (lengthRead v s).gTok = s.gTok ∧ (lengthRead v s).gCnt = s.gCnt ∧
    (lengthRead v s).gCtrl = s.gCtrl ∧ (lengthRead v s).mLo = s.mLo ∧ (lengthRead v s).mI = s.mI ∧
    (lengthRead v s).mK = s.mK ∧ (lengthRead v s).mBoff = s.mBoff ∧ (lengthRead v s).mBlen = s.mBlen ∧
    (lengthRead v s).rp = s.rp + 2 ∧ (lengthRead v s).dCtrl = s.dCtrl ∧ (lengthRead v s).dBit = s.dBit ∧
    (lengthRead v s).dOff = s.dOff ∧ (lengthRead v s).dLen = v ∧ (lengthRead v s).dNxt = s.dNxt ∧
    (lengthRead v s).dSrc = s.dSrc ∧ (lengthRead v s).dRem = s.dRem ∧ (lengthRead v s).seq = s.seq ∧
    (lengthRead v s).inputs = s.inputs ∧ (lengthRead v s).answer = s.answer ∧ (lengthRead v s).eqOut = s.eqOut ∧
    (lengthRead v s).freeCtr = s.freeCtr ∧ (lengthRead v s).busy = s.busy := by
  and_intros <;> rfl

/-- The next_byte latched. -/
@[simp] theorem nextRead_fields (b : Byte) (s : State) :
    (nextRead b s).cfg = s.cfg ∧ (nextRead b s).cmd = s.cmd ∧ (nextRead b s).status = s.status ∧
    (nextRead b s).errCode = s.errCode ∧ (nextRead b s).inLen = s.inLen ∧ (nextRead b s).outLen = s.outLen ∧
    (nextRead b s).ib = s.ib ∧ (nextRead b s).ob = s.ob ∧ (nextRead b s).pos = s.pos ∧ (nextRead b s).t = s.t ∧
    (nextRead b s).gTok = s.gTok ∧ (nextRead b s).gCnt = s.gCnt ∧ (nextRead b s).gCtrl = s.gCtrl ∧
    (nextRead b s).mLo = s.mLo ∧ (nextRead b s).mI = s.mI ∧ (nextRead b s).mK = s.mK ∧
    (nextRead b s).mBoff = s.mBoff ∧ (nextRead b s).mBlen = s.mBlen ∧ (nextRead b s).rp = s.rp + 1 ∧
    (nextRead b s).dCtrl = s.dCtrl ∧ (nextRead b s).dBit = s.dBit ∧ (nextRead b s).dOff = s.dOff ∧
    (nextRead b s).dLen = s.dLen ∧ (nextRead b s).dNxt = b ∧ (nextRead b s).dSrc = s.dSrc ∧
    (nextRead b s).dRem = s.dRem ∧ (nextRead b s).seq = s.seq ∧ (nextRead b s).inputs = s.inputs ∧
    (nextRead b s).answer = s.answer ∧ (nextRead b s).eqOut = s.eqOut ∧ (nextRead b s).freeCtr = s.freeCtr ∧
    (nextRead b s).busy = s.busy := by
  and_intros <;> rfl

/-- The control bit done. -/
@[simp] theorem bitDone_fields (s : State) :
    (bitDone s).cfg = s.cfg ∧ (bitDone s).cmd = s.cmd ∧ (bitDone s).status = s.status ∧
    (bitDone s).errCode = s.errCode ∧ (bitDone s).inLen = s.inLen ∧ (bitDone s).outLen = s.outLen ∧
    (bitDone s).ib = s.ib ∧ (bitDone s).ob = s.ob ∧ (bitDone s).pos = s.pos ∧ (bitDone s).t = s.t ∧
    (bitDone s).gTok = s.gTok ∧ (bitDone s).gCnt = s.gCnt ∧ (bitDone s).gCtrl = s.gCtrl ∧ (bitDone s).mLo = s.mLo ∧
    (bitDone s).mI = s.mI ∧ (bitDone s).mK = s.mK ∧ (bitDone s).mBoff = s.mBoff ∧ (bitDone s).mBlen = s.mBlen ∧
    (bitDone s).rp = s.rp ∧ (bitDone s).dCtrl = s.dCtrl ∧ (bitDone s).dBit = s.dBit + 1 ∧ (bitDone s).dOff = s.dOff ∧
    (bitDone s).dLen = s.dLen ∧ (bitDone s).dNxt = s.dNxt ∧ (bitDone s).dSrc = s.dSrc ∧ (bitDone s).dRem = s.dRem ∧
    (bitDone s).seq = s.seq ∧ (bitDone s).inputs = s.inputs ∧ (bitDone s).answer = s.answer ∧
    (bitDone s).eqOut = s.eqOut ∧ (bitDone s).freeCtr = s.freeCtr ∧ (bitDone s).busy = s.busy := by
  and_intros <;> rfl

/-- The group written out. -/
@[simp] theorem groupEmptied_fields (s : State) :
    (groupEmptied s).cfg = s.cfg ∧ (groupEmptied s).cmd = s.cmd ∧ (groupEmptied s).status = s.status ∧
    (groupEmptied s).errCode = s.errCode ∧ (groupEmptied s).inLen = s.inLen ∧ (groupEmptied s).outLen = s.outLen ∧
    (groupEmptied s).ib = s.ib ∧ (groupEmptied s).ob = s.ob ∧ (groupEmptied s).pos = s.pos ∧
    (groupEmptied s).t = s.t ∧ (groupEmptied s).gTok = s.gTok ∧ (groupEmptied s).gCnt = 0 ∧
    (groupEmptied s).gCtrl = 0 ∧ (groupEmptied s).mLo = s.mLo ∧ (groupEmptied s).mI = s.mI ∧
    (groupEmptied s).mK = s.mK ∧ (groupEmptied s).mBoff = s.mBoff ∧ (groupEmptied s).mBlen = s.mBlen ∧
    (groupEmptied s).rp = s.rp ∧ (groupEmptied s).dCtrl = s.dCtrl ∧ (groupEmptied s).dBit = s.dBit ∧
    (groupEmptied s).dOff = s.dOff ∧ (groupEmptied s).dLen = s.dLen ∧ (groupEmptied s).dNxt = s.dNxt ∧
    (groupEmptied s).dSrc = s.dSrc ∧ (groupEmptied s).dRem = s.dRem ∧ (groupEmptied s).seq = s.seq ∧
    (groupEmptied s).inputs = s.inputs ∧ (groupEmptied s).answer = s.answer ∧ (groupEmptied s).eqOut = s.eqOut ∧
    (groupEmptied s).freeCtr = s.freeCtr ∧ (groupEmptied s).busy = s.busy := by
  and_intros <;> rfl

/-- The token stored in the group. -/
@[simp] theorem stored_fields (s : State) :
    (stored s).cfg = s.cfg ∧ (stored s).cmd = s.cmd ∧ (stored s).status = s.status ∧ (stored s).errCode = s.errCode ∧
    (stored s).inLen = s.inLen ∧ (stored s).outLen = s.outLen ∧ (stored s).ib = s.ib ∧ (stored s).ob = s.ob ∧
    (stored s).pos = s.pos ∧ (stored s).t = s.t ∧ (stored s).gTok = s.gTok.setIfInBounds s.gCnt.toNat s.t ∧
    (stored s).gCnt = s.gCnt + 1 ∧
    (stored s).gCtrl = (if isMatch s.t then setControlBit s.gCtrl s.gCnt.toNat else s.gCtrl) ∧
    (stored s).mLo = s.mLo ∧ (stored s).mI = s.mI ∧ (stored s).mK = s.mK ∧ (stored s).mBoff = s.mBoff ∧
    (stored s).mBlen = s.mBlen ∧ (stored s).rp = s.rp ∧ (stored s).dCtrl = s.dCtrl ∧ (stored s).dBit = s.dBit ∧
    (stored s).dOff = s.dOff ∧ (stored s).dLen = s.dLen ∧ (stored s).dNxt = s.dNxt ∧ (stored s).dSrc = s.dSrc ∧
    (stored s).dRem = s.dRem ∧ (stored s).seq = s.seq ∧ (stored s).inputs = s.inputs ∧ (stored s).answer = s.answer ∧
    (stored s).eqOut = s.eqOut ∧ (stored s).freeCtr = s.freeCtr ∧ (stored s).busy = s.busy := by
  and_intros <;> rfl

/-- The sequencer moved. -/
@[simp] theorem goto_fields (q : Seq) (s : State) :
    (goto q s).cfg = s.cfg ∧ (goto q s).cmd = s.cmd ∧ (goto q s).status = s.status ∧ (goto q s).errCode = s.errCode ∧
    (goto q s).inLen = s.inLen ∧ (goto q s).outLen = s.outLen ∧ (goto q s).ib = s.ib ∧ (goto q s).ob = s.ob ∧
    (goto q s).pos = s.pos ∧ (goto q s).t = s.t ∧ (goto q s).gTok = s.gTok ∧ (goto q s).gCnt = s.gCnt ∧
    (goto q s).gCtrl = s.gCtrl ∧ (goto q s).mLo = s.mLo ∧ (goto q s).mI = s.mI ∧ (goto q s).mK = s.mK ∧
    (goto q s).mBoff = s.mBoff ∧ (goto q s).mBlen = s.mBlen ∧ (goto q s).rp = s.rp ∧ (goto q s).dCtrl = s.dCtrl ∧
    (goto q s).dBit = s.dBit ∧ (goto q s).dOff = s.dOff ∧ (goto q s).dLen = s.dLen ∧ (goto q s).dNxt = s.dNxt ∧
    (goto q s).dSrc = s.dSrc ∧ (goto q s).dRem = s.dRem ∧ (goto q s).seq = q ∧ (goto q s).inputs = s.inputs ∧
    (goto q s).answer = s.answer ∧ (goto q s).eqOut = s.eqOut ∧ (goto q s).freeCtr = s.freeCtr ∧
    (goto q s).busy = s.busy := by
  and_intros <;> rfl

/-- A token of the group done. -/
@[simp] theorem tokenDone_fields (s : State) :
    (tokenDone s).cfg = s.cfg ∧ (tokenDone s).cmd = s.cmd ∧ (tokenDone s).status = s.status ∧
    (tokenDone s).errCode = s.errCode ∧ (tokenDone s).inLen = s.inLen ∧ (tokenDone s).outLen = s.outLen ∧
    (tokenDone s).ib = s.ib ∧ (tokenDone s).ob = s.ob ∧ (tokenDone s).pos = s.pos ∧ (tokenDone s).t = s.t ∧
    (tokenDone s).gTok = s.gTok ∧ (tokenDone s).gCnt = s.gCnt ∧ (tokenDone s).gCtrl = s.gCtrl ∧
    (tokenDone s).mLo = s.mLo ∧ (tokenDone s).mI = s.mI ∧ (tokenDone s).mK = s.mK ∧ (tokenDone s).mBoff = s.mBoff ∧
    (tokenDone s).mBlen = s.mBlen ∧ (tokenDone s).rp = s.rp ∧ (tokenDone s).dCtrl = s.dCtrl ∧
    (tokenDone s).dBit = s.dBit + 1 ∧ (tokenDone s).dOff = s.dOff ∧ (tokenDone s).dLen = s.dLen ∧
    (tokenDone s).dNxt = s.dNxt ∧ (tokenDone s).dSrc = s.dSrc ∧ (tokenDone s).dRem = s.dRem ∧
    (tokenDone s).seq = (if (s.dBit + 1).toNat = 8 then .group else .token) ∧ (tokenDone s).inputs = s.inputs ∧
    (tokenDone s).answer = s.answer ∧ (tokenDone s).eqOut = s.eqOut ∧ (tokenDone s).freeCtr = s.freeCtr ∧
    (tokenDone s).busy = s.busy := by
  and_intros <;> rfl

/-- The input loaded. -/
@[simp] theorem loaded_fields (bytes : List Byte) (s : State) :
    (loaded bytes s).cfg = s.cfg ∧ (loaded bytes s).cmd = s.cmd ∧ (loaded bytes s).status = s.status ∧
    (loaded bytes s).errCode = s.errCode ∧ (loaded bytes s).inLen = bytes.length ∧
    (loaded bytes s).outLen = s.outLen ∧ (loaded bytes s).ib = Memory.ofBytes bytes ∧ (loaded bytes s).ob = s.ob ∧
    (loaded bytes s).pos = s.pos ∧ (loaded bytes s).t = s.t ∧ (loaded bytes s).gTok = s.gTok ∧
    (loaded bytes s).gCnt = s.gCnt ∧ (loaded bytes s).gCtrl = s.gCtrl ∧ (loaded bytes s).mLo = s.mLo ∧
    (loaded bytes s).mI = s.mI ∧ (loaded bytes s).mK = s.mK ∧ (loaded bytes s).mBoff = s.mBoff ∧
    (loaded bytes s).mBlen = s.mBlen ∧ (loaded bytes s).rp = s.rp ∧ (loaded bytes s).dCtrl = s.dCtrl ∧
    (loaded bytes s).dBit = s.dBit ∧ (loaded bytes s).dOff = s.dOff ∧ (loaded bytes s).dLen = s.dLen ∧
    (loaded bytes s).dNxt = s.dNxt ∧ (loaded bytes s).dSrc = s.dSrc ∧ (loaded bytes s).dRem = s.dRem ∧
    (loaded bytes s).seq = s.seq ∧ (loaded bytes s).inputs = s.inputs ∧ (loaded bytes s).answer = s.answer ∧
    (loaded bytes s).eqOut = s.eqOut ∧ (loaded bytes s).freeCtr = s.freeCtr ∧ (loaded bytes s).busy = s.busy := by
  and_intros <;> rfl

/-- NOP done. -/
@[simp] theorem nopDone_fields (s : State) :
    (nopDone s).cfg = s.cfg ∧ (nopDone s).cmd = 0 ∧ (nopDone s).status = s.status ∧ (nopDone s).errCode = s.errCode ∧
    (nopDone s).inLen = s.inLen ∧ (nopDone s).outLen = s.outLen ∧ (nopDone s).ib = s.ib ∧ (nopDone s).ob = s.ob ∧
    (nopDone s).pos = s.pos ∧ (nopDone s).t = s.t ∧ (nopDone s).gTok = s.gTok ∧ (nopDone s).gCnt = s.gCnt ∧
    (nopDone s).gCtrl = s.gCtrl ∧ (nopDone s).mLo = s.mLo ∧ (nopDone s).mI = s.mI ∧ (nopDone s).mK = s.mK ∧
    (nopDone s).mBoff = s.mBoff ∧ (nopDone s).mBlen = s.mBlen ∧ (nopDone s).rp = s.rp ∧ (nopDone s).dCtrl = s.dCtrl ∧
    (nopDone s).dBit = s.dBit ∧ (nopDone s).dOff = s.dOff ∧ (nopDone s).dLen = s.dLen ∧ (nopDone s).dNxt = s.dNxt ∧
    (nopDone s).dSrc = s.dSrc ∧ (nopDone s).dRem = s.dRem ∧ (nopDone s).seq = s.seq ∧ (nopDone s).inputs = s.inputs ∧
    (nopDone s).answer = s.answer ∧ (nopDone s).eqOut = s.eqOut ∧ (nopDone s).freeCtr = s.freeCtr ∧
    (nopDone s).busy = s.busy := by
  and_intros <;> rfl

/-- The reserved command; of the working registers nothing is said. -/
@[simp] theorem badCommand_fields (s : State) :
    (badCommand s).cfg = s.cfg ∧ (badCommand s).cmd = 3 ∧ (badCommand s).status = statusError ∧
    (badCommand s).errCode = 4 ∧ (badCommand s).inLen = s.inLen ∧ (badCommand s).outLen = 0 ∧
    (badCommand s).ib = s.ib ∧ (badCommand s).ob = [] ∧ (badCommand s).seq = .idle ∧
    (badCommand s).inputs = s.inputs ∧ (badCommand s).answer = s.answer ∧ (badCommand s).eqOut = s.eqOut ∧
    (badCommand s).freeCtr = s.freeCtr + 1 ∧ (badCommand s).busy = false := by
  and_intros <;> first | rfl | exact status_bits_busy.2.2.2

/-- A host operation accepted. -/
@[simp] theorem acceptHost_fields (s : State) :
    (acceptHost s).cfg = s.cfg ∧ (acceptHost s).cmd = s.cmd ∧ (acceptHost s).status = s.status ∧
    (acceptHost s).errCode = s.errCode ∧ (acceptHost s).inLen = s.inLen ∧ (acceptHost s).outLen = s.outLen ∧
    (acceptHost s).ib = s.ib ∧ (acceptHost s).ob = s.ob ∧ (acceptHost s).pos = s.pos ∧ (acceptHost s).t = s.t ∧
    (acceptHost s).gTok = s.gTok ∧ (acceptHost s).gCnt = s.gCnt ∧ (acceptHost s).gCtrl = s.gCtrl ∧
    (acceptHost s).mLo = s.mLo ∧ (acceptHost s).mI = s.mI ∧ (acceptHost s).mK = s.mK ∧
    (acceptHost s).mBoff = s.mBoff ∧ (acceptHost s).mBlen = s.mBlen ∧ (acceptHost s).rp = s.rp ∧
    (acceptHost s).dCtrl = s.dCtrl ∧ (acceptHost s).dBit = s.dBit ∧ (acceptHost s).dOff = s.dOff ∧
    (acceptHost s).dLen = s.dLen ∧ (acceptHost s).dNxt = s.dNxt ∧ (acceptHost s).dSrc = s.dSrc ∧
    (acceptHost s).dRem = s.dRem ∧ (acceptHost s).seq = s.seq ∧ (acceptHost s).inputs = s.inputs ∧
    (acceptHost s).answer = .accepted ∧ (acceptHost s).eqOut = s.eqOut ∧ (acceptHost s).freeCtr = s.freeCtr ∧
    (acceptHost s).busy = s.busy := by
  and_intros <;> rfl

/-- A host operation refused. -/
@[simp] theorem refuseHost_fields (s : State) :
    (refuseHost s).cfg = s.cfg ∧ (refuseHost s).cmd = s.cmd ∧ (refuseHost s).status = s.status ∧
    (refuseHost s).errCode = s.errCode ∧ (refuseHost s).inLen = s.inLen ∧ (refuseHost s).outLen = s.outLen ∧
    (refuseHost s).ib = s.ib ∧ (refuseHost s).ob = s.ob ∧ (refuseHost s).pos = s.pos ∧ (refuseHost s).t = s.t ∧
    (refuseHost s).gTok = s.gTok ∧ (refuseHost s).gCnt = s.gCnt ∧ (refuseHost s).gCtrl = s.gCtrl ∧
    (refuseHost s).mLo = s.mLo ∧ (refuseHost s).mI = s.mI ∧ (refuseHost s).mK = s.mK ∧
    (refuseHost s).mBoff = s.mBoff ∧ (refuseHost s).mBlen = s.mBlen ∧ (refuseHost s).rp = s.rp ∧
    (refuseHost s).dCtrl = s.dCtrl ∧ (refuseHost s).dBit = s.dBit ∧ (refuseHost s).dOff = s.dOff ∧
    (refuseHost s).dLen = s.dLen ∧ (refuseHost s).dNxt = s.dNxt ∧ (refuseHost s).dSrc = s.dSrc ∧
    (refuseHost s).dRem = s.dRem ∧ (refuseHost s).seq = s.seq ∧ (refuseHost s).inputs = s.inputs ∧
    (refuseHost s).answer = .refused ∧ (refuseHost s).eqOut = s.eqOut ∧ (refuseHost s).freeCtr = s.freeCtr ∧
    (refuseHost s).busy = s.busy := by
  and_intros <;> rfl

end Sys2Proof.Machine
end

