-- ==== Sys2Proof/Laws/Flow.lean ====
section
/-! SUPPORT. What the shared operations can do, said once: running one operation after another, Append, the error entry,
completion. -/

namespace Sys2Proof.Machine

/-! ## Running one operation after another -/

@[simp] theorem Flow.go_andThen (s : State) (k : State → Flow) : (Flow.go s).andThen k = k s := rfl
@[simp] theorem Flow.ended_andThen (s : State) (k : State → Flow) : (Flow.ended s).andThen k = .ended s := rfl
@[simp] theorem Flow.stop_andThen (f : Fault) (k : State → Flow) : (Flow.stop f).andThen k = .stop f := rfl
@[simp] theorem Flow.outcome_go (s : State) : (Flow.go s).outcome = .next s := rfl
@[simp] theorem Flow.outcome_ended (s : State) : (Flow.ended s).outcome = .next s := rfl
@[simp] theorem Flow.outcome_stop (f : Fault) : (Flow.stop f).outcome = .fault f := rfl

theorem Flow.andThen_assoc (x : Flow) (k j : State → Flow) :
    (x.andThen k).andThen j = x.andThen fun s => (k s).andThen j := by
  cases x <;> rfl

/-- An operation that does not stop: where the command goes on `P` holds, where it has completed `Q` does. -/
def Flow.Sat (x : Flow) (P Q : State → Prop) : Prop :=
  match x with
  | .go s => P s
  | .ended s => Q s
  | .stop _ => False

@[simp] theorem Flow.sat_go (s : State) (P Q : State → Prop) : (Flow.go s).Sat P Q ↔ P s := Iff.rfl
@[simp] theorem Flow.sat_ended (s : State) (P Q : State → Prop) : (Flow.ended s).Sat P Q ↔ Q s := Iff.rfl
@[simp] theorem Flow.sat_stop (f : Fault) (P Q : State → Prop) : (Flow.stop f).Sat P Q ↔ False := Iff.rfl

theorem Flow.Sat.andThen {x : Flow} {k : State → Flow} {P P' Q : State → Prop} (h : x.Sat P Q)
    (hk : ∀ s, P s → (k s).Sat P' Q) : (x.andThen k).Sat P' Q := by
  cases x with
  | go s => exact hk s h
  | ended s => exact h
  | stop f => exact h

theorem Flow.Sat.mono {x : Flow} {P P' Q Q' : State → Prop} (h : x.Sat P Q) (hP : ∀ s, P s → P' s)
    (hQ : ∀ s, Q s → Q' s) : x.Sat P' Q' := by
  cases x with
  | go s => exact hP s h
  | ended s => exact hQ s h
  | stop f => exact h

/-- As an instruction, an operation that does not stop answers a next state. -/
theorem Flow.Sat.outcome {x : Flow} {P Q : State → Prop} (h : x.Sat P Q) :
    ∃ t, x.outcome = .next t ∧ (x = .go t ∧ P t ∨ x = .ended t ∧ Q t) := by
  cases x with
  | go s => exact ⟨s, rfl, .inl ⟨rfl, h⟩⟩
  | ended s => exact ⟨s, rfl, .inr ⟨rfl, h⟩⟩
  | stop f => exact absurd h id

/-! ## What an operation leaves alone -/

/-- The registers that no operation of a running command writes. -/
structure Frame (s t : State) : Prop where
  cfg : t.cfg = s.cfg
  cmd : t.cmd = s.cmd
  status : t.status = s.status
  errCode : t.errCode = s.errCode
  inLen : t.inLen = s.inLen
  ib : t.ib = s.ib
  seq : t.seq = s.seq
  inputs : t.inputs = s.inputs
  answer : t.answer = s.answer

theorem Frame.refl (s : State) : Frame s s := by constructor <;> rfl

theorem Frame.trans {s t u : State} (h : Frame s t) (h' : Frame t u) : Frame s u := by
  constructor
  · exact h'.cfg.trans h.cfg
  · exact h'.cmd.trans h.cmd
  · exact h'.status.trans h.status
  · exact h'.errCode.trans h.errCode
  · exact h'.inLen.trans h.inLen
  · exact h'.ib.trans h.ib
  · exact h'.seq.trans h.seq
  · exact h'.inputs.trans h.inputs
  · exact h'.answer.trans h.answer

theorem Frame.busy {s t : State} (h : Frame s t) : t.busy = s.busy := by simp [State.busy, h.status]

theorem Frame.readIB {s t : State} (h : Frame s t) (a : Nat) : t.readIB a = s.readIB a := by
  simp [State.readIB, h.ib, h.inLen]

/-- The output is what R15 and R17 say: exactly the first OUT_LEN bytes of OB hold a value, within CAP_OUT. -/
structure OutOk (s : State) : Prop where
  dense : s.ob.dense s.outLen
  fits : fitsCap s.cfg.capOut s.outLen = true

/-- A completed command (R158): an error with no output, or a success with an output. -/
structure EndOk (s t : State) : Prop where
  cfg : t.cfg = s.cfg
  cmd : t.cmd = s.cmd
  inLen : t.inLen = s.inLen
  ib : t.ib = s.ib
  inputs : t.inputs = s.inputs
  answer : t.answer = s.answer
  seq : t.seq = .idle
  out : OutOk t
  done : (t.status = statusError ∧ t.outLen = 0 ∧ ∃ k, t.errCode = errCodeOf k) ∨
    (t.status = statusSuccess ∧ t.errCode = s.errCode)

theorem fitsCap_zero (c : Option Nat) : fitsCap c 0 = true := by cases c <;> simp [fitsCap]

theorem OutOk.of_empty {s : State} (h : s.ob = []) (h' : s.outLen = 0) : OutOk s :=
  ⟨by simp [Memory.dense, h, h'], by simp [h', fitsCap_zero]⟩

theorem EndOk.of_frame {s t u : State} (h : Frame s t) (h' : EndOk t u) : EndOk s u where
  cfg := h'.cfg.trans h.cfg
  cmd := h'.cmd.trans h.cmd
  inLen := h'.inLen.trans h.inLen
  ib := h'.ib.trans h.ib
  inputs := h'.inputs.trans h.inputs
  answer := h'.answer.trans h.answer
  seq := h'.seq
  out := h'.out
  done := by rw [← h.errCode]; exact h'.done

/-- `raise` completes the command with an error (R172). -/
theorem errorEntry_endOk (k : ErrKind) (s : State) : EndOk s (errorEntry k s) := by
  constructor <;> try simp
  exact OutOk.of_empty (by simp) (by simp)

theorem raise_sat (k : ErrKind) (s : State) (P : State → Prop) : (raise k s).Sat P (EndOk s) :=
  errorEntry_endOk k s

theorem complete_endOk {s : State} (h : OutOk s) : EndOk s (complete s) := by
  constructor <;> try simp
  exact ⟨by simpa using h.dense, by simpa using h.fits⟩

/-- The error entry, as a statement about what it leaves (R172). -/
theorem errorEntry_entered (k : ErrKind) (s u : State) (h : Frame s u) :
    ErrorEntered (errCodeOf k) s (errorEntry k u) := by
  constructor <;> simp [h.cmd, h.ib, h.inLen, h.cfg, h.inputs, h.answer, statusError]

/-! ## Append -/

theorem roomFor_one (s : State) : s.roomFor 1 = true ↔ s.outputFull = false := by
  unfold State.roomFor State.outputFull fitsCap
  cases s.cfg.capOut with
  | none => simp
  | some c => simp

/-- The state after several bytes were appended. -/
def appendedAll (bytes : List Byte) (s : State) : State := bytes.foldl (fun a v => appended v a) s

@[simp] theorem appendedAll_nil (s : State) : appendedAll [] s = s := rfl
@[simp] theorem appendedAll_cons (v : Byte) (bytes : List Byte) (s : State) :
    appendedAll (v :: bytes) s = appendedAll bytes (appended v s) := rfl
theorem appendedAll_append (xs ys : List Byte) (s : State) :
    appendedAll (xs ++ ys) s = appendedAll ys (appendedAll xs s) := by
  simp [appendedAll, List.foldl_append]

/-- Appending changes OB and OUT_LEN, and nothing else. -/
theorem appendedAll_eq (bytes : List Byte) (s : State) :
    appendedAll bytes s =
      { s with ob := (appendedAll bytes s).ob, outLen := s.outLen + bytes.length } := by
  induction bytes generalizing s with
  | nil => rfl
  | cons v rest ih =>
    rw [appendedAll_cons, ih (appended v s)]
    simp only [appended, List.length_cons]
    congr 1
    omega

/-- What is appended where depends on OB and OUT_LEN alone. -/
theorem appendedAll_ob_congr (bytes : List Byte) {a b : State} (ho : a.ob = b.ob) (hl : a.outLen = b.outLen) :
    (appendedAll bytes a).ob = (appendedAll bytes b).ob := by
  induction bytes generalizing a b with
  | nil => exact ho
  | cons v rest ih => exact ih (by simp [ho, hl]) (by simp [hl])

theorem appendedAll_frame (bytes : List Byte) (s : State) : Frame s (appendedAll bytes s) := by
  rw [appendedAll_eq]; constructor <;> rfl

@[simp] theorem appendedAll_outLen (bytes : List Byte) (s : State) :
    (appendedAll bytes s).outLen = s.outLen + bytes.length := by
  rw [appendedAll_eq]

theorem appendedAll_read (bytes : List Byte) (s : State) (a : Nat) :
    (appendedAll bytes s).ob.read a =
      if s.outLen ≤ a ∧ a < s.outLen + bytes.length then bytes[a - s.outLen]? else s.ob.read a := by
  induction bytes generalizing s with
  | nil => simp
  | cons v rest ih =>
    have ho : (appended v s).outLen = s.outLen + 1 := rfl
    have hb : (appended v s).ob = s.ob.write s.outLen v := rfl
    rw [appendedAll_cons, ih (appended v s), ho, hb, List.length_cons]
    by_cases h : a = s.outLen
    · subst h; simp
    · rw [Memory.read_write_other _ _ h]
      by_cases h2 : s.outLen + 1 ≤ a ∧ a < s.outLen + 1 + rest.length
      · rw [if_pos h2, if_pos ⟨by omega, by omega⟩, show a - s.outLen = (a - (s.outLen + 1)) + 1 by omega]
        simp
      · rw [if_neg h2, if_neg (by omega)]

/-- The stored bytes are where R42 says, and every other byte of OB reads as before. -/
theorem appendedAll_appendedTo (bytes : List Byte) (s : State) : AppendedTo bytes s (appendedAll bytes s) where
  outLen := by simp
  stored := fun j hj => by
    rw [appendedAll_read, if_pos ⟨by omega, by omega⟩]
    simp
  others := fun a ha => by rw [appendedAll_read, if_neg (by omega)]

theorem appendedAll_bytes {s : State} (h : s.ob.dense s.outLen) (bytes : List Byte) :
    (appendedAll bytes s).ob.bytes = s.ob.bytes ++ bytes ∧
      (appendedAll bytes s).ob.dense (appendedAll bytes s).outLen := by
  induction bytes generalizing s with
  | nil => simpa using h
  | cons v rest ih =>
    have hd : (appended v s).ob.dense (appended v s).outLen := by simpa using Memory.dense_write h v
    have := ih hd
    rw [appendedAll_cons]
    refine ⟨?_, this.2⟩
    rw [this.1]
    simp [Memory.bytes_write h v]

/-- Append: one more byte, or CapacityError (R170). -/
theorem append_cases (v : Byte) (s : State) :
    (s.roomFor 1 = true ∧ append v s = .go (appended v s)) ∨
      (s.roomFor 1 = false ∧ append v s = .ended (errorEntry .capacity s)) := by
  unfold append raise
  cases h : s.outputFull with
  | false => left; exact ⟨(roomFor_one s).2 h, by simp⟩
  | true =>
    right
    refine ⟨?_, by simp⟩
    have := roomFor_one s
    simp [h] at this
    simpa using this

theorem roomFor_mono {s : State} {n m : Nat} (h : n ≤ m) (hm : s.roomFor m = true) : s.roomFor n = true := by
  unfold State.roomFor fitsCap at *
  cases hc : s.cfg.capOut with
  | none => simp
  | some c => simp [hc] at *; omega

theorem roomFor_appended (s : State) (v : Byte) (n : Nat) : (appended v s).roomFor n = s.roomFor (n + 1) := by
  unfold State.roomFor
  simp only [appended]
  rw [show s.outLen + 1 + n = s.outLen + (n + 1) by omega]

theorem roomFor_appendedAll (s : State) (bytes : List Byte) (n : Nat) :
    (appendedAll bytes s).roomFor n = s.roomFor (bytes.length + n) := by
  unfold State.roomFor
  rw [appendedAll_outLen, (appendedAll_frame bytes s).cfg, Nat.add_assoc]

/-- Several appends: all of them, or CapacityError when they do not all fit. -/
theorem appendAll_cases (bytes : List Byte) (s : State) (h0 : s.roomFor 0 = true) :
    (s.roomFor bytes.length = true ∧ appendAll bytes s = .go (appendedAll bytes s)) ∨
      (s.roomFor bytes.length = false ∧
        ∃ some, appendAll bytes s = .ended (errorEntry .capacity (appendedAll some s))) := by
  induction bytes generalizing s with
  | nil => left; exact ⟨h0, rfl⟩
  | cons v rest ih =>
    simp only [appendAll]
    rcases append_cases v s with ⟨h1, h2⟩ | ⟨h1, h2⟩
    · rw [h2, Flow.go_andThen]
      have h0' : (appended v s).roomFor 0 = true := by rw [roomFor_appended]; exact h1
      rcases ih (appended v s) h0' with ⟨h3, h4⟩ | ⟨h3, some, h4⟩
      · left; rw [roomFor_appended] at h3; exact ⟨h3, h4⟩
      · right; rw [roomFor_appended] at h3; exact ⟨h3, v :: some, h4⟩
    · right
      refine ⟨?_, [], by rw [h2]; rfl⟩
      by_contra hc
      rw [Bool.not_eq_false] at hc
      have := roomFor_mono (n := 1) (by simp) hc
      simp [h1] at this

/-- Several appends that fit. -/
theorem appendAll_room {bytes : List Byte} {s : State} (h : s.roomFor bytes.length = true) :
    appendAll bytes s = .go (appendedAll bytes s) := by
  rcases appendAll_cases bytes s (roomFor_mono (Nat.zero_le _) h) with h' | h'
  · exact h'.2
  · simp [h] at h'

theorem appendAll_append (xs ys : List Byte) (s : State) :
    appendAll (xs ++ ys) s = (appendAll xs s).andThen (appendAll ys) := by
  induction xs generalizing s with
  | nil => rfl
  | cons v rest ih =>
    simp only [List.cons_append, appendAll, Flow.andThen_assoc]
    congr 1
    funext a
    exact ih a

theorem appendAll_go {bytes : List Byte} {s t : State} (h : appendAll bytes s = .go t) :
    t = appendedAll bytes s := by
  induction bytes generalizing s with
  | nil => simpa [appendAll] using h.symm
  | cons v rest ih =>
    simp only [appendAll] at h
    rcases append_cases v s with ⟨_, h2⟩ | ⟨_, h2⟩
    · rw [h2, Flow.go_andThen] at h; exact ih h
    · rw [h2] at h; exact absurd h (by simp)

/-- What comes after several appends may use what they leave. -/
theorem appendAll_andThen_congr {bytes : List Byte} {s : State} {k j : State → Flow}
    (h : k (appendedAll bytes s) = j (appendedAll bytes s)) :
    (appendAll bytes s).andThen k = (appendAll bytes s).andThen j := by
  cases hx : appendAll bytes s with
  | go t => rw [appendAll_go hx]; exact h
  | ended t => rfl
  | stop f => rfl

theorem append_eq_appendAll (v : Byte) (s : State) : append v s = appendAll [v] s := by
  simp only [appendAll]
  cases append v s <;> rfl

theorem OutOk.roomFor_zero {s : State} (h : OutOk s) : s.roomFor 0 = true := h.fits

theorem OutOk.appendedAll {s : State} (h : OutOk s) {bytes : List Byte} (hr : s.roomFor bytes.length = true) :
    OutOk (appendedAll bytes s) where
  dense := (appendedAll_bytes h.dense bytes).2
  fits := by rw [appendedAll_outLen, (appendedAll_frame bytes s).cfg]; exact hr

/-- Everything several appends can do. -/
theorem appendAll_sat (bytes : List Byte) {s : State} (h : OutOk s) :
    (appendAll bytes s).Sat (fun t => t = appendedAll bytes s ∧ OutOk t) (EndOk s) := by
  rcases appendAll_cases bytes s h.roomFor_zero with ⟨h1, h2⟩ | ⟨h1, some, h2⟩
  · rw [h2]; exact ⟨rfl, h.appendedAll h1⟩
  · rw [h2]; exact EndOk.of_frame (appendedAll_frame some s) (errorEntry_endOk _ _)

/-- Everything an append can do. -/
theorem append_sat (v : Byte) {s : State} (h : OutOk s) :
    (append v s).Sat (fun t => t = appended v s ∧ OutOk t) (EndOk s) := by
  rcases append_cases v s with ⟨h1, h2⟩ | ⟨h1, h2⟩
  · rw [h2]; exact ⟨rfl, h.appendedAll (bytes := [v]) h1⟩
  · rw [h2]; exact errorEntry_endOk _ _

end Sys2Proof.Machine
end

