-- ==== Sys2Proof/Laws/Matcher.lean ====
section
/-! SUPPORT. What the operations of the matcher can do, said once each. -/

namespace Sys2Proof.Machine

/-- A buffer that holds exactly its valid bytes reads a byte below its length. -/
theorem readIB_some {s : State} (h : s.ib.dense s.inLen) {a : Nat} (ha : a < s.inLen) :
    ∃ b, s.readIB a = some b ∧ s.ib.bytes[a]? = some b := by
  have hl := Memory.bytes_length h
  have : a < s.ib.bytes.length := by omega
  refine ⟨s.ib.bytes[a], ?_, by simp [this]⟩
  simp [State.readIB, ha, Memory.read_dense h, this]

theorem readIB_eq {s : State} (h : s.ib.dense s.inLen) (a : Nat) : s.readIB a = s.ib.bytes[a]? := by
  by_cases ha : a < s.inLen
  · obtain ⟨b, h1, h2⟩ := readIB_some h ha; rw [h1, h2]
  · have hl := Memory.bytes_length h
    have hn : s.ib.bytes.length ≤ a := by omega
    simp [State.readIB, ha, hn]

/-- MAT.CMP where it is defined (R82). -/
theorem cmpBytes_ok {s : State} {i k : Nat} {x y : Byte} (h1 : i + k < s.pos) (h2 : s.pos + k < s.inLen)
    (hx : s.readIB (i + k) = some x) (hy : s.readIB (s.pos + k) = some y) : s.cmpBytes i k = .ok (x == y) := by
  simp [State.cmpBytes, State.cmpDefined, h1, h2, hx, hy]

/-- The largest run from `k` on, at most `n` bytes longer, under the bound `m` (R83). -/
def runFrom (b : List Byte) (pos i m : Nat) (n k : Nat) : Nat :=
  match n with
  | 0 => k
  | n + 1 => if k < m ∧ b[i + k]? = b[pos + k]? then runFrom b pos i m n (k + 1) else k

theorem runFrom_bounds (b : List Byte) (pos i m n k : Nat) (hk : k ≤ m) :
    k ≤ runFrom b pos i m n k ∧ runFrom b pos i m n k ≤ m ∧
      (∀ j, k ≤ j → j < runFrom b pos i m n k → b[i + j]? = b[pos + j]?) := by
  induction n generalizing k with
  | zero => exact ⟨Nat.le_refl _, hk, fun j h1 h2 => absurd h2 (by simp [runFrom]; omega)⟩
  | succ n ih =>
    simp only [runFrom]
    split
    · rename_i h
      obtain ⟨h1, h2, h3⟩ := ih (k + 1) h.1
      refine ⟨by omega, h2, fun j hj1 hj2 => ?_⟩
      by_cases he : j = k
      · subst he; exact h.2
      · exact h3 j (by omega) hj2
    · exact ⟨Nat.le_refl _, hk, fun j h1 h2 => absurd h2 (by omega)⟩

theorem runFrom_stops (b : List Byte) (pos i m n k : Nat) (hn : m ≤ n + k) (hk : k ≤ m)
    (h : runFrom b pos i m n k < m) :
    b[i + runFrom b pos i m n k]? ≠ b[pos + runFrom b pos i m n k]? := by
  induction n generalizing k with
  | zero => simp [runFrom] at h; omega
  | succ n ih =>
    simp only [runFrom] at h ⊢
    split
    · rename_i hc
      rw [if_pos hc] at h
      exact ih (k + 1) (by omega) hc.1 h
    · rename_i hc
      rw [if_neg hc] at h
      exact fun he => hc ⟨h, he⟩

/-- MAT.LEN's loop computes `runFrom`, and writes M_K only. -/
theorem extendRun_eq {s : State} (hd : s.ib.dense s.inLen) (hi : s.mI ≤ s.pos) (hp : s.pos ≤ s.inLen) (n : Nat) (k : Nat)
    (hk : k ≤ min s.cfg.lookaheadSize.val (min (s.pos - s.mI) (s.inLen - s.pos))) :
    extendRun n { s with mK := BitVec.ofNat 16 k } =
      .go { s with
        mK := BitVec.ofNat 16 (runFrom s.ib.bytes s.pos s.mI
          (min s.cfg.lookaheadSize.val (min (s.pos - s.mI) (s.inLen - s.pos))) n k) } := by
  induction n generalizing k with
  | zero => rfl
  | succ n ih =>
    have hL := s.cfg.lookaheadSize.isLt
    have hkt : (BitVec.ofNat 16 k).toNat = k := by
      rw [BitVec.toNat_ofNat]; apply Nat.mod_eq_of_lt; omega
    simp only [extendRun, runFrom, hkt]
    by_cases hlt : k < min s.cfg.lookaheadSize.val (min (s.pos - s.mI) (s.inLen - s.pos))
    · have h1 : k < s.cfg.lookaheadSize.val := by omega
      have h2 : s.mI + k < s.pos := by omega
      have h3 : s.pos + k < s.inLen := by omega
      obtain ⟨x, hx, hx'⟩ := readIB_some hd (a := s.mI + k) (by omega)
      obtain ⟨y, hy, hy'⟩ := readIB_some hd (a := s.pos + k) (by omega)
      have hc : State.cmpBytes { s with mK := BitVec.ofNat 16 k } s.mI k = .ok (x == y) :=
        cmpBytes_ok (s := { s with mK := BitVec.ofNat 16 k }) h2 h3 hx hy
      have hdef : State.cmpDefined { s with mK := BitVec.ofNat 16 k } s.mI k = true := by
        simp [State.cmpDefined, h2, h3]
      rw [if_pos (by simp [h1, hdef]), hc, hx', hy']
      by_cases hxy : x = y
      · subst hxy
        have hnext : BitVec.ofNat 16 k + 1 = BitVec.ofNat 16 (k + 1) := by
          apply BitVec.eq_of_toNat_eq; simp
        simp only [beq_self_eq_true, hlt, and_self, if_true, hnext]
        exact ih (k + 1) hlt
      · have : (x == y) = false := by simp [hxy]
        simp [this, hlt, hxy]
    · rw [if_neg (by simp only [State.cmpDefined, Bool.and_eq_true, decide_eq_true_eq]; omega),
        if_neg (by omega)]

/-- MAT.LEN (R83): M_K becomes the largest run length, and nothing else is written. -/
theorem matLen_eq {s : State} (hd : s.ib.dense s.inLen) (hi : s.mI ≤ s.pos) (hp : s.pos ≤ s.inLen) :
    matLen s =
      .go { s with
        mK := BitVec.ofNat 16 (runFrom s.ib.bytes s.pos s.mI
          (min s.cfg.lookaheadSize.val (min (s.pos - s.mI) (s.inLen - s.pos))) s.cfg.lookaheadSize.val 0) } :=
  extendRun_eq hd hi hp _ 0 (Nat.zero_le _)

/-! ## The scan -/

/-- One candidate against the best so far, as numbers (R84). -/
def betterOf (b : List Byte) (pos l : Nat) (best : Nat × Nat) (i : Nat) : Nat × Nat :=
  if best.2 < refLen b pos l i then (pos - i, refLen b pos l i) else best

theorem takeWhile_range_length (f : Nat → Bool) (m : Nat) (r : Nat) (hr : r ≤ m) (h1 : ∀ j, j < r → f j = true)
    (h2 : r < m → f r = false) : ((List.range m).takeWhile f).length = r := by
  induction m generalizing f r with
  | zero => simp; omega
  | succ m ih =>
    rw [List.range_succ_eq_map, List.takeWhile_cons]
    cases r with
    | zero => simp [h2 (by omega)]
    | succ r =>
      rw [if_pos (h1 0 (by omega))]
      have : List.takeWhile f (List.map Nat.succ (List.range m)) =
          List.map Nat.succ (List.takeWhile (f ∘ Nat.succ) (List.range m)) := by
        rw [List.takeWhile_map]
      rw [this]
      simp only [List.length_cons, List.length_map]
      congr 1
      exact ih (f ∘ Nat.succ) r (by omega) (fun j hj => h1 (j + 1) (by omega)) (fun h => h2 (by omega))

/-- The run that MAT.LEN measures is the reference function's `len(i)`. -/
theorem runFrom_eq_refLen (b : List Byte) (pos l i : Nat) :
    runFrom b pos i (refMaxLen b pos l i) l 0 = refLen b pos l i := by
  obtain ⟨_, h2, h3⟩ := runFrom_bounds b pos i (refMaxLen b pos l i) l 0 (Nat.zero_le _)
  refine (takeWhile_range_length _ _ _ h2 (fun j hj => ?_) (fun h => ?_)).symm
  · simp [h3 j (Nat.zero_le _) hj]
  · simpa using runFrom_stops b pos i _ l 0 (by simp [refMaxLen]) (Nat.zero_le _) h

theorem refLen_le (b : List Byte) (pos l i : Nat) : refLen b pos l i ≤ refMaxLen b pos l i := by
  rw [← runFrom_eq_refLen]
  exact (runFrom_bounds b pos i _ l 0 (Nat.zero_le _)).2.1

theorem refLen_agrees (b : List Byte) (pos l i j : Nat) (h : j < refLen b pos l i) :
    b[i + j]? = b[pos + j]? := by
  rw [← runFrom_eq_refLen] at h
  exact (runFrom_bounds b pos i _ l 0 (Nat.zero_le _)).2.2 j (Nat.zero_le _) h

/-- The best candidate replaced, where its distance fits the field (R84). -/
theorem selected_near {s : State} (h : s.pos - s.mI < 65536) :
    selected s = { s with mBlen := s.mK, mBoff := BitVec.ofNat 16 (s.pos - s.mI) } := if_pos h

/-- Everything MAT.SEL's replacement can change: M_BLEN is M_K, M_BOFF, and the counter of the free values. -/
theorem selected_eq (s : State) :
    selected s = { s with mBlen := s.mK, mBoff := (selected s).mBoff, freeCtr := (selected s).freeCtr } := by
  unfold selected
  split <;> rfl

/-- The fields after the replacement. -/
@[simp] theorem selected_fields (s : State) :
    (selected s).cfg = s.cfg ∧ (selected s).cmd = s.cmd ∧ (selected s).status = s.status ∧
    (selected s).errCode = s.errCode ∧ (selected s).inLen = s.inLen ∧ (selected s).outLen = s.outLen ∧
    (selected s).ib = s.ib ∧ (selected s).ob = s.ob ∧ (selected s).pos = s.pos ∧ (selected s).t = s.t ∧
    (selected s).gTok = s.gTok ∧ (selected s).gCnt = s.gCnt ∧ (selected s).gCtrl = s.gCtrl ∧
    (selected s).mLo = s.mLo ∧ (selected s).mI = s.mI ∧ (selected s).mK = s.mK ∧ (selected s).rp = s.rp ∧
    (selected s).dCtrl = s.dCtrl ∧ (selected s).dBit = s.dBit ∧ (selected s).dOff = s.dOff ∧
    (selected s).dLen = s.dLen ∧ (selected s).dNxt = s.dNxt ∧ (selected s).dSrc = s.dSrc ∧
    (selected s).dRem = s.dRem ∧ (selected s).seq = s.seq ∧ (selected s).inputs = s.inputs ∧
    (selected s).answer = s.answer ∧ (selected s).eqOut = s.eqOut ∧ (selected s).busy = s.busy ∧
    (selected s).mBlen = s.mK := by
  rw [selected_eq]
  simp [State.busy]

/-- The scan writes M_I, M_K, M_BOFF and M_BLEN only, and keeps the first of the longest candidates. -/
theorem scanCandidates_eq {s : State} (hd : s.ib.dense s.inLen) (hp : s.pos ≤ s.inLen) (n : Nat) (hn : n ≤ s.pos)
    (hw : n ≤ 65535) :
    ∃ t, scanCandidates n s = .go t ∧
      t = { s with mI := t.mI, mK := t.mK, mBoff := t.mBoff, mBlen := t.mBlen } ∧
      (t.mBoff.toNat, t.mBlen.toNat) =
        (List.range' (s.pos - n) n).foldl (betterOf s.ib.bytes s.pos s.cfg.lookaheadSize.val)
          (s.mBoff.toNat, s.mBlen.toNat) := by
  induction n generalizing s with
  | zero => exact ⟨s, rfl, rfl, rfl⟩
  | succ n ih =>
    have hL := s.cfg.lookaheadSize.isLt
    simp only [scanCandidates]
    have hlen := matLen_eq (s := { s with mI := s.pos - (n + 1) }) hd (by simp) hp
    have hl := Memory.bytes_length hd
    have hrun := runFrom_eq_refLen s.ib.bytes s.pos s.cfg.lookaheadSize.val (s.pos - (n + 1))
    simp only [refMaxLen, hl] at hrun
    simp only [hrun] at hlen
    rw [hlen, Flow.go_andThen]
    have hle := refLen_le s.ib.bytes s.pos s.cfg.lookaheadSize.val (s.pos - (n + 1))
    simp only [refMaxLen] at hle
    have hkt : (BitVec.ofNat 16 (refLen s.ib.bytes s.pos s.cfg.lookaheadSize.val (s.pos - (n + 1)))).toNat =
        refLen s.ib.bytes s.pos s.cfg.lookaheadSize.val (s.pos - (n + 1)) := by
      rw [BitVec.toNat_ofNat]; apply Nat.mod_eq_of_lt; omega
    have hrange : List.range' (s.pos - (n + 1)) (n + 1) = (s.pos - (n + 1)) :: List.range' (s.pos - n) n := by
      rw [List.range'_succ, show s.pos - (n + 1) + 1 = s.pos - n by omega]
    rw [hrange, List.foldl_cons]
    simp only [matSel, hkt, betterOf]
    rw [selected_near (by show s.pos - (s.pos - (n + 1)) < 65536; omega)]
    by_cases hb : s.mBlen.toNat < refLen s.ib.bytes s.pos s.cfg.lookaheadSize.val (s.pos - (n + 1))
    · have hoff : (BitVec.ofNat 16 (s.pos - (s.pos - (n + 1)))).toNat = s.pos - (s.pos - (n + 1)) := by
        rw [BitVec.toNat_ofNat]; apply Nat.mod_eq_of_lt; omega
      rw [if_pos hb, if_pos (by omega), Flow.go_andThen, if_pos hb]
      obtain ⟨t, h1, h2, h3⟩ := ih (s := { s with
        mI := s.pos - (n + 1)
        mK := BitVec.ofNat 16 (refLen s.ib.bytes s.pos s.cfg.lookaheadSize.val (s.pos - (n + 1)))
        mBlen := BitVec.ofNat 16 (refLen s.ib.bytes s.pos s.cfg.lookaheadSize.val (s.pos - (n + 1)))
        mBoff := BitVec.ofNat 16 (s.pos - (s.pos - (n + 1))) }) hd hp (by simp; omega) (by omega)
      refine ⟨t, h1, h2, ?_⟩
      simpa only [hkt, hoff] using h3
    · rw [if_neg hb, Flow.go_andThen, if_neg hb]
      obtain ⟨t, h1, h2, h3⟩ := ih (s := { s with
        mI := s.pos - (n + 1)
        mK := BitVec.ofNat 16 (refLen s.ib.bytes s.pos s.cfg.lookaheadSize.val (s.pos - (n + 1))) })
        hd hp (by simp; omega) (by omega)
      exact ⟨t, h1, h2, h3⟩

/-- MAT.FIND as the fold over its candidates, oldest first. -/
theorem matFind_fold {s : State} (hd : s.ib.dense s.inLen) (hp : s.pos ≤ s.inLen) :
    ∃ t, matFind s = .go t ∧
      t = { s with mLo := s.pos - s.cfg.windowSize.val, mI := t.mI, mK := t.mK, mBoff := t.mBoff, mBlen := t.mBlen } ∧
      (t.mBoff.toNat, t.mBlen.toNat) =
        (refCandidates s.pos s.cfg.windowSize.val).foldl (betterOf s.ib.bytes s.pos s.cfg.lookaheadSize.val)
          (0, 0) := by
  have hW := s.cfg.windowSize.isLt
  obtain ⟨t, h1, h2, h3⟩ := scanCandidates_eq
    (s := { s with mBoff := 0, mBlen := 0, mLo := s.pos - s.cfg.windowSize.val }) hd hp
    (s.pos - (s.pos - s.cfg.windowSize.val)) (by simp) (by omega)
  refine ⟨t, h1, h2, ?_⟩
  rw [h3]
  have : s.pos - (s.pos - (s.pos - s.cfg.windowSize.val)) = s.pos - s.cfg.windowSize.val := by omega
  simp only [this, refCandidates]
  rfl

/-! ## The closed form -/

/-- A fold that keeps the first of the longest: the length is the maximum, and the winner is the first to reach it. -/
theorem betterOf_fold (b : List Byte) (pos l : Nat) (cs : List Nat) (o m : Nat) :
    cs.foldl (betterOf b pos l) (o, m) =
      match cs.find? fun i => decide (m < refLen b pos l i ∧
          refLen b pos l i = (cs.map (refLen b pos l)).foldl max m) with
      | none => (o, m)
      | some i => (pos - i, (cs.map (refLen b pos l)).foldl max m) := by
  induction cs generalizing o m with
  | nil => rfl
  | cons c cs ih =>
    have hmax : ∀ (xs : List Nat) (a : Nat), a ≤ xs.foldl max a := by
      intro xs
      induction xs with
      | nil => intro a; exact Nat.le_refl _
      | cons x xs ihx => intro a; exact Nat.le_trans (Nat.le_max_left a x) (ihx _)
    simp only [List.foldl_cons, List.map_cons, List.find?_cons, betterOf]
    by_cases hc : m < refLen b pos l c
    · rw [if_pos hc, ih, Nat.max_eq_right (Nat.le_of_lt hc)]
      by_cases he : refLen b pos l c = (cs.map (refLen b pos l)).foldl max (refLen b pos l c)
      · rw [← he]
        have : (cs.find? fun i => decide (refLen b pos l c < refLen b pos l i ∧ refLen b pos l i = refLen b pos l c)) =
            none := by
          rw [List.find?_eq_none]; intro i _; simp; omega
        rw [this]
        simp [hc]
      · have hlt := Nat.lt_of_le_of_ne (hmax (cs.map (refLen b pos l)) (refLen b pos l c)) he
        have hne : decide (m < refLen b pos l c ∧
            refLen b pos l c = (cs.map (refLen b pos l)).foldl max (refLen b pos l c)) = false := by
          simp [he]
        rw [hne]
        have hp : (fun i => decide (refLen b pos l c < refLen b pos l i ∧
            refLen b pos l i = (cs.map (refLen b pos l)).foldl max (refLen b pos l c))) =
          (fun i => decide (m < refLen b pos l i ∧
            refLen b pos l i = (cs.map (refLen b pos l)).foldl max (refLen b pos l c))) := by
          funext i
          apply decide_eq_decide.2
          constructor
          · rintro ⟨h1, h2⟩; exact ⟨by omega, h2⟩
          · rintro ⟨h1, h2⟩; exact ⟨by omega, h2⟩
        rw [hp]
        have hex : (cs.find? fun i => decide (m < refLen b pos l i ∧
            refLen b pos l i = (cs.map (refLen b pos l)).foldl max (refLen b pos l c))) ≠ none := by
          have hmem : ∀ (xs : List Nat) (a : Nat), xs.foldl max a = a ∨ xs.foldl max a ∈ xs := by
            intro xs
            induction xs with
            | nil => intro a; exact .inl rfl
            | cons x xs ihx =>
              intro a
              simp only [List.foldl_cons, List.mem_cons]
              rcases ihx (max a x) with h | h
              · rw [h]
                rcases Nat.le_total a x with hax | hax
                · right; left; exact Nat.max_eq_right hax
                · left; exact Nat.max_eq_left hax
              · right; right; exact h
          rcases hmem (cs.map (refLen b pos l)) (refLen b pos l c) with h | h
          · omega
          · obtain ⟨i, hi1, hi2⟩ := List.mem_map.1 h
            intro hnone
            rw [List.find?_eq_none] at hnone
            have := hnone i hi1
            simp only [decide_eq_true_eq, not_and] at this
            exact this (by omega) hi2
        cases hf : (cs.find? fun i => decide (m < refLen b pos l i ∧
            refLen b pos l i = (cs.map (refLen b pos l)).foldl max (refLen b pos l c))) with
        | none => exact absurd hf hex
        | some i => rfl
    · rw [if_neg hc, ih, Nat.max_eq_left (by omega)]
      have : decide (m < refLen b pos l c ∧ refLen b pos l c = (cs.map (refLen b pos l)).foldl max m) = false := by
        simp [hc]
      rw [this]

/-- The fold over the candidates is the closed form of R80. -/
theorem fold_eq_refFind (b : List Byte) (pos w l : Nat) :
    (refCandidates pos w).foldl (betterOf b pos l) (0, 0) = refFind b pos w l := by
  rw [betterOf_fold]
  unfold refFind
  have hbest : ((refCandidates pos w).map (refLen b pos l)).foldl max 0 = refBest b pos w l := rfl
  simp only [hbest]
  by_cases h0 : refBest b pos w l = 0
  · rw [if_pos h0, h0]
    have : ((refCandidates pos w).find? fun i => decide (0 < refLen b pos l i ∧ refLen b pos l i = 0)) = none := by
      rw [List.find?_eq_none]; intro i _; simp; omega
    rw [this]
  · rw [if_neg h0]
    have : (fun i => decide (0 < refLen b pos l i ∧ refLen b pos l i = refBest b pos w l)) =
        (fun i => refLen b pos l i == refBest b pos w l) := by
      funext i
      by_cases he : refLen b pos l i = refBest b pos w l
      · simp [he, Nat.pos_of_ne_zero h0]
      · simp [he]
    rw [this]
    all_goals cases List.find? (fun i => refLen b pos l i == refBest b pos w l) (refCandidates pos w) <;> rfl

/-- Every match found is within its bounds, and its bytes agree (R87). -/
theorem refFind_spec (b : List Byte) (pos w l : Nat) (h : (refFind b pos w l).2 ≠ 0) :
    (refFind b pos w l).2 ≤ (refFind b pos w l).1 ∧ (refFind b pos w l).1 ≤ min w pos ∧
      (refFind b pos w l).2 ≤ l ∧ pos + (refFind b pos w l).2 ≤ b.length ∧
      ∀ j, j < (refFind b pos w l).2 → b[pos - (refFind b pos w l).1 + j]? = b[pos + j]? := by
  unfold refFind at h ⊢
  split at h
  · exact absurd rfl h
  · rename_i h0
    split at h
    · exact absurd rfl h
    · rename_i i hi
      rw [if_neg h0]
      have hmem := List.mem_of_find?_eq_some hi
      have hlen : refLen b pos l i = refBest b pos w l := by simpa using List.find?_some hi
      have hle := refLen_le b pos l i
      have hb : 0 < refLen b pos l i := by omega
      simp only [refCandidates, List.mem_range'_1] at hmem
      simp only [refMaxLen] at hle
      refine ⟨by simp only; omega, by simp only; omega, by simp only; omega, by simp only; omega, fun j hj => ?_⟩
      simp only at hj ⊢
      rw [show pos - (pos - i) = i by omega]
      exact refLen_agrees b pos l i j (by omega)

end Sys2Proof.Machine
end

