-- ==== Sys2Proof/Laws/Encoder.lean ====
section
/-! SUPPORT. What the operations of the encoder can do, said once each. -/

namespace Sys2Proof.Machine

/-! ## Control bits -/

theorem controlBit_set (c : Byte) (i j : Nat) (hj : j < 8) :
    controlBit (setControlBit c i) j = (controlBit c j || decide (j = i)) := by
  simp only [controlBit, setControlBit, BitVec.getLsbD_or, BitVec.getLsbD_shiftLeft, hj, decide_true,
    Bool.true_and]
  by_cases h : j = i
  · subst h; simp
  · have : (1#8).getLsbD (j - i) = decide (j - i = 0) := by
      rw [BitVec.getLsbD_one]; simp
    rw [this]
    by_cases hlt : j < i
    · simp [hlt, h]
    · have : j - i ≠ 0 := by omega
      simp [this, h]

theorem controlAgrees_iff (s : State) :
    s.controlAgrees = true ↔ ∀ j, j < 8 →
      controlBit s.gCtrl j = (decide (j < s.gCnt.toNat) && isMatch (s.gTok.toList.getD j ⟨0, 0, 0⟩)) := by
  simp [State.controlAgrees]

theorem controlAgrees_zero {s : State} (h1 : s.gCtrl = 0) (h2 : s.gCnt = 0) : s.controlAgrees = true := by
  rw [controlAgrees_iff]
  intro j hj
  simp [h1, h2, controlBit]

theorem gCnt_succ {s : State} (h : s.gCnt.toNat < 8) : (s.gCnt + 1).toNat = s.gCnt.toNat + 1 := by
  rw [BitVec.toNat_add]; apply Nat.mod_eq_of_lt; simp; omega

/-- A stored token keeps the control byte in agreement with the slots (R23, R105). -/
theorem stored_controlAgrees {s : State} (h : s.controlAgrees = true) (hc : s.gCnt.toNat < 8) :
    (stored s).controlAgrees = true := by
  rw [controlAgrees_iff] at h ⊢
  intro j hj
  have hl : s.gTok.toList.length = 8 := by simp
  have hcnt : (stored s).gCnt.toNat = s.gCnt.toNat + 1 := gCnt_succ hc
  have htok : (stored s).gTok.toList = s.gTok.toList.set s.gCnt.toNat s.t := by
    simp [Vector.toList_setIfInBounds]
  have hbit : controlBit (stored s).gCtrl j = (controlBit s.gCtrl j || (isMatch s.t && decide (j = s.gCnt.toNat))) := by
    simp only [stored_fields]
    cases isMatch s.t with
    | false => simp
    | true => simp [controlBit_set _ _ _ hj]
  rw [hbit, hcnt, htok, h j hj]
  by_cases he : j = s.gCnt.toNat
  · subst he
    simp [hl, hc]
  · have : (s.gTok.toList.set s.gCnt.toNat s.t).getD j ⟨0, 0, 0⟩ = s.gTok.toList.getD j ⟨0, 0, 0⟩ := by
      simp only [List.getD_eq_getElem?_getD]
      rw [List.getElem?_set_ne (fun h => he h.symm)]
    rw [this]
    have : decide (j < s.gCnt.toNat + 1) = decide (j < s.gCnt.toNat) := by
      apply decide_eq_decide.2; omega
    rw [this]
    simp [he]

/-! ## The serializer -/

/-- Several slots written: their bytes appended. -/
theorem emitSlots_eq (sls : List Slot) (s : State) :
    emitSlots sls s = appendAll (sls.flatMap (tokenBytes s.cfg.order)) s := by
  induction sls generalizing s with
  | nil => rfl
  | cons sl rest ih =>
    simp only [emitSlots, emitSlot, List.flatMap_cons, appendAll_append]
    refine appendAll_andThen_congr ?_
    rw [ih, (appendedAll_frame _ s).cfg]

/-- The bytes of the group that ENC.FLUSH writes: the control byte, then each token (R106). -/
def State.groupBytes (s : State) : List Byte := s.gCtrl :: s.group.flatMap (tokenBytes s.cfg.order)

/-- ENC.FLUSH: the bytes of the group appended, then the group emptied. -/
theorem encFlush_eq {s : State} (h1 : 1 ≤ s.gCnt.toNat) (h2 : s.gCnt.toNat ≤ 8) :
    encFlush s = (appendAll s.groupBytes s).andThen fun a => .go (groupEmptied a) := by
  simp only [encFlush, h1, h2, and_self, if_true, State.groupBytes]
  rw [show s.gCtrl :: s.group.flatMap (tokenBytes s.cfg.order) = [s.gCtrl] ++ s.group.flatMap (tokenBytes s.cfg.order)
    from rfl, appendAll_append, ← append_eq_appendAll, Flow.andThen_assoc]
  rcases append_cases s.gCtrl s with ⟨_, h⟩ | ⟨_, h⟩
  · rw [h, Flow.go_andThen, Flow.go_andThen, emitSlots_eq]; rfl
  · rw [h]; rfl

/-- Everything ENC.FLUSH can do. -/
theorem encFlush_sat {s : State} (h : OutOk s) (h1 : 1 ≤ s.gCnt.toNat) (h2 : s.gCnt.toNat ≤ 8) :
    (encFlush s).Sat (fun t => t = groupEmptied (appendedAll s.groupBytes s) ∧ OutOk t) (EndOk s) := by
  rw [encFlush_eq h1 h2]
  refine (appendAll_sat _ h).andThen ?_
  rintro _ ⟨rfl, ho⟩
  exact ⟨rfl, ⟨by simpa using ho.dense, by simpa using ho.fits⟩⟩

theorem groupEmptied_frame (s : State) : Frame s (groupEmptied s) := by constructor <;> rfl

theorem stored_frame (s : State) : Frame s (stored s) := by constructor <;> rfl

theorem OutOk.of_frame {s t : State} (h : OutOk s) (hf : t.cfg = s.cfg) (ho : t.ob = s.ob) (hl : t.outLen = s.outLen) :
    OutOk t := ⟨by rw [ho, hl]; exact h.dense, by rw [hf, hl]; exact h.fits⟩

/-- Everything ENC.PUSH can do: the token is stored; with the eighth the group is flushed. -/
theorem encPush_sat {s : State} (h : OutOk s) (hc : s.gCnt.toNat < 8) :
    (encPush s).Sat
      (fun t => OutOk t ∧ (s.gCnt.toNat < 7 ∧ t = stored s ∨
        s.gCnt.toNat = 7 ∧ t = groupEmptied (appendedAll (stored s).groupBytes (stored s)))) (EndOk s) := by
  have hcnt : (stored s).gCnt.toNat = s.gCnt.toNat + 1 := gCnt_succ hc
  have ho : OutOk (stored s) := h.of_frame rfl rfl rfl
  simp only [encPush, hc, if_true]
  split
  · rename_i h8
    refine (encFlush_sat ho (by omega) (by omega)).mono ?_ (fun u => EndOk.of_frame (stored_frame s))
    rintro t ⟨rfl, h'⟩
    exact ⟨h', .inr ⟨by omega, rfl⟩⟩
  · rename_i h8
    exact ⟨ho, .inl ⟨by omega, rfl⟩⟩

/-- Everything ENC.END can do: the command completes. -/
theorem encEnd_sat {s : State} (h : OutOk s) (hc : s.gCnt.toNat ≤ 8) :
    (encEnd s).Sat (fun _ => False) (EndOk s) := by
  unfold encEnd
  split
  · rename_i hp
    refine (encFlush_sat h hp hc).andThen ?_
    rintro t ⟨rfl, ho⟩
    exact EndOk.of_frame ((appendedAll_frame _ _).trans (groupEmptied_frame _)) (complete_endOk ho)
  · exact complete_endOk h

/-! ## The token mux -/

/-- Everything ENC.START can do (R101). -/
theorem encStart_sat (s : State) :
    (encStart s).Sat (fun t => s.inLen ≠ 0 ∧ t = { clearOutput s with pos := 0, gCnt := 0, gCtrl := 0 }) (EndOk s) := by
  unfold encStart
  split
  · exact errorEntry_endOk _ _
  · exact ⟨‹_›, rfl⟩

/-- MAT.FIND's result is within the bounds of R25 and R87; only the matcher's registers are written. -/
theorem matFind_sat {s : State} (hd : s.ib.dense s.inLen) (hp : s.pos ≤ s.inLen) (Q : State → Prop) :
    (matFind s).Sat (fun t =>
      t = { s with mLo := t.mLo, mI := t.mI, mK := t.mK, mBoff := t.mBoff, mBlen := t.mBlen } ∧
      (t.mBoff.toNat, t.mBlen.toNat) =
        refFind s.ib.bytes s.pos s.cfg.windowSize.val s.cfg.lookaheadSize.val ∧ t.matcherOk) Q := by
  obtain ⟨t, h1, h2, h3⟩ := matFind_fold hd hp
  rw [fold_eq_refFind] at h3
  rw [h1]
  have hl := Memory.bytes_length hd
  have e1 : t.cfg = s.cfg := by rw [h2]
  have e2 : t.pos = s.pos := by rw [h2]
  have e3 : t.inLen = s.inLen := by rw [h2]
  refine ⟨by rw [h2], h3, ?_⟩
  have ho : t.mBoff.toNat = (refFind s.ib.bytes s.pos s.cfg.windowSize.val s.cfg.lookaheadSize.val).1 := by rw [← h3]
  have hb : t.mBlen.toNat = (refFind s.ib.bytes s.pos s.cfg.windowSize.val s.cfg.lookaheadSize.val).2 := by rw [← h3]
  rw [State.matcherOk, e1, e2, e3]
  by_cases hz : (refFind s.ib.bytes s.pos s.cfg.windowSize.val s.cfg.lookaheadSize.val).2 = 0
  · left
    have hz1 : (refFind s.ib.bytes s.pos s.cfg.windowSize.val s.cfg.lookaheadSize.val).1 = 0 := by
      unfold refFind at hz ⊢
      split
      · rfl
      · rename_i h0
        rw [if_neg h0] at hz
        split at hz
        · rfl
        · exact absurd hz h0
    exact ⟨BitVec.eq_of_toNat_eq (by simp [hb, hz]), BitVec.eq_of_toNat_eq (by simp [ho, hz1])⟩
  · right
    obtain ⟨a1, a2, a3, a4, _⟩ := refFind_spec _ _ _ _ hz
    rw [ho, hb]
    exact ⟨by omega, a1, a2, a3, by omega⟩

/-- Everything ENC.SELECT can do (R102). -/
theorem encSelect_sat {s : State} (hd : s.ib.dense s.inLen) (hp : s.pos ≤ s.inLen) (Q : State → Prop) :
    (encSelect s).Sat (fun t =>
      t = { s with mLo := t.mLo, mI := t.mI, mK := t.mK, mBoff := t.mBoff, mBlen := t.mBlen } ∧
      (s.cfg.windowSize.val ≤ s.pos → t.matcherOk ∧ (t.mBoff.toNat, t.mBlen.toNat) =
        refFind s.ib.bytes s.pos s.cfg.windowSize.val s.cfg.lookaheadSize.val)) Q := by
  unfold encSelect
  split
  · exact ⟨rfl, fun h => by omega⟩
  · exact (matFind_sat hd hp Q).mono (fun t h => ⟨h.1, fun _ => ⟨h.2.2, h.2.1⟩⟩) (fun _ h => h)

/-- ENC.LIT (R103). -/
theorem encLit_eq {s : State} {b : Byte} (h : s.readIB s.pos = some b) :
    encLit s = .go { s with t := ⟨0, 0, b⟩, pos := s.pos + 1 } := by
  simp [encLit, h]

/-- ENC.MATCH (R104). -/
theorem encMatch_eq {s : State} {nb : Byte} (h : s.nextByte = some nb) :
    encMatch s = .go { s with t := ⟨s.mBoff, s.mBlen, nb⟩, pos := s.pos + s.mBlen.toNat + 1 } := by
  simp [encMatch, h]

/-- The next_byte of a Match is there or is the sentinel (R104). -/
theorem nextByte_eq {s : State} (hd : s.ib.dense s.inLen) :
    s.nextByte = some (refNext s.ib.bytes s.pos s.mBlen.toNat) := by
  have hl := Memory.bytes_length hd
  unfold State.nextByte refNext refByte
  rw [hl]
  split
  · obtain ⟨b, h1, h2⟩ := readIB_some hd ‹_›
    simp [h1, h2]
  · rfl

/-! ## What holds between the encoder's operations -/

/-- What every operation of the encoder finds and leaves. -/
structure EncInv (s : State) : Prop where
  dense : s.ib.dense s.inLen
  out : OutOk s
  pos : s.pos ≤ s.inLen + 1
  cnt : s.gCnt.toNat ≤ 7
  ctl : s.controlAgrees = true

/-- ENC.SELECT writes the matcher's registers only. -/
theorem select_encInv {s t : State} (h : EncInv s)
    (e : t = { s with mLo := t.mLo, mI := t.mI, mK := t.mK, mBoff := t.mBoff, mBlen := t.mBlen }) :
    EncInv t ∧ Frame s t ∧ t.pos = s.pos ∧ t.t = s.t ∧ t.gTok = s.gTok ∧ t.gCnt = s.gCnt ∧ t.gCtrl = s.gCtrl ∧ t.ob = s.ob ∧ t.outLen = s.outLen := by
  rw [e]
  refine ⟨⟨h.dense, ⟨h.out.dense, h.out.fits⟩, h.pos, h.cnt, h.ctl⟩, ?_, rfl, rfl, rfl, rfl, rfl, rfl, rfl⟩
  constructor <;> rfl

/-- The token is formed (ENC.LIT or ENC.MATCH). -/
theorem emit_sat {s : State} (h : EncInv s) (hp : s.pos < s.inLen)
    (hm : s.cfg.windowSize.val ≤ s.pos → s.matcherOk) (Q : State → Prop) :
    (if s.wantsMatch then encMatch s else encLit s).Sat (fun t => EncInv t ∧ Frame s t ∧
      (t.t.off = 0 → t.t.len = 0) ∧ s.pos < t.pos ∧ t = { s with t := t.t, pos := t.pos }) Q := by
  cases hw : s.wantsMatch with
  | true =>
    simp only [State.wantsMatch, State.found, Bool.and_eq_true, Bool.not_eq_true', decide_eq_false_iff_not,
      Nat.not_lt, bne_iff_ne] at hw
    have hmo := hm hw.1
    have hbl : s.pos + s.mBlen.toNat ≤ s.inLen ∧ s.mBoff ≠ 0 := by
      rcases hmo with h' | h'
      · exact absurd h'.1 hw.2
      · refine ⟨h'.2.2.2.2, fun h0 => ?_⟩
        have : s.mBoff.toNat = 0 := by rw [h0]; rfl
        omega
    simp only [if_true, encMatch_eq (nextByte_eq h.dense)]
    refine ⟨⟨h.dense, ⟨h.out.dense, h.out.fits⟩, ?_, h.cnt, h.ctl⟩, ?_, fun h0 => absurd h0 hbl.2, ?_, rfl⟩
    · show s.pos + s.mBlen.toNat + 1 ≤ s.inLen + 1; omega
    · constructor <;> rfl
    · show s.pos < s.pos + s.mBlen.toNat + 1; omega
  | false =>
    obtain ⟨b, hb, _⟩ := readIB_some h.dense hp
    simp only [Bool.false_eq_true, if_false, encLit_eq hb]
    refine ⟨⟨h.dense, ⟨h.out.dense, h.out.fits⟩, ?_, h.cnt, h.ctl⟩, ?_, fun _ => rfl, ?_, rfl⟩
    · show s.pos + 1 ≤ s.inLen + 1; omega
    · constructor <;> rfl
    · show s.pos < s.pos + 1; omega

/-- ENC.PUSH keeps it. -/
theorem push_sat {s : State} (h : EncInv s) :
    (encPush s).Sat (fun t => EncInv t ∧ Frame s t ∧ t.pos = s.pos) (EndOk s) := by
  have hc : s.gCnt.toNat < 8 := by have := h.cnt; omega
  refine (encPush_sat h.out hc).mono ?_ (fun _ h => h)
  rintro t ⟨ho, ⟨h7, rfl⟩ | ⟨h7, rfl⟩⟩
  · refine ⟨⟨h.dense, ho, h.pos, ?_, stored_controlAgrees h.ctl hc⟩, stored_frame s, rfl⟩
    show (s.gCnt + 1).toNat ≤ 7
    rw [gCnt_succ hc]; omega
  · have hf := (stored_frame s).trans ((appendedAll_frame (stored s).groupBytes (stored s)).trans (groupEmptied_frame _))
    refine ⟨⟨?_, ho, ?_, by simp, controlAgrees_zero (by simp) (by simp)⟩, hf, ?_⟩
    · rw [hf.ib, hf.inLen]; exact h.dense
    · rw [hf.inLen]
      have : (groupEmptied (appendedAll (stored s).groupBytes (stored s))).pos = s.pos := by
        rw [appendedAll_eq]; rfl
      rw [this]; exact h.pos
    · rw [appendedAll_eq]; rfl

/-- One pass of the loop keeps it, and raises POS (R201). -/
theorem encPass_sat {s : State} (h : EncInv s) (hp : s.pos < s.inLen) :
    (encPass s).Sat (fun t => EncInv t ∧ Frame s t ∧ s.pos < t.pos) (EndOk s) := by
  unfold encPass
  refine (encSelect_sat h.dense (by omega) (EndOk s)).andThen ?_
  rintro a ⟨ha, hm⟩
  obtain ⟨hi, hf, hpos, _⟩ := select_encInv h ha
  have hc : a.cfg = s.cfg := hf.cfg
  refine (emit_sat hi (by rw [hpos, hf.inLen]; exact hp) (fun hw => (hm (by rw [← hpos, ← hc]; exact hw)).1) _).andThen ?_
  rintro b ⟨hi', hf', _, hlt, _⟩
  refine (push_sat hi').mono ?_ (fun u hu => hu.of_frame (hf.trans hf'))
  rintro t ⟨h1, h2, h3⟩
  exact ⟨h1, hf.trans (hf'.trans h2), by omega⟩

/-- The loop of ENC.RUN completes the command. -/
theorem encLoop_sat (n : Nat) {s : State} (h : EncInv s) (hn : s.inLen ≤ n + s.pos) :
    (encLoop n s).Sat (fun _ => False) (EndOk s) := by
  induction n generalizing s with
  | zero =>
    unfold encLoop
    rw [if_neg (by omega)]
    exact encEnd_sat h.out (by have := h.cnt; omega)
  | succ n ih =>
    unfold encLoop
    split
    · rename_i hp
      refine (encPass_sat h hp).andThen ?_
      rintro a ⟨ha, hf, hlt⟩
      exact (ih ha (by rw [hf.inLen]; omega)).mono (fun _ h => h) (fun u hu => hu.of_frame hf)
    · exact encEnd_sat h.out (by have := h.cnt; omega)

/-- ENC.START establishes it. -/
theorem encStart_inv {s : State} (hd : s.ib.dense s.inLen) :
    (encStart s).Sat (fun t => s.inLen ≠ 0 ∧ EncInv t ∧ Frame s t ∧ t.pos = 0 ∧ t.outLen = 0 ∧ t.gCnt = 0) (EndOk s) := by
  refine (encStart_sat s).mono ?_ (fun _ h => h)
  rintro t ⟨h0, rfl⟩
  refine ⟨h0, ⟨hd, OutOk.of_empty rfl rfl, by simp, by simp, controlAgrees_zero rfl rfl⟩, ?_, rfl, rfl, rfl⟩
  constructor <;> rfl

/-- ENC.RUN completes the command. -/
theorem encRun_sat {s : State} (hd : s.ib.dense s.inLen) : (encRun s).Sat (fun _ => False) (EndOk s) := by
  unfold encRun
  refine (encStart_inv hd).andThen ?_
  rintro a ⟨_, ha, hf, _⟩
  exact (encLoop_sat _ ha (by omega)).mono (fun _ h => h) (fun u hu => hu.of_frame hf)

end Sys2Proof.Machine
end

