-- ==== Sys2Proof/Laws/Decoder.lean ====
section
/-! SUPPORT. What the operations of the decoder can do, said once each. -/

namespace Sys2Proof.Machine

/-! ## Reading the stream -/

/-- A 16-bit field whose two bytes are valid. -/
theorem readU16_eq {s : State} {a : Nat} {b0 b1 : Byte} (h0 : s.readIB a = some b0) (h1 : s.readIB (a + 1) = some b1) :
    s.readU16 a = some (u16Of s.cfg.order b0 b1) := by
  simp [State.readU16, h0, h1]

theorem readIB_lt {s : State} {a : Nat} {b : Byte} (h : s.readIB a = some b) : a < s.inLen := by
  unfold State.readIB at h
  split at h
  · assumption
  · simp at h

/-! ## The deserializer -/

/-- Everything DEC.CTRL can do (R122). -/
theorem decCtrl_sat {s : State} (hd : s.ib.dense s.inLen) (ho : OutOk s) :
    (decCtrl s).Sat (fun t => s.rp < s.inLen ∧ ∃ f, s.readIB s.rp = some f ∧ t = controlRead f s) (EndOk s) := by
  unfold decCtrl
  split
  · exact complete_endOk ho
  · rename_i h
    simp only [State.avail] at h
    obtain ⟨f, hf, _⟩ := readIB_some hd (a := s.rp) (by omega)
    rw [hf]
    exact ⟨by omega, f, rfl, rfl⟩

/-- Everything reading a Literal can do (R124). -/
theorem literalRead_sat (b : Byte) {s : State} (ho : OutOk s) :
    (literalRead b s).Sat (fun t => OutOk t ∧ t = { appended b s with rp := s.rp + 1 }) (EndOk s) := by
  refine (append_sat b ho).andThen ?_
  rintro _ ⟨rfl, h⟩
  exact ⟨⟨h.dense, h.fits⟩, rfl⟩

/-- Everything DEC.LIT can do (R124). -/
theorem decLit_sat {s : State} (hd : s.ib.dense s.inLen) (ho : OutOk s) (hr : s.rp < s.inLen) :
    (decLit s).Sat (fun t => OutOk t ∧ ∃ b, s.readIB s.rp = some b ∧ t = { appended b s with rp := s.rp + 1 })
      (EndOk s) := by
  obtain ⟨b, hb, _⟩ := readIB_some hd hr
  unfold decLit
  rw [hb]
  exact (literalRead_sat b ho).mono (fun t h => ⟨h.1, b, rfl, h.2⟩) (fun _ h => h)

/-- Everything DEC.FETCH_OFF can do (R125). -/
theorem decFetchOff_sat {s : State} (hd : s.ib.dense s.inLen) (ho : OutOk s) :
    (decFetchOff s).Sat
      (fun t => ∃ b0 b1, s.readIB s.rp = some b0 ∧ s.readIB (s.rp + 1) = some b1 ∧
        t = offsetRead (u16Of s.cfg.order b0 b1) s) (EndOk s) := by
  unfold decFetchOff
  split
  · exact complete_endOk ho
  · split
    · exact errorEntry_endOk _ _
    · rename_i h0 h1
      simp only [State.avail] at h0 h1
      obtain ⟨b0, hb0, _⟩ := readIB_some hd (a := s.rp) (by omega)
      obtain ⟨b1, hb1, _⟩ := readIB_some hd (a := s.rp + 1) (by omega)
      rw [readU16_eq hb0 hb1]
      exact ⟨b0, b1, hb0, hb1, rfl⟩

/-- Everything DEC.FETCH_LEN can do (R126). -/
theorem decFetchLen_sat {s : State} (hd : s.ib.dense s.inLen) :
    (decFetchLen s).Sat
      (fun t => ∃ b0 b1, s.readIB s.rp = some b0 ∧ s.readIB (s.rp + 1) = some b1 ∧
        t = lengthRead (u16Of s.cfg.order b0 b1) s) (EndOk s) := by
  unfold decFetchLen
  split
  · exact errorEntry_endOk _ _
  · rename_i h0
    simp only [State.avail] at h0
    obtain ⟨b0, hb0, _⟩ := readIB_some hd (a := s.rp) (by omega)
    obtain ⟨b1, hb1, _⟩ := readIB_some hd (a := s.rp + 1) (by omega)
    rw [readU16_eq hb0 hb1]
    exact ⟨b0, b1, hb0, hb1, rfl⟩

/-- Everything DEC.FETCH_NXT can do (R127). -/
theorem decFetchNxt_sat {s : State} (hd : s.ib.dense s.inLen) :
    (decFetchNxt s).Sat (fun t => ∃ b, s.readIB s.rp = some b ∧ t = nextRead b s) (EndOk s) := by
  unfold decFetchNxt
  split
  · exact errorEntry_endOk _ _
  · rename_i h0
    simp only [State.avail] at h0
    obtain ⟨b, hb, _⟩ := readIB_some hd (a := s.rp) (by omega)
    rw [hb]
    exact ⟨b, rfl, rfl⟩

/-! ## The replay unit -/

/-- Everything DEC.CHECK can do (R128). -/
theorem decCheck_sat (s : State) :
    (decCheck s).Sat (fun t => t = s ∧ s.dOff ≠ 0 ∧ s.dOff.toNat ≤ s.outLen) (EndOk s) := by
  unfold decCheck
  split
  · exact errorEntry_endOk _ _
  · rename_i h
    rw [not_or] at h
    exact ⟨rfl, h.1, by omega⟩

/-- The reference copy appends to the output. -/
theorem refCopy_append (n start : Nat) (out : List Byte) :
    ∃ c, c.length = n ∧ refCopy n start out = out ++ c := by
  induction n generalizing start out with
  | zero => exact ⟨[], rfl, by simp [refCopy]⟩
  | succ n ih =>
    obtain ⟨c, h1, h2⟩ := ih (start + 1) (out ++ [(out[start]?).getD 0])
    exact ⟨(out[start]?).getD 0 :: c, by simp [h1], by rw [refCopy, h2, List.append_assoc]; rfl⟩

/-- A byte-serial copy repeats the last bytes of the output cyclically (R51, R129, R193). -/
theorem refCopy_cyclic (n start : Nat) (out : List Byte) (hs : start < out.length) (j : Nat) (hj : j < n) :
    (refCopy n start out)[out.length + j]? = out[start + j % (out.length - start)]? := by
  have key : ∀ (n start : Nat) (out : List Byte), start < out.length → ∀ j, j < out.length + n →
      (refCopy n start out)[j]? =
        if j < out.length then out[j]? else out[start + (j - out.length) % (out.length - start)]? := by
    intro n
    induction n with
    | zero => intro start out _ j hj; simp [refCopy]; omega
    | succ n ih =>
      intro start out hs j hj
      have hx : out[start]? = some out[start] := by simp [hs]
      rw [refCopy, ih (start + 1) (out ++ [(out[start]?).getD 0]) (by simp; omega) j (by simp; omega)]
      simp only [List.length_append, List.length_cons, List.length_nil, Nat.zero_add, hx, Option.getD_some]
      by_cases h1 : j < out.length
      · rw [if_pos (by omega), if_pos h1, List.getElem?_append_left h1]
      · rw [if_neg h1]
        by_cases h2 : j = out.length
        · subst h2
          rw [if_pos (by omega)]
          simp [hs]
        · rw [if_neg (by omega)]
          have ho : out.length + 1 - (start + 1) = out.length - start := by omega
          rw [ho]
          have hpos : 0 < out.length - start := by omega
          have hlt := Nat.mod_lt (j - (out.length + 1)) hpos
          have hdm := Nat.div_add_mod (j - (out.length + 1)) (out.length - start)
          have hj' : j - out.length = (j - (out.length + 1)) + 1 := by omega
          by_cases h3 : (j - (out.length + 1)) % (out.length - start) + 1 < out.length - start
          · have hm : (j - out.length) % (out.length - start) =
                (j - (out.length + 1)) % (out.length - start) + 1 := by
              rw [hj', Nat.add_mod, Nat.mod_eq_of_lt (a := 1) (by omega), Nat.mod_eq_of_lt h3]
            rw [hm, List.getElem?_append_left (by omega)]
            congr 1; omega
          · have h4 : (j - (out.length + 1)) % (out.length - start) + 1 = out.length - start := by omega
            have hm : (j - out.length) % (out.length - start) = 0 := by
              rw [hj', ← Nat.mod_add_mod, h4, Nat.mod_self]
            rw [hm, show start + 1 + (j - (out.length + 1)) % (out.length - start) = out.length by omega]
            simp [hs]
  rw [key n start out hs _ (by omega), if_neg (by omega)]
  congr 3
  omega

/-- DEC.COPY's loop: all the bytes of the reference copy are appended, or an append does not fit. -/
theorem copyBytes_cases (n : Nat) {s : State} (ho : OutOk s) (hs : s.dSrc < s.outLen) :
    (s.roomFor n = true ∧ ∃ c, c.length = n ∧ refCopy n s.dSrc s.ob.bytes = s.ob.bytes ++ c ∧
      copyBytes n s = .go { appendedAll c s with dSrc := s.dSrc + n, dRem := s.dRem - BitVec.ofNat 16 n }) ∨
    (s.roomFor n = false ∧ ∃ u, Frame s u ∧ copyBytes n s = .ended (errorEntry .capacity u)) := by
  induction n generalizing s with
  | zero =>
    refine .inl ⟨ho.roomFor_zero, [], rfl, by simp [refCopy], ?_⟩
    simp only [copyBytes, appendedAll_nil, Nat.add_zero]
    congr 1
    simp
  | succ n ih =>
    have hl := Memory.bytes_length ho.dense
    have hlt : s.dSrc < s.ob.bytes.length := by omega
    have hr : s.readOB s.dSrc = some s.ob.bytes[s.dSrc] := by
      simp [State.readOB, hs, Memory.read_dense ho.dense, hlt]
    simp only [copyBytes, hr]
    rcases append_cases s.ob.bytes[s.dSrc] s with ⟨h1, h2⟩ | ⟨h1, h2⟩
    · rw [h2, Flow.go_andThen]
      have ho1 : OutOk (appended s.ob.bytes[s.dSrc] s) := ho.appendedAll (bytes := [_]) h1
      have ho2 : OutOk { appended s.ob.bytes[s.dSrc] s with
          dSrc := (appended s.ob.bytes[s.dSrc] s).dSrc + 1, dRem := (appended s.ob.bytes[s.dSrc] s).dRem - 1 } :=
        ⟨ho1.dense, ho1.fits⟩
      have hroom : State.roomFor { appended s.ob.bytes[s.dSrc] s with
          dSrc := (appended s.ob.bytes[s.dSrc] s).dSrc + 1,
          dRem := (appended s.ob.bytes[s.dSrc] s).dRem - 1 } n = s.roomFor (n + 1) :=
        roomFor_appended s s.ob.bytes[s.dSrc] n
      have hb : (appended s.ob.bytes[s.dSrc] s).ob.bytes = s.ob.bytes ++ [s.ob.bytes[s.dSrc]] := by
        simp [Memory.bytes_write ho.dense]
      rcases ih ho2 (by simp; omega) with ⟨h3, c, h4, h5, h6⟩ | ⟨h3, u, h4, h5⟩
      · left
        rw [hroom] at h3
        refine ⟨h3, s.ob.bytes[s.dSrc] :: c, by simp [h4], ?_, ?_⟩
        · simp only [hb] at h5
          simp only [appended_fields] at h5
          simp [refCopy, hlt, h5]
        · rw [h6, appendedAll_cons, appendedAll_eq c, appendedAll_eq c (appended _ s)]
          rw [appendedAll_ob_congr c (a := { appended s.ob.bytes[s.dSrc] s with
              dSrc := (appended s.ob.bytes[s.dSrc] s).dSrc + 1,
              dRem := (appended s.ob.bytes[s.dSrc] s).dRem - 1 }) (b := appended s.ob.bytes[s.dSrc] s) rfl rfl]
          have : s.dRem - 1 - BitVec.ofNat 16 n = s.dRem - BitVec.ofNat 16 (n + 1) := by
            rw [BitVec.sub_sub]; congr 1
            apply BitVec.eq_of_toNat_eq; simp [Nat.add_comm]
          simp only [appended_fields, this, Nat.add_assoc, Nat.add_comm 1 n]
      · right
        rw [hroom] at h3
        refine ⟨h3, u, Frame.trans ?_ h4, h5⟩
        constructor <;> rfl
    · right
      refine ⟨?_, s, Frame.refl s, by rw [h2]; rfl⟩
      by_contra hc
      rw [Bool.not_eq_false] at hc
      have := roomFor_mono (n := 1) (by omega) hc
      simp [h1] at this

/-- DEC.COPY with a legal offset (R129). -/
theorem decCopy_cases {s : State} (ho : OutOk s) (h0 : s.dOff ≠ 0) (h1 : s.dOff.toNat ≤ s.outLen) :
    (s.roomFor s.dLen.toNat = true ∧ ∃ c, c.length = s.dLen.toNat ∧
      refCopy s.dLen.toNat (s.outLen - s.dOff.toNat) s.ob.bytes = s.ob.bytes ++ c ∧
      decCopy s = .go { appendedAll c s with dSrc := s.outLen - s.dOff.toNat + s.dLen.toNat, dRem := 0 }) ∨
    (s.roomFor s.dLen.toNat = false ∧ ∃ u, Frame s u ∧ decCopy s = .ended (errorEntry .capacity u)) := by
  have hpos : 0 < s.dOff.toNat := by
    rcases Nat.eq_zero_or_pos s.dOff.toNat with h | h
    · exact absurd (BitVec.eq_of_toNat_eq (by simpa using h)) h0
    · exact h
  have e : decCopy s = copyBytes s.dLen.toNat { s with dSrc := s.outLen - s.dOff.toNat, dRem := s.dLen } := by
    simp [decCopy, h1]
  rw [e]
  have ho' : OutOk { s with dSrc := s.outLen - s.dOff.toNat, dRem := s.dLen } := ⟨ho.dense, ho.fits⟩
  rcases copyBytes_cases s.dLen.toNat ho' (by simp; omega) with ⟨h2, c, h3, h4, h5⟩ | ⟨h2, u, h3, h4⟩
  · refine .inl ⟨h2, c, h3, h4, ?_⟩
    rw [h5, appendedAll_eq c, appendedAll_eq c s]
    rw [appendedAll_ob_congr c (a := { s with dSrc := s.outLen - s.dOff.toNat, dRem := s.dLen }) (b := s) rfl rfl]
    have hz : s.dLen - BitVec.ofNat 16 s.dLen.toNat = 0 := by simp
    simp only [hz]
  · exact .inr ⟨h2, u, Frame.trans (by constructor <;> rfl) h3, h4⟩

/-- What the copy and the append of a Match leave alone. -/
structure ReplayFrame (s t : State) : Prop extends Frame s t where
  rp : t.rp = s.rp
  dCtrl : t.dCtrl = s.dCtrl
  dBit : t.dBit = s.dBit

/-- Everything DEC.COPY can do. -/
theorem decCopy_sat {s : State} (ho : OutOk s) (h0 : s.dOff ≠ 0) (h1 : s.dOff.toNat ≤ s.outLen) :
    (decCopy s).Sat (fun t => OutOk t ∧ ReplayFrame s t ∧ t.dNxt = s.dNxt ∧
      t.ob.bytes = refCopy s.dLen.toNat (s.outLen - s.dOff.toNat) s.ob.bytes ∧
      t.outLen = s.outLen + s.dLen.toNat) (EndOk s) := by
  rcases decCopy_cases ho h0 h1 with ⟨h2, c, h3, h4, h5⟩ | ⟨h2, u, h3, h4⟩
  · rw [h5]
    have hoc := ho.appendedAll (bytes := c) (by rw [h3]; exact h2)
    refine ⟨⟨hoc.dense, hoc.fits⟩, ?_, ?_, ?_, ?_⟩
    · rw [appendedAll_eq]; constructor <;> first | rfl | (constructor <;> rfl)
    · rw [appendedAll_eq]
    · rw [h4]; exact (appendedAll_bytes ho.dense c).1
    · simp [h3]
  · rw [h4]
    exact EndOk.of_frame h3 (errorEntry_endOk _ _)

/-! ## What holds between the decoder's operations -/

/-- What every operation of the decoder finds and leaves. -/
structure DecInv (s : State) : Prop where
  dense : s.ib.dense s.inLen
  out : OutOk s
  rp : s.rp ≤ s.inLen

/-- DEC.FETCH_OFF keeps it. -/
theorem decInv_fetch {s : State} (h : DecInv s) :
    (decFetchOff s).Sat (fun t => DecInv t ∧ Frame s t ∧ t.rp = s.rp + 2 ∧ t.dBit = s.dBit ∧ t.dCtrl = s.dCtrl) (EndOk s) := by
  refine (decFetchOff_sat h.dense h.out).mono ?_ (fun _ h => h)
  rintro t ⟨b0, b1, h0, h1, rfl⟩
  refine ⟨⟨h.dense, ⟨h.out.dense, h.out.fits⟩, ?_⟩, by constructor <;> rfl, rfl, rfl, rfl⟩
  have := readIB_lt h1; show s.rp + 2 ≤ s.inLen; omega

/-- DEC.FETCH_LEN keeps it. -/
theorem decInv_len {s : State} (h : DecInv s) :
    (decFetchLen s).Sat (fun t => DecInv t ∧ Frame s t ∧ t.rp = s.rp + 2 ∧ t.dBit = s.dBit ∧ t.dCtrl = s.dCtrl) (EndOk s) := by
  refine (decFetchLen_sat h.dense).mono ?_ (fun _ h => h)
  rintro t ⟨b0, b1, h0, h1, rfl⟩
  refine ⟨⟨h.dense, ⟨h.out.dense, h.out.fits⟩, ?_⟩, by constructor <;> rfl, rfl, rfl, rfl⟩
  have := readIB_lt h1; show s.rp + 2 ≤ s.inLen; omega

/-- DEC.FETCH_NXT keeps it. -/
theorem decInv_nxt {s : State} (h : DecInv s) :
    (decFetchNxt s).Sat (fun t => DecInv t ∧ Frame s t ∧ t.rp = s.rp + 1 ∧ t.dBit = s.dBit ∧ t.dCtrl = s.dCtrl) (EndOk s) := by
  refine (decFetchNxt_sat h.dense).mono ?_ (fun _ h => h)
  rintro t ⟨b0, h0, rfl⟩
  refine ⟨⟨h.dense, ⟨h.out.dense, h.out.fits⟩, ?_⟩, by constructor <;> rfl, rfl, rfl, rfl⟩
  have := readIB_lt h0; show s.rp + 1 ≤ s.inLen; omega

/-- DEC.COPY keeps it, for a legal offset. -/
theorem decInv_copy {s : State} (h : DecInv s) (h0 : s.dOff ≠ 0) (h1 : s.dOff.toNat ≤ s.outLen) :
    (decCopy s).Sat (fun t => DecInv t ∧ ReplayFrame s t) (EndOk s) := by
  refine (decCopy_sat h.out h0 h1).mono ?_ (fun _ h => h)
  rintro t ⟨ho, hf, _⟩
  exact ⟨⟨by rw [hf.ib, hf.inLen]; exact h.dense, ho, by rw [hf.rp, hf.inLen]; exact h.rp⟩, hf⟩

/-- DEC.NEXT keeps it. -/
theorem decInv_next {s : State} (h : DecInv s) :
    (decNext s).Sat (fun t => DecInv t ∧ ReplayFrame s t) (EndOk s) := by
  refine (append_sat s.dNxt h.out).mono ?_ (fun _ h => h)
  rintro t ⟨rfl, ho⟩
  exact ⟨⟨h.dense, ho, h.rp⟩, by constructor <;> first | rfl | (constructor <;> rfl)⟩

theorem ReplayFrame.trans {s t u : State} (h : ReplayFrame s t) (h' : ReplayFrame t u) : ReplayFrame s u :=
  ⟨h.toFrame.trans h'.toFrame, h'.rp.trans h.rp, h'.dCtrl.trans h.dCtrl, h'.dBit.trans h.dBit⟩

/-- Everything the replay of a Match can do. -/
theorem replay_sat {s : State} (h : DecInv s) : (replay s).Sat (fun t => DecInv t ∧ ReplayFrame s t) (EndOk s) := by
  unfold replay
  refine (decCheck_sat s).andThen ?_
  rintro a ⟨rfl, h0, h1⟩
  refine (decInv_copy h h0 h1).andThen ?_
  rintro b ⟨hb, hf⟩
  exact (decInv_next hb).mono (fun t ht => ⟨ht.1, hf.trans ht.2⟩) (fun u hu => hu.of_frame hf.toFrame)

/-- Everything the Match sequence can do: RP moves by 5 (R133). -/
theorem decMatch_sat {s : State} (h : DecInv s) :
    (decMatch s).Sat (fun t => DecInv t ∧ Frame s t ∧ t.rp = s.rp + 5 ∧ t.dBit = s.dBit ∧ t.dCtrl = s.dCtrl) (EndOk s) := by
  unfold decMatch
  refine (decInv_fetch h).andThen ?_
  rintro a ⟨ha, fa, ra, ba, ca⟩
  refine Flow.Sat.mono (Q := EndOk a) ?_ (fun _ h => h) (fun u hu => hu.of_frame fa)
  refine (decInv_len ha).andThen ?_
  rintro b ⟨hb, fb, rb, bb, cb⟩
  refine Flow.Sat.mono (Q := EndOk b) ?_ (fun _ h => h) (fun u hu => hu.of_frame fb)
  refine (decInv_nxt hb).andThen ?_
  rintro c ⟨hc, fc, rc, bc, cc⟩
  refine (replay_sat hc).mono ?_ (fun u hu => hu.of_frame fc)
  rintro t ⟨ht, hf⟩
  refine ⟨ht, fa.trans (fb.trans (fc.trans hf.toFrame)), by rw [hf.rp]; omega, by rw [hf.dBit, bc, bb, ba],
    by rw [hf.dCtrl, cc, cb, ca]⟩

/-- DEC.LIT keeps it. -/
theorem decInv_lit {s : State} (h : DecInv s) (hr : s.rp < s.inLen) :
    (decLit s).Sat (fun t => DecInv t ∧ Frame s t ∧ t.rp = s.rp + 1 ∧ t.dBit = s.dBit ∧ t.dCtrl = s.dCtrl) (EndOk s) := by
  refine (decLit_sat h.dense h.out hr).mono ?_ (fun _ h => h)
  rintro t ⟨ho, b, hb, rfl⟩
  exact ⟨⟨h.dense, ho, by show s.rp + 1 ≤ s.inLen; omega⟩, by constructor <;> rfl, rfl, rfl, rfl⟩

theorem dBit_succ {s : State} (h : s.dBit.toNat < 8) : (s.dBit + 1).toNat = s.dBit.toNat + 1 := by
  rw [BitVec.toNat_add]; apply Nat.mod_eq_of_lt; simp; omega

/-- Everything DEC.BIT can do where a byte is available. -/
theorem decBit_sat {s : State} (h : DecInv s) (hb : s.dBit.toNat < 8) (hr : s.avail ≠ 0) :
    (decBit s).Sat (fun t => DecInv t ∧ Frame s t ∧ s.rp < t.rp ∧ t.dBit = s.dBit + 1) (EndOk s) := by
  unfold decBit
  rw [if_neg hr, if_pos hb]
  simp only [State.avail] at hr
  refine Flow.Sat.andThen (P := fun t => DecInv t ∧ Frame s t ∧ s.rp < t.rp ∧ t.dBit = s.dBit) ?_ ?_
  · split
    · exact (decMatch_sat h).mono (fun t ht => ⟨ht.1, ht.2.1, by omega, ht.2.2.2.1⟩) (fun _ h => h)
    · exact (decInv_lit h (by omega)).mono (fun t ht => ⟨ht.1, ht.2.1, by omega, ht.2.2.2.1⟩) (fun _ h => h)
  · rintro t ⟨h1, h2, h3, h4⟩
    refine ⟨⟨h1.dense, ⟨h1.out.dense, h1.out.fits⟩, h1.rp⟩, h2.trans (by constructor <;> rfl), h3, ?_⟩
    show t.dBit + 1 = _
    rw [h4]

/-- The tokens of a group keep it. -/
theorem decTokens_sat (n : Nat) {s : State} (h : DecInv s) :
    (decTokens n s).Sat (fun t => DecInv t ∧ Frame s t ∧ s.rp ≤ t.rp) (EndOk s) := by
  induction n generalizing s with
  | zero => exact ⟨h, Frame.refl s, Nat.le_refl _⟩
  | succ n ih =>
    unfold decTokens
    split
    · rename_i hc
      refine (decBit_sat h hc.1 hc.2).andThen ?_
      rintro a ⟨ha, hf, hlt, _⟩
      exact (ih ha).mono (fun t ht => ⟨ht.1, hf.trans ht.2.1, by omega⟩) (fun u hu => hu.of_frame hf)
    · exact ⟨h, Frame.refl s, Nat.le_refl _⟩

/-- DEC.CTRL keeps it. -/
theorem decInv_ctrl {s : State} (h : DecInv s) :
    (decCtrl s).Sat (fun t => DecInv t ∧ Frame s t ∧ s.rp < s.inLen ∧ t.rp = s.rp + 1 ∧ t.dBit = 0) (EndOk s) := by
  refine (decCtrl_sat h.dense h.out).mono ?_ (fun _ h => h)
  rintro t ⟨hlt, f, hf, rfl⟩
  exact ⟨⟨h.dense, ⟨h.out.dense, h.out.fits⟩, by show s.rp + 1 ≤ s.inLen; omega⟩, by constructor <;> rfl, hlt, rfl, rfl⟩

/-- The outer loop of DEC.RUN completes the command. -/
theorem decLoop_sat (n : Nat) {s : State} (h : DecInv s) (hn : s.inLen < n + s.rp) :
    (decLoop n s).Sat (fun _ => False) (EndOk s) := by
  induction n generalizing s with
  | zero => have := h.rp; omega
  | succ n ih =>
    unfold decLoop
    refine (decInv_ctrl h).andThen ?_
    rintro a ⟨ha, fa, hlt, ra, _⟩
    refine Flow.Sat.mono (Q := EndOk a) ?_ (fun _ h => h) (fun u hu => hu.of_frame fa)
    refine (decTokens_sat 8 ha).andThen ?_
    rintro b ⟨hb, fb, rb⟩
    refine (ih hb (by rw [fb.inLen, fa.inLen]; omega)).mono (fun _ h => h) (fun u hu => hu.of_frame fb)

/-- DEC.START establishes it. -/
theorem decStart_sat (s : State) (hd : s.ib.dense s.inLen) :
    (decStart s).Sat (fun t => DecInv t ∧ Frame s t ∧ t.rp = 0 ∧ t.outLen = 0) (EndOk s) :=
  ⟨⟨hd, OutOk.of_empty rfl rfl, by show 0 ≤ _; omega⟩, by constructor <;> rfl, rfl, rfl⟩

/-- DEC.RUN completes the command. -/
theorem decRun_sat {s : State} (hd : s.ib.dense s.inLen) : (decRun s).Sat (fun _ => False) (EndOk s) := by
  unfold decRun
  refine (decStart_sat s hd).andThen ?_
  rintro a ⟨ha, hf, _⟩
  exact (decLoop_sat _ ha (by omega)).mono (fun _ h => h) (fun u hu => hu.of_frame hf)

end Sys2Proof.Machine
end

