-- ==== Sys2Proof/Laws/Stream.lean ====
section
/-! SUPPORT. Laws of the encodings and of the reference functions over byte lists: byte order, the stream of a list of
tokens, decoding it again. -/

namespace Sys2Proof.Machine

/-! ## Byte order -/

/-- A written field reads back (R45). -/
theorem u16_round (o : Order) (v : Half) (rest : List Byte) : ∃ b0 b1, u16Bytes o v ++ rest = b0 :: b1 :: rest ∧ u16Of o b0 b1 = v := by
  have key : v.extractLsb' 8 8 ++ v.extractLsb' 0 8 = v := by
    apply BitVec.eq_of_getLsbD_eq
    intro i hi
    rw [BitVec.getLsbD_append]
    by_cases h : i < 8
    · simp [h]
    · simp only [h, decide_false, BitVec.getLsbD_extractLsb']
      rw [show 8 + (i - 8) = i by omega]
      simp; omega
  cases o
  · exact ⟨_, _, rfl, key⟩
  · exact ⟨_, _, rfl, key⟩

/-- A read field writes back (R45). -/
theorem u16_back (o : Order) (b0 b1 : Byte) : u16Bytes o (u16Of o b0 b1) = [b0, b1] := by
  have lo : ∀ x y : Byte, (x ++ y : Half).extractLsb' 0 8 = y := by
    intro x y; apply BitVec.eq_of_getLsbD_eq; intro i hi
    rw [BitVec.getLsbD_extractLsb', BitVec.getLsbD_append]; simp [hi]
  have up : ∀ x y : Byte, (x ++ y : Half).extractLsb' 8 8 = x := by
    intro x y; apply BitVec.eq_of_getLsbD_eq; intro i hi
    rw [BitVec.getLsbD_extractLsb', BitVec.getLsbD_append]; simp [hi]
  cases o
  · show [(b1 ++ b0 : Half).extractLsb' 0 8, (b1 ++ b0 : Half).extractLsb' 8 8] = _
    rw [lo, up]
  · show [(b0 ++ b1 : Half).extractLsb' 8 8, (b0 ++ b1 : Half).extractLsb' 0 8] = _
    rw [lo, up]

/-- A field as a number: the high byte is worth 256 (R45). -/
theorem u16_nat (x y : Byte) : (x ++ y : Half).toNat = y.toNat + 256 * x.toNat := by
  rw [BitVec.toNat_append]
  have := Nat.shiftLeft_add_eq_or_of_lt (b := y.toNat) (i := 8) y.isLt x.toNat
  rw [← this, Nat.shiftLeft_eq]; omega

/-! ## The stream of a list of tokens -/

/-- The bound on the number of groups does not matter. -/
theorem refGroups_fuel (o : Order) (n m : Nat) (ts : List Slot) (hn : ts.length ≤ n) (hm : ts.length ≤ m) :
    refGroups n o ts = refGroups m o ts := by
  induction n generalizing m ts with
  | zero =>
    have : ts = [] := List.eq_nil_of_length_eq_zero (by omega)
    subst this
    cases m <;> rfl
  | succ n ih =>
    cases m with
    | zero =>
      have : ts = [] := List.eq_nil_of_length_eq_zero (by omega)
      subst this; rfl
    | succ m =>
      simp only [refGroups]
      split
      · rfl
      · rename_i h0
        have hpos : 0 < ts.length := List.length_pos_iff.2 h0
        rw [ih m (ts.drop 8) (by simp; omega) (by simp; omega)]

/-- No tokens, no bytes. -/
theorem refStream_nil (o : Order) : refStream o [] = [] := rfl

/-- The first group, then the rest (R61). -/
theorem refStream_step (o : Order) (ts : List Slot) (h : ts ≠ []) :
    refStream o ts = refGroup o (ts.take 8) ++ refStream o (ts.drop 8) := by
  have hpos : 0 < ts.length := List.length_pos_iff.2 h
  unfold refStream
  rw [refGroups_fuel o ts.length (ts.length + 1) ts (Nat.le_refl _) (by omega), refGroups, if_neg h,
    refGroups_fuel o ts.length (ts.drop 8).length (ts.drop 8) (by simp) (Nat.le_refl _)]

/-- Up to 8 tokens are one group. -/
theorem refStream_short (o : Order) (ts : List Slot) (h : ts ≠ []) (h8 : ts.length ≤ 8) : refStream o ts = refGroup o ts := by
  rw [refStream_step o ts h, List.take_of_length_le h8, List.drop_eq_nil_of_le h8, refStream_nil, List.append_nil]

/-- Eight tokens are a group of their own. -/
theorem refStream_full (o : Order) (g ts : List Slot) (h8 : g.length = 8) : refStream o (g ++ ts) = refGroup o g ++ refStream o ts := by
  have : g ++ ts ≠ [] := by intro h; have := congrArg List.length h; simp [h8] at this
  rw [refStream_step o _ this]
  congr 2
  · rw [← h8]; simp
  · rw [← h8]; simp

/-- Bit `j` of a control byte is set exactly when token `j` is a Match (R62). -/
theorem refControl_testBit (ts : List Slot) (j : Nat) : (refControl ts).testBit j = (decide (j < ts.length) && isMatch (ts.getD j ⟨0, 0, 0⟩)) := by
  induction ts generalizing j with
  | nil => simp [refControl]
  | cons t ts ih =>
    cases j with
    | zero =>
      simp only [refControl, Nat.testBit_zero]
      have h1 : ((if isMatch t = true then 1 else 0) + 2 * refControl ts) % 2 = if isMatch t = true then 1 else 0 := by
        split <;> omega
      rw [h1]
      cases hm : isMatch t <;> simp [hm]
    | succ j =>
      rw [Nat.testBit_succ]
      have : (refControl (t :: ts)) / 2 = refControl ts := by
        simp only [refControl]; split <;> omega
      rw [this, ih]
      simp

/-! ## The matcher -/

/-- A maximum is 0 exactly when everything is. -/
theorem foldl_max_pos (xs : List Nat) (a : Nat) : xs.foldl max a = 0 ↔ a = 0 ∧ ∀ x ∈ xs, x = 0 := by
  induction xs generalizing a with
  | nil => simp
  | cons x xs ih => simp only [List.foldl_cons, ih, List.mem_cons, forall_eq_or_imp, Nat.max_eq_zero_iff, and_assoc]

/-- A candidate has length 0 exactly when no byte is allowed or the first bytes differ. -/
theorem refLen_zero (b : List Byte) (pos l i : Nat) : refLen b pos l i = 0 ↔ refMaxLen b pos l i = 0 ∨ b[i]? ≠ b[pos]? := by
  unfold refLen
  cases hm : refMaxLen b pos l i with
  | zero => simp
  | succ m =>
    rw [List.range_succ_eq_map, List.takeWhile_cons]
    by_cases he : b[i]? = b[pos]?
    · simp [he]
    · simp [he]

/-- Nothing is found exactly when every length is 0. -/
theorem refFind_zero (b : List Byte) (pos w l : Nat) : refFind b pos w l = (0, 0) ↔ refBest b pos w l = 0 := by
  constructor
  · intro h
    by_contra hc
    unfold refFind at h
    rw [if_neg hc] at h
    split at h
    · rename_i hn
      have : ∃ i ∈ refCandidates pos w, refLen b pos l i = refBest b pos w l := by
        have key : ∀ (xs : List Nat) (a : Nat), xs.foldl max a = a ∨ xs.foldl max a ∈ xs := by
          intro xs
          induction xs with
          | nil => intro a; exact .inl rfl
          | cons x xs ihx =>
            intro a
            simp only [List.foldl_cons, List.mem_cons]
            rcases ihx (max a x) with h | h
            · rw [h]
              rcases Nat.le_total a x with hax | hax
              · right; left; exact Nat.max_eq_right hax
              · left; exact Nat.max_eq_left hax
            · right; right; exact h
        rcases key ((refCandidates pos w).map (refLen b pos l)) 0 with h | h
        · exact absurd h hc
        · obtain ⟨i, h1, h2⟩ := List.mem_map.1 h
          exact ⟨i, h1, h2⟩
      obtain ⟨i, h1, h2⟩ := this
      rw [List.find?_eq_none] at hn
      exact hn i h1 (by simp [h2])
    · simp at h; exact hc h.2
  · intro h; simp [refFind, h]

/-! ## Decoding a stream again -/

/-- One token applied to the output. -/
def applyTok (out : List Byte) (t : Slot) : Except ErrKind (List Byte) :=
  if isMatch t then refReplay t.off t.len t.byte out else .ok (out ++ [t.byte])

/-- Several tokens applied to the output, in order. -/
def applyToks (out : List Byte) (ts : List Slot) : Except ErrKind (List Byte) :=
  match ts with
  | [] => .ok out
  | t :: ts => match applyTok out t with | .ok o => applyToks o ts | .error e => .error e

/-- The tokens of a group decode to what they stand for. -/
theorem tokensDecode_ok (o : Order) (ctl : Byte) (n : Nat) (ts : List Slot) (rest out out' : List Byte) (hn : n ≤ 8) (hl : ts.length ≤ n)
    (hc : ∀ j, j < ts.length → controlBit ctl (8 - n + j) = isMatch (ts.getD j ⟨0, 0, 0⟩)) (hr : ts.length = n ∨ rest = [])
    (ha : applyToks out ts = .ok out') : refTokensDecode n o ctl (ts.flatMap (tokenBytes o) ++ rest) out = .ok (rest, out') := by
  induction n generalizing ts out with
  | zero =>
    have : ts = [] := List.eq_nil_of_length_eq_zero (by omega)
    subst this
    cases ha; rfl
  | succ n ih =>
    cases ts with
    | nil =>
      have : rest = [] := by simpa using hr
      subst this; cases ha; rfl
    | cons t ts =>
      have h0 := hc 0 (by simp)
      rw [show 8 - (n + 1) + 0 = 7 - n by omega] at h0
      simp only [List.getD_cons_zero] at h0
      have hrec : ∀ out1, applyToks out1 ts = .ok out' → refTokensDecode n o ctl (ts.flatMap (tokenBytes o) ++ rest) out1 = .ok (rest, out') := by
        intro out1 h1
        refine ih ts out1 (by omega) (by simp at hl; omega) (fun j hj => ?_) (by simpa using hr) h1
        have := hc (j + 1) (by simp; omega)
        rw [show 8 - (n + 1) + (j + 1) = 8 - n + j by omega] at this
        simpa using this
      rw [List.flatMap_cons, List.append_assoc]
      simp only [applyToks, applyTok] at ha
      cases hm : isMatch t with
      | false =>
        rw [hm] at ha h0
        simp only [Bool.false_eq_true, if_false] at ha
        simp only [tokenBytes, hm, Bool.false_eq_true, if_false, List.cons_append, List.nil_append, refTokensDecode, h0]
        exact hrec _ ha
      | true =>
        rw [hm] at ha h0
        simp only [if_true] at ha
        simp only [tokenBytes, hm, if_true, List.append_assoc]
        obtain ⟨o0, o1, e1, e2⟩ := u16_round o t.off (u16Bytes o t.len ++ ([t.byte] ++ (ts.flatMap (tokenBytes o) ++ rest)))
        obtain ⟨l0, l1, e3, e4⟩ := u16_round o t.len ([t.byte] ++ (ts.flatMap (tokenBytes o) ++ rest))
        rw [e1, e3]
        simp only [List.cons_append, List.nil_append, refTokensDecode, h0, if_true, e2, e4]
        cases hx : refReplay t.off t.len t.byte out with
        | error e => rw [hx] at ha; simp at ha
        | ok o1 => rw [hx] at ha; exact hrec _ ha

/-- Tokens applied in two parts. -/
theorem applyToks_append (out : List Byte) (xs ys : List Slot) {out' : List Byte} (h : applyToks out (xs ++ ys) = .ok out') :
    ∃ m, applyToks out xs = .ok m ∧ applyToks m ys = .ok out' := by
  induction xs generalizing out with
  | nil => exact ⟨out, rfl, h⟩
  | cons x xs ih =>
    simp only [List.cons_append, applyToks] at h ⊢
    cases hx : applyTok out x with
    | error e => rw [hx] at h; simp at h
    | ok o => rw [hx] at h; exact ih o h

/-- The stream of a list of tokens decodes to what they stand for. -/
theorem decodeFrom_stream (o : Order) (n : Nat) (ts : List Slot) (out out' : List Byte) (hn : (refStream o ts).length < n)
    (ha : applyToks out ts = .ok out') : refDecodeFrom n o (refStream o ts) out = .ok out' := by
  induction n generalizing ts out with
  | zero => omega
  | succ n ih =>
    by_cases h : ts = []
    · subst h; cases ha; rfl
    · rw [refStream_step o ts h] at hn ⊢
      have hpos : 0 < ts.length := List.length_pos_iff.2 h
      obtain ⟨m, h1, h2⟩ := applyToks_append out (ts.take 8) (ts.drop 8) (out' := out') (by rw [List.take_append_drop]; exact ha)
      have hd : refTokensDecode 8 o (BitVec.ofNat 8 (refControl (ts.take 8))) ((ts.take 8).flatMap (tokenBytes o) ++ refStream o (ts.drop 8)) out = .ok (refStream o (ts.drop 8), m) := by
        refine tokensDecode_ok o _ 8 _ _ _ _ (Nat.le_refl _) (by simp) (fun j hj => ?_) ?_ h1
        · have hj8 : j < 8 := by simp at hj; omega
          rw [show 8 - 8 + j = j by omega, controlBit, BitVec.getLsbD_ofNat, refControl_testBit]
          simp only [hj8, hj, decide_true, Bool.true_and]
        · by_cases hle : 8 ≤ ts.length
          · left; simp; omega
          · right; rw [List.drop_eq_nil_of_le (by omega)]; rfl
      simp only [refGroup, List.cons_append, refDecodeFrom, hd]
      refine ih _ _ ?_ h2
      simp [refGroup] at hn; omega

/-- One more byte of the input. -/
theorem take_succ' (b : List Byte) (pos : Nat) (h : pos < b.length) : b.take (pos + 1) = b.take pos ++ [refByte b pos] := by
  rw [List.take_add_one]; congr 1; simp [refByte, h]

/-- The tokens formed from a position on stand for the rest of the input, with the sentinel at most (R110, R138). -/
theorem roundtrip_from (b : List Byte) (w l : Nat) (hw : w < 65536) (hl : l < 65536) (n pos : Nat) (hn : b.length ≤ n + pos) (hp : pos ≤ b.length) :
    (refFinalFrom n b w l pos = b.length ∧ applyToks (b.take pos) (refTokensFrom n b w l pos) = .ok b) ∨
    (refFinalFrom n b w l pos = b.length + 1 ∧ applyToks (b.take pos) (refTokensFrom n b w l pos) = .ok (b ++ [0x00])) := by
  induction n generalizing pos with
  | zero =>
    left
    have : pos = b.length := by omega
    subst this
    simp [refFinalFrom, refTokensFrom, applyToks]
  | succ n ih =>
    by_cases h : pos < b.length
    · simp only [refFinalFrom, refTokensFrom, if_pos h]
      by_cases hc : pos < w ∨ (refFind b pos w l).2 = 0
      · have hadv : refAdvance b w l pos = pos + 1 := by simp [refAdvance, hc]
        have htok : refToken b w l pos = ⟨0, 0, refByte b pos⟩ := by simp [refToken, hc]
        rw [hadv, htok]
        simp only [applyToks, applyTok, isMatch, bne_self_eq_false, Bool.false_eq_true, if_false]
        rw [← take_succ' b pos h]
        exact ih (pos + 1) (by omega) (by omega)
      · have hc' := hc
        rw [not_or] at hc'
        obtain ⟨a1, a2, a3, a4, a5⟩ := refFind_spec b pos w l hc'.2
        generalize hoff : (refFind b pos w l).1 = off at *
        generalize hlen : (refFind b pos w l).2 = len at *
        have hadv : refAdvance b w l pos = pos + len + 1 := by simp only [refAdvance, hlen]; rw [if_neg hc]
        have htok : refToken b w l pos = ⟨BitVec.ofNat 16 off, BitVec.ofNat 16 len, refNext b pos len⟩ := by
          simp only [refToken, hlen, hoff]; rw [if_neg hc]
        have e1 : (BitVec.ofNat 16 off).toNat = off := by rw [BitVec.toNat_ofNat]; apply Nat.mod_eq_of_lt; omega
        have e2 : (BitVec.ofNat 16 len).toNat = len := by rw [BitVec.toNat_ofNat]; apply Nat.mod_eq_of_lt; omega
        have hm : isMatch ⟨BitVec.ofNat 16 off, BitVec.ofNat 16 len, refNext b pos len⟩ = true := by
          simp only [isMatch, bne_iff_ne]
          intro h0
          have := congrArg BitVec.toNat h0
          rw [e1] at this; simp at this; omega
        have hlt : (b.take pos).length = pos := by simp; omega
        have hcopy : refCopy len (pos - off) (b.take pos) = b.take (pos + len) := by
          obtain ⟨cs, c1, c2⟩ := refCopy_append len (pos - off) (b.take pos)
          rw [c2, List.take_add]
          congr 1
          apply List.ext_getElem?
          intro j
          by_cases hj : j < len
          · have := refCopy_cyclic len (pos - off) (b.take pos) (by rw [hlt]; omega) j hj
            rw [c2, List.getElem?_append_right (by omega), hlt] at this
            rw [show pos + j - pos = j by omega, show pos - (pos - off) = off by omega, Nat.mod_eq_of_lt (by omega)] at this
            rw [this, List.getElem?_take, if_pos (by omega), a5 j hj, List.getElem?_take, if_pos hj, List.getElem?_drop]
          · rw [List.getElem?_eq_none (by omega), List.getElem?_eq_none (by simp; omega)]
        have hrep : applyTok (b.take pos) ⟨BitVec.ofNat 16 off, BitVec.ofNat 16 len, refNext b pos len⟩ = .ok (b.take (pos + len) ++ [refNext b pos len]) := by
          simp only [applyTok, hm, if_true, refReplay, e1, e2, hlt]
          rw [if_neg (by omega), hcopy]
        rw [hadv, htok]
        simp only [applyToks, hrep]
        by_cases hend : pos + len < b.length
        · have : refNext b pos len = refByte b (pos + len) := by simp [refNext, hend]
          rw [this, ← take_succ' b (pos + len) hend]
          exact ih (pos + len + 1) (by omega) (by omega)
        · right
          have h2 : pos + len = b.length := by omega
          have : refNext b pos len = 0x00 := by simp [refNext, hend]
          rw [this, h2, List.take_length]
          cases n with
          | zero => exact ⟨rfl, rfl⟩
          | succ n => simp [refFinalFrom, refTokensFrom, applyToks]
    · left
      have : pos = b.length := by omega
      subst this
      simp [refFinalFrom, refTokensFrom, applyToks]

/-! ## The decoder, token by token -/

/-- One token of the reference decoder: a Match when `m`, else a Literal. -/
def oneTok (o : Order) (m : Bool) (b : Byte) (rest out : List Byte) : Except ErrKind (List Byte × List Byte) :=
  if m then
    match rest with
    | o1 :: l0 :: l1 :: nb :: rest' =>
      match refReplay (u16Of o b o1) (u16Of o l0 l1) nb out with
      | .ok out' => .ok (rest', out')
      | .error e => .error e
    | _ => .error .truncatedStream
  else .ok (rest, out ++ [b])

/-- The tokens of a group, one at a time. -/
theorem tokensDecode_succ (n : Nat) (o : Order) (ctl b : Byte) (rest out : List Byte) :
    refTokensDecode (n + 1) o ctl (b :: rest) out =
      match oneTok o (controlBit ctl (7 - n)) b rest out with
      | .ok (r, out') => refTokensDecode n o ctl r out'
      | .error e => .error e := by
  cases hc : controlBit ctl (7 - n) with
  | false => simp [refTokensDecode, oneTok, hc]
  | true =>
    match rest with
    | o1 :: l0 :: l1 :: nb :: rest' =>
      simp only [refTokensDecode, oneTok, hc, if_true]
      cases refReplay (u16Of o b o1) (u16Of o l0 l1) nb out <;> rfl
    | [] => simp [refTokensDecode, oneTok, hc]
    | [_] => simp [refTokensDecode, oneTok, hc]
    | [_, _] => simp [refTokensDecode, oneTok, hc]
    | [_, _, _] => simp [refTokensDecode, oneTok, hc]

/-- A Match never shortens the output; its only error is the offset. -/
theorem refReplay_mono (off len : Half) (nb : Byte) (out : List Byte) :
    match refReplay off len nb out with
    | .ok out' => out.length ≤ out'.length
    | .error k => k = .truncatedStream ∨ k = .invalidOffset := by
  unfold refReplay
  by_cases h : off.toNat < 1 ∨ out.length < off.toNat
  · rw [if_pos h]; exact .inr rfl
  · rw [if_neg h]
    obtain ⟨c, c1, c2⟩ := refCopy_append len.toNat (out.length - off.toNat) out
    simp only [c2, List.length_append]; omega

/-- A token never shortens the output, nor lengthens the stream. -/
theorem oneTok_mono (o : Order) (m : Bool) (b : Byte) (r out : List Byte) :
    match oneTok o m b r out with
    | .ok (r', out') => out.length ≤ out'.length ∧ r'.length ≤ r.length
    | .error k => k = .truncatedStream ∨ k = .invalidOffset := by
  cases m with
  | false => simp [oneTok]
  | true =>
    match r with
    | o1 :: l0 :: l1 :: nb :: rest' =>
      simp only [oneTok, if_true]
      have := refReplay_mono (u16Of o b o1) (u16Of o l0 l1) nb out
      cases hx : refReplay (u16Of o b o1) (u16Of o l0 l1) nb out with
      | error k => rw [hx] at this; exact this
      | ok z => rw [hx] at this; exact ⟨this, by simp; omega⟩
    | [] => exact .inl rfl
    | [_] => exact .inl rfl
    | [_, _] => exact .inl rfl
    | [_, _, _] => exact .inl rfl

/-- Nor do the tokens of a group. -/
theorem tokensDecode_mono (o : Order) (ctl : Byte) (n : Nat) (r out : List Byte) : match refTokensDecode n o ctl r out with
              | .ok (r', out') => out.length ≤ out'.length ∧ r'.length ≤ r.length
              | .error k => k = .truncatedStream ∨ k = .invalidOffset := by
  induction n generalizing r out with
  | zero => simp [refTokensDecode]
  | succ n ihn =>
    cases r with
    | nil => simp [refTokensDecode]
    | cons b r =>
      rw [tokensDecode_succ]
      have h1 := oneTok_mono o (controlBit ctl (7 - n)) b r out
      cases hx : oneTok o (controlBit ctl (7 - n)) b r out with
      | error k => rw [hx] at h1; exact h1
      | ok p =>
        rw [hx] at h1
        have := ihn p.1 p.2
        simp only at h1 ⊢
        cases hy : refTokensDecode n o ctl p.1 p.2 with
        | error k => rw [hy] at this; exact this
        | ok q => rw [hy] at this; simp only at this ⊢; simp only [List.length_cons]; omega

/-- Nor do the groups of a stream. -/
theorem decodeFrom_mono (o : Order) (n : Nat) (r out : List Byte) : match refDecodeFrom n o r out with
              | .ok out' => out.length ≤ out'.length
              | .error k => k = .truncatedStream ∨ k = .invalidOffset := by
  induction n generalizing r out with
  | zero => simp [refDecodeFrom]
  | succ n ih =>
    cases r with
    | nil => simp [refDecodeFrom]
    | cons c r =>
      simp only [refDecodeFrom]
      have h1 := tokensDecode_mono o c 8 r out
      cases hx : refTokensDecode 8 o c r out with
      | error k => rw [hx] at h1; exact h1
      | ok q =>
        rw [hx] at h1
        have := ih q.1 q.2
        simp only at h1 ⊢
        cases hy : refDecodeFrom n o q.1 q.2 with
        | error k => rw [hy] at this; exact this
        | ok z => rw [hy] at this; simp only at this ⊢; omega

end Sys2Proof.Machine
end

