-- ==== Sys2Proof/Laws/EncodeRun.lean ====
section
/-! SUPPORT. The encoder over the registers and the reference encoder over byte lists. -/

namespace Sys2Proof.Machine

/-- The group has G_CNT slots. -/
theorem group_length {s : State} (h : s.gCnt.toNat ≤ 8) : s.group.length = s.gCnt.toNat := by
  simp [State.group, h]

/-- G_CTRL is the control byte of the group (R23). -/
theorem gCtrl_eq {s : State} (h : s.controlAgrees = true) (hc : s.gCnt.toNat ≤ 8) : s.gCtrl = BitVec.ofNat 8 (refControl s.group) := by
  rw [controlAgrees_iff] at h
  apply BitVec.eq_of_getLsbD_eq
  intro j hj
  have := h j hj
  unfold controlBit at this
  rw [this, BitVec.getLsbD_ofNat, refControl_testBit, group_length hc]
  simp only [hj, decide_true, Bool.true_and]
  by_cases hlt : j < s.gCnt.toNat
  · simp only [hlt, decide_true, Bool.true_and, State.group]
    congr 1
    simp [List.getD_eq_getElem?_getD, hlt]
  · simp [hlt]

/-- ENC.FLUSH writes the group of R61. -/
theorem groupBytes_ref {s : State} (h : s.controlAgrees = true) (hc : s.gCnt.toNat ≤ 8) : s.groupBytes = refGroup s.cfg.order s.group := by
  rw [State.groupBytes, refGroup, ← gCtrl_eq h hc]

/-- ENC.PUSH adds the token to the group. -/
theorem stored_group {s : State} (hc : s.gCnt.toNat < 8) : (stored s).group = s.group ++ [s.t] := by
  have hcnt : (stored s).gCnt.toNat = s.gCnt.toNat + 1 := gCnt_succ hc
  unfold State.group
  rw [hcnt]
  have htok : (stored s).gTok.toList = s.gTok.toList.set s.gCnt.toNat s.t := by
    simp [Vector.toList_setIfInBounds]
  have hl : s.gTok.toList.length = 8 := by simp
  rw [htok, List.take_add_one, List.take_set_of_le (Nat.le_refl _)]
  simp [hl, hc]

/-- One pass forms the token of the reference encoder and pushes it. -/
theorem encPass_push {s : State} (h : EncInv s) (hp : s.pos < s.inLen) :
    ∃ u, encPass s = encPush u ∧ EncInv u ∧ Frame s u ∧
      u.t = refToken s.ib.bytes s.cfg.windowSize.val s.cfg.lookaheadSize.val s.pos ∧
      u.pos = refAdvance s.ib.bytes s.cfg.windowSize.val s.cfg.lookaheadSize.val s.pos ∧
      u.gTok = s.gTok ∧ u.gCnt = s.gCnt ∧ u.gCtrl = s.gCtrl ∧ u.ob = s.ob ∧ u.outLen = s.outLen := by
  have hsel := encSelect_sat h.dense (by omega) (fun _ => False)
  obtain ⟨a, ha, hm⟩ : ∃ a, encSelect s = .go a ∧ (a = { s with mLo := a.mLo, mI := a.mI, mK := a.mK, mBoff := a.mBoff, mBlen := a.mBlen } ∧
      (s.cfg.windowSize.val ≤ s.pos → a.matcherOk ∧ (a.mBoff.toNat, a.mBlen.toNat) =
        refFind s.ib.bytes s.pos s.cfg.windowSize.val s.cfg.lookaheadSize.val)) := by
    cases hx : encSelect s <;> rw [hx] at hsel
    · exact ⟨_, rfl, hsel⟩
    · exact hsel.elim
    · exact hsel.elim
  obtain ⟨hi, hf, hpos, ht, h1, h2, h3, h4, h5⟩ := select_encInv h hm.1
  have hem := emit_sat hi (by rw [hpos, hf.inLen]; exact hp) (fun hw => (hm.2 (by rw [← hpos, ← hf.cfg]; exact hw)).1) (fun _ => False)
  unfold encPass
  rw [ha, Flow.go_andThen]
  have e1 : a.cfg = s.cfg := hf.cfg
  cases hw : a.wantsMatch with
  | true =>
    rw [hw, if_pos rfl] at hem
    rw [if_pos rfl]
    simp only [State.wantsMatch, State.found, Bool.and_eq_true, Bool.not_eq_true', decide_eq_false_iff_not,
      Nat.not_lt, bne_iff_ne] at hw
    have hfind := (hm.2 (by rw [← hpos, ← e1]; exact hw.1)).2
    have hn : a.mBlen.toNat ≠ 0 := fun h0 => hw.2 (BitVec.eq_of_toNat_eq (by simpa using h0))
    have f1 : (refFind s.ib.bytes s.pos s.cfg.windowSize.val s.cfg.lookaheadSize.val).1 = a.mBoff.toNat := by rw [← hfind]
    have f2 : (refFind s.ib.bytes s.pos s.cfg.windowSize.val s.cfg.lookaheadSize.val).2 = a.mBlen.toNat := by rw [← hfind]
    rw [encMatch_eq (nextByte_eq hi.dense)] at hem ⊢
    rw [Flow.go_andThen]
    refine ⟨_, rfl, hem.1, hf.trans hem.2.1, ?_, ?_, h1, h2, h3, h4, h5⟩
    · simp only [refToken, f2, f1]
      rw [if_neg (by rw [not_or]; exact ⟨by rw [← hpos, ← e1]; omega, hn⟩)]
      simp [hf.ib, hpos]
    · simp only [refAdvance, f2]
      rw [if_neg (by rw [not_or]; exact ⟨by rw [← hpos, ← e1]; omega, hn⟩), hpos]
  | false =>
    rw [hw, if_neg (by simp)] at hem
    rw [if_neg (by simp)]
    obtain ⟨b, hb, hb'⟩ := readIB_some hi.dense (a := a.pos) (by rw [hpos, hf.inLen]; exact hp)
    have hor : s.pos < s.cfg.windowSize.val ∨ (refFind s.ib.bytes s.pos s.cfg.windowSize.val s.cfg.lookaheadSize.val).2 = 0 := by
      by_cases hlt : s.pos < s.cfg.windowSize.val
      · exact .inl hlt
      · right
        have hfind := (hm.2 (by omega)).2
        rw [← hfind]
        simp only [State.wantsMatch, State.found, hpos, e1, hlt, decide_false, Bool.not_false, Bool.true_and, bne_eq_false_iff_eq] at hw
        simp [hw]
    rw [encLit_eq hb] at hem ⊢
    rw [Flow.go_andThen]
    refine ⟨_, rfl, hem.1, hf.trans hem.2.1, ?_, ?_, h1, h2, h3, h4, h5⟩
    · simp only [refToken, if_pos hor, refByte]
      rw [hpos, hf.ib] at hb'
      simp [hb']
    · simp only [refAdvance, if_pos hor, hpos]

/-- The loop from any point on: what is in the group and the tokens still to come make the rest of the stream. -/
theorem encLoop_ref (n : Nat) {s : State} (h : EncInv s) (hn : s.inLen ≤ n + s.pos) :
    (fitsCap s.cfg.capOut (s.outLen + (refStream s.cfg.order (s.group ++ refTokensFrom n s.ib.bytes s.cfg.windowSize.val s.cfg.lookaheadSize.val s.pos)).length) = true →
      ∃ t, encLoop n s = .ended t ∧ t.status = statusSuccess ∧ t.ob.bytes = s.ob.bytes ++ refStream s.cfg.order (s.group ++ refTokensFrom n s.ib.bytes s.cfg.windowSize.val s.cfg.lookaheadSize.val s.pos) ∧
        t.pos = refFinalFrom n s.ib.bytes s.cfg.windowSize.val s.cfg.lookaheadSize.val s.pos) ∧
    (fitsCap s.cfg.capOut (s.outLen + (refStream s.cfg.order (s.group ++ refTokensFrom n s.ib.bytes s.cfg.windowSize.val s.cfg.lookaheadSize.val s.pos)).length) = false →
      ∃ u, Frame s u ∧ encLoop n s = .ended (errorEntry .capacity u)) := by
  have hl := Memory.bytes_length h.dense
  have final : ∀ (s : State), EncInv s →
      (fitsCap s.cfg.capOut (s.outLen + (refStream s.cfg.order s.group).length) = true →
        ∃ t, encEnd s = .ended t ∧ t.status = statusSuccess ∧ t.ob.bytes = s.ob.bytes ++ refStream s.cfg.order s.group ∧ t.pos = s.pos) ∧
      (fitsCap s.cfg.capOut (s.outLen + (refStream s.cfg.order s.group).length) = false → ∃ u, Frame s u ∧ encEnd s = .ended (errorEntry .capacity u)) := by
    intro s h
    have hg := group_length (s := s) (by have := h.cnt; omega)
    by_cases h0 : s.gCnt.toNat = 0
    · have : s.group = [] := List.eq_nil_of_length_eq_zero (by omega)
      rw [this, refStream_nil]
      have e : encEnd s = .ended (complete s) := by simp [encEnd, h0]
      constructor
      · intro _; exact ⟨_, e, rfl, by simp, rfl⟩
      · intro hf; have := h.out.fits; simp [this] at hf
    · have hne : s.group ≠ [] := by intro hc; rw [hc] at hg; simp at hg; omega
      have hs : refStream s.cfg.order s.group = s.groupBytes := by
        rw [refStream_short _ _ hne (by have := h.cnt; omega), groupBytes_ref h.ctl (by have := h.cnt; omega)]
      rw [hs]
      rcases appendAll_cases s.groupBytes s h.out.roomFor_zero with ⟨h1, h2⟩ | ⟨h1, some, h2⟩
      · have hr : fitsCap s.cfg.capOut (s.outLen + s.groupBytes.length) = true := h1
        constructor
        · intro _
          refine ⟨_, by rw [encEnd, if_pos (by omega), encFlush_eq (by omega) (by have := h.cnt; omega), h2]; rfl, rfl, ?_, ?_⟩
          · exact (appendedAll_bytes h.out.dense s.groupBytes).1
          · show (appendedAll s.groupBytes s).pos = s.pos
            rw [appendedAll_eq]
        · intro hf; simp [hr] at hf
      · have hr : fitsCap s.cfg.capOut (s.outLen + s.groupBytes.length) = false := h1
        constructor
        · intro hf; simp [hr] at hf
        · intro _
          exact ⟨_, appendedAll_frame some s, by rw [encEnd, if_pos (by omega), encFlush_eq (by omega) (by have := h.cnt; omega), h2]; rfl⟩
  induction n generalizing s with
  | zero =>
    have hnlt : ¬ s.pos < s.inLen := by omega
    have e : encLoop 0 s = encEnd s := by unfold encLoop; rw [if_neg hnlt]
    rw [e]
    simp only [refTokensFrom, refFinalFrom, List.append_nil]
    exact final s h
  | succ n ih =>
    by_cases hp : s.pos < s.inLen
    · have e : encLoop (n + 1) s = (encPass s).andThen (encLoop n) := by rw [encLoop, if_pos hp]
      obtain ⟨u, hu, hi, hf, ht, hpos, h1, h2, h3, h4, h5⟩ := encPass_push h hp
      have hug : u.group = s.group := by simp [State.group, h1, h2]
      have hcnt : u.gCnt.toNat < 8 := by have := hi.cnt; omega
      have hadv : s.pos < u.pos := by
        rw [hpos]; unfold refAdvance; split <;> omega
      have htoks : refTokensFrom (n + 1) s.ib.bytes s.cfg.windowSize.val s.cfg.lookaheadSize.val s.pos =
          u.t :: refTokensFrom n s.ib.bytes s.cfg.windowSize.val s.cfg.lookaheadSize.val u.pos := by
        rw [refTokensFrom, if_pos (by rw [hl]; exact hp), ← ht, ← hpos]
      have hfin : refFinalFrom (n + 1) s.ib.bytes s.cfg.windowSize.val s.cfg.lookaheadSize.val s.pos =
          refFinalFrom n s.ib.bytes s.cfg.windowSize.val s.cfg.lookaheadSize.val u.pos := by
        rw [refFinalFrom, if_pos (by rw [hl]; exact hp), ← hpos]
      rw [e, hu, htoks, hfin]
      have hsg := stored_group hcnt
      have hca := stored_controlAgrees hi.ctl hcnt
      have hsc : (stored u).gCnt.toNat = u.gCnt.toNat + 1 := gCnt_succ hcnt
      have hassoc : s.group ++ u.t :: refTokensFrom n s.ib.bytes s.cfg.windowSize.val s.cfg.lookaheadSize.val u.pos =
          (stored u).group ++ refTokensFrom n s.ib.bytes s.cfg.windowSize.val s.cfg.lookaheadSize.val u.pos := by
        rw [hsg, hug]; simp
      rw [hassoc]
      by_cases h7 : u.gCnt.toNat = 7
      · -- flush
        have ep : encPush u = encFlush (stored u) := by simp only [encPush, hcnt, if_true]; rw [if_pos (by omega)]
        have hos : OutOk (stored u) := hi.out.of_frame rfl rfl rfl
        have hgl : (stored u).group.length = 8 := by rw [group_length (by omega)]; omega
        rw [refStream_full _ _ _ hgl]
        have hgb : (stored u).groupBytes = refGroup s.cfg.order (stored u).group := by
          rw [groupBytes_ref hca (by omega)]
          show refGroup u.cfg.order _ = _
          rw [hf.cfg]
        rw [← hgb, ep, encFlush_eq (by omega) (by omega)]
        rcases appendAll_cases (stored u).groupBytes (stored u) hos.roomFor_zero with ⟨r1, r2⟩ | ⟨r1, some, r2⟩
        · rw [r2, Flow.go_andThen, Flow.go_andThen]
          have hinv : EncInv (groupEmptied (appendedAll (stored u).groupBytes (stored u))) := by
            have := push_sat hi
            rw [ep, encFlush_eq (by omega) (by omega), r2, Flow.go_andThen] at this
            exact this.1
          have hpv : (groupEmptied (appendedAll (stored u).groupBytes (stored u))).pos = u.pos := by rw [appendedAll_eq]; rfl
          have hfr : Frame s (groupEmptied (appendedAll (stored u).groupBytes (stored u))) :=
            hf.trans ((stored_frame u).trans ((appendedAll_frame _ _).trans (groupEmptied_frame _)))
          have hib : (groupEmptied (appendedAll (stored u).groupBytes (stored u))).ib = s.ib := hfr.ib
          have hol : (groupEmptied (appendedAll (stored u).groupBytes (stored u))).outLen = s.outLen + (stored u).groupBytes.length := by
            simp [h5]
          have hgr : (groupEmptied (appendedAll (stored u).groupBytes (stored u))).group = [] := by simp [State.group]
          have hob : (groupEmptied (appendedAll (stored u).groupBytes (stored u))).ob.bytes = s.ob.bytes ++ (stored u).groupBytes := by
            have := (appendedAll_bytes hos.dense (stored u).groupBytes).1
            simpa [h4] using this
          have key := ih hinv (by rw [hpv, hfr.inLen]; omega) (by rw [hib, hfr.inLen]; exact hl)
          rw [hfr.cfg, hib, hpv, hol, hgr, hob, List.nil_append] at key
          rw [List.length_append, ← Nat.add_assoc]
          refine ⟨fun hfit => ?_, fun hfit => ?_⟩
          · obtain ⟨t, k1, k2, k3, k4⟩ := key.1 hfit
            exact ⟨t, k1, k2, by rw [k3, List.append_assoc], k4⟩
          · obtain ⟨v, k1, k2⟩ := key.2 hfit
            exact ⟨v, hfr.trans k1, k2⟩
        · rw [r2, Flow.ended_andThen, Flow.ended_andThen]
          have hnf : fitsCap s.cfg.capOut (s.outLen + (stored u).groupBytes.length) = false := by
            have : fitsCap u.cfg.capOut (u.outLen + (stored u).groupBytes.length) = false := r1
            rw [hf.cfg, h5] at this; exact this
          have hnf' : ∀ k, fitsCap s.cfg.capOut (s.outLen + ((stored u).groupBytes.length + k)) = false := by
            intro k
            unfold fitsCap at hnf ⊢
            cases hc : s.cfg.capOut <;> simp [hc] at hnf ⊢; omega
          rw [List.length_append]
          refine ⟨fun hfit => by rw [hnf'] at hfit; simp at hfit, fun _ => ?_⟩
          exact ⟨_, hf.trans ((stored_frame u).trans (appendedAll_frame _ _)), rfl⟩
      · have ep : encPush u = .go (stored u) := by simp only [encPush, hcnt, if_true]; rw [if_neg (by omega)]
        rw [ep, Flow.go_andThen]
        have hinv : EncInv (stored u) := by
          have := push_sat hi
          rw [ep] at this
          exact this.1
        have hfr : Frame s (stored u) := hf.trans (stored_frame u)
        have key := ih hinv (by show u.inLen ≤ n + u.pos; rw [hf.inLen]; omega) (by rw [hfr.ib, hfr.inLen]; exact hl)
        have hpv : (stored u).pos = u.pos := rfl
        have hol : (stored u).outLen = s.outLen := h5
        have hob : (stored u).ob = s.ob := h4
        rw [hfr.cfg, hfr.ib, hpv, hol, hob] at key
        refine ⟨key.1, fun hfit => ?_⟩
        obtain ⟨v, k1, k2⟩ := key.2 hfit
        exact ⟨v, hfr.trans k1, k2⟩
    · have e : encLoop (n + 1) s = encEnd s := by rw [encLoop, if_neg hp]
      have htoks : refTokensFrom (n + 1) s.ib.bytes s.cfg.windowSize.val s.cfg.lookaheadSize.val s.pos = [] := by
        rw [refTokensFrom, if_neg (by rw [hl]; exact hp)]
      have hfin : refFinalFrom (n + 1) s.ib.bytes s.cfg.windowSize.val s.cfg.lookaheadSize.val s.pos = s.pos := by
        rw [refFinalFrom, if_neg (by rw [hl]; exact hp)]
      rw [e, htoks, hfin, List.append_nil]
      exact final s h

/-- A completion with success, with its output. -/
theorem EndOk.succeeded {s t : State} {out : List Byte} (h : EndOk s t) (he : s.errCode = 0) (hs : t.status = statusSuccess) (hb : t.ob.bytes = out) : SucceededWith out s t where
  ob := by rw [← hb]; exact Memory.eq_ofBytes h.out.dense
  outLen := by rw [← hb]; exact (Memory.bytes_length h.out.dense).symm
  errCode := by
    rcases h.done with ⟨h1, _⟩ | ⟨_, h1⟩
    · rw [hs] at h1; exact absurd h1 (by decide)
    · rw [h1, he]
  status := hs
  cmd := h.cmd
  ib := h.ib
  inLen := h.inLen

end Sys2Proof.Machine
end

