-- ==== Sys2Proof/Laws/DecodeRun.lean ====
section
/-! SUPPORT. The decoder over the registers and the reference decoder over byte lists. -/

namespace Sys2Proof.Machine

/-! ## Single operations -/

/-- What is appended, from the new OB and OUT_LEN. -/
theorem appendedTo_of {bytes : List Byte} {s t : State} (h1 : t.ob = (appendedAll bytes s).ob) (h2 : t.outLen = s.outLen + bytes.length) : AppendedTo bytes s t :=
  let h := appendedAll_appendedTo bytes s
  ⟨h2, fun j hj => by rw [h1]; exact h.stored j hj, fun a ha => by rw [h1]; exact h.others a ha⟩

/-- A Literal that fits. -/
theorem literal_room {b : Byte} {s : State} (h : s.roomFor 1 = true) :
    literalRead b s = .go { appended b s with rp := s.rp + 1 } := by
  unfold literalRead
  rcases append_cases b s with ⟨_, h2⟩ | ⟨h1, _⟩
  · rw [h2]; rfl
  · simp [h] at h1

/-- The replay of a Match that fits. -/
theorem replay_room {s : State} (hd : s.ob.dense s.outLen) (h0 : s.dOff ≠ 0) (h1 : s.dOff.toNat ≤ s.outLen)
    (hr : s.roomFor (s.dLen.toNat + 1) = true) :
    ∃ c, c.length = s.dLen.toNat ∧ refCopy s.dLen.toNat (s.outLen - s.dOff.toNat) s.ob.bytes = s.ob.bytes ++ c ∧
      replay s = .go { appendedAll (c ++ [s.dNxt]) s with dSrc := s.outLen - s.dOff.toNat + s.dLen.toNat, dRem := 0 } := by
  have ho : OutOk s := ⟨hd, roomFor_mono (Nat.zero_le _) hr⟩
  rcases decCopy_cases ho h0 h1 with ⟨h2, c, h3, h4, h5⟩ | ⟨h2, _⟩
  · refine ⟨c, h3, h4, ?_⟩
    have hck : decCheck s = .go s := by
      unfold decCheck; rw [if_neg]; rw [not_or]; exact ⟨h0, by omega⟩
    unfold replay
    rw [hck, Flow.go_andThen, h5, Flow.go_andThen]
    unfold decNext
    have hroom : State.roomFor { appendedAll c s with dSrc := s.outLen - s.dOff.toNat + s.dLen.toNat, dRem := 0 } 1 = true := by
      have := roomFor_appendedAll s c 1
      rw [h3, hr] at this
      exact this
    rcases append_cases ({ appendedAll c s with dSrc := s.outLen - s.dOff.toNat + s.dLen.toNat, dRem := 0 } : State).dNxt { appendedAll c s with dSrc := s.outLen - s.dOff.toNat + s.dLen.toNat, dRem := 0 } with ⟨_, h⟩ | ⟨h, _⟩
    · rw [h, appendedAll_append, appendedAll_eq c]; rfl
    · exact absurd (hroom.symm.trans h) (by simp)
  · have := roomFor_mono (Nat.le_succ _) hr
    simp [this] at h2

/-- The copied bytes are the last `off` bytes of the output, cyclically (R129). -/
theorem copied_cyclic {s : State} {off n : Nat} {c : List Byte} (hd : s.ob.dense s.outLen) (h0 : 0 < off) (h1 : off ≤ s.outLen)
    (hc : refCopy n (s.outLen - off) s.ob.bytes = s.ob.bytes ++ c) (j : Nat) (hj : j < n) :
    (c)[j]? = s.ob.read (s.outLen - off + j % off) := by
  have hl := Memory.bytes_length hd
  have := refCopy_cyclic n (s.outLen - off) s.ob.bytes (by omega) j hj
  rw [hc, List.getElem?_append_right (by omega), hl] at this
  rw [Memory.read_dense hd]
  rw [show s.outLen + j - s.outLen = j by omega, show s.outLen - (s.outLen - off) = off by omega] at this
  exact this

/-- A nonzero field is positive. -/
theorem pos_of_ne {v : Half} (h : v ≠ 0) : 0 < v.toNat := by
  rcases Nat.eq_zero_or_pos v.toNat with h' | h'
  · exact absurd (BitVec.eq_of_toNat_eq (by simpa using h')) h
  · exact h'

/-- Five bytes of IB, one by one. -/
theorem fetchBytes_five {s : State} {b0 b1 b2 b3 nb : Byte} (h : fetchBytes 5 s.rp s = some [b0, b1, b2, b3, nb]) :
    s.readIB s.rp = some b0 ∧ s.readIB (s.rp + 1) = some b1 ∧ s.readIB (s.rp + 2) = some b2 ∧
      s.readIB (s.rp + 3) = some b3 ∧ s.readIB (s.rp + 4) = some nb := by
  simp only [fetchBytes, Nat.add_assoc] at h
  cases h0 : s.readIB s.rp <;> simp only [h0] at h
  · simp at h
  cases h1 : s.readIB (s.rp + 1) <;> simp only [h1] at h
  · simp at h
  cases h2 : s.readIB (s.rp + 2) <;> simp only [h2] at h
  · simp at h
  cases h3 : s.readIB (s.rp + 3) <;> simp only [h3] at h
  · simp at h
  cases h4 : s.readIB (s.rp + 4) <;> simp only [h4] at h
  · simp at h
  simp at h
  simp [h]

/-- With five bytes available the Match sequence is the replay of the Match element (R125 to R130). -/
theorem decMatch_eq {s : State} {b0 b1 b2 b3 nb : Byte} (h : fetchBytes 5 s.rp s = some [b0, b1, b2, b3, nb]) :
    decMatch s = matchElement (u16Of s.cfg.order b0 b1) (u16Of s.cfg.order b2 b3) nb s := by
  obtain ⟨h0, h1, h2, h3, h4⟩ := fetchBytes_five h
  have l4 := readIB_lt h4
  have ha : ¬ s.avail = 0 ∧ ¬ s.avail = 1 := by simp only [State.avail]; omega
  have e1 : decFetchOff s = .go (offsetRead (u16Of s.cfg.order b0 b1) s) := by
    simp [decFetchOff, ha, readU16_eq h0 h1]
  have e2 : decFetchLen (offsetRead (u16Of s.cfg.order b0 b1) s) = .go (lengthRead (u16Of s.cfg.order b2 b3) (offsetRead (u16Of s.cfg.order b0 b1) s)) := by
    have : ¬ (offsetRead (u16Of s.cfg.order b0 b1) s).avail < 2 := by
      simp [State.avail]; omega
    have hu := readU16_eq (s := offsetRead (u16Of s.cfg.order b0 b1) s) (a := s.rp + 2) h2 h3
    unfold decFetchLen
    rw [if_neg this]
    simp only [offsetRead_fields]
    rw [hu]; rfl
  have e3 : decFetchNxt (lengthRead (u16Of s.cfg.order b2 b3) (offsetRead (u16Of s.cfg.order b0 b1) s)) = .go (nextRead nb (lengthRead (u16Of s.cfg.order b2 b3) (offsetRead (u16Of s.cfg.order b0 b1) s))) := by
    have : ¬ (lengthRead (u16Of s.cfg.order b2 b3) (offsetRead (u16Of s.cfg.order b0 b1) s)).avail < 1 := by
      simp [State.avail]; omega
    unfold decFetchNxt
    rw [if_neg this]
    have : (lengthRead (u16Of s.cfg.order b2 b3) (offsetRead (u16Of s.cfg.order b0 b1) s)).readIB (s.rp + 2 + 2) = some nb := h4
    simp only [lengthRead_fields, offsetRead_fields, this]
  unfold decMatch matchElement
  rw [e1, Flow.go_andThen, e2, Flow.go_andThen, e3, Flow.go_andThen]

/-- A Match that fits. -/
theorem matchElement_room {s : State} {off len : Half} {nb : Byte} (hd : s.ob.dense s.outLen) (h0 : off ≠ 0) (h1 : off.toNat ≤ s.outLen)
    (hr : s.roomFor (len.toNat + 1) = true) :
    ∃ (t : State) (c : List Byte), matchElement off len nb s = .go t ∧ AppendedTo (c ++ [nb]) s t ∧ c.length = len.toNat ∧
      (∀ j, j < len.toNat → (c)[j]? = s.ob.read (s.outLen - off.toNat + j % off.toNat)) ∧
      t = { s with ob := t.ob, outLen := t.outLen, rp := s.rp + 5, dOff := off, dLen := len, dNxt := nb, dSrc := t.dSrc, dRem := t.dRem } := by
  obtain ⟨c, h2, h3, h4⟩ := replay_room (s := nextRead nb (lengthRead len (offsetRead off s))) hd h0 h1 hr
  refine ⟨_, c, h4, ?_, h2, ?_, ?_⟩
  · refine appendedTo_of ?_ ?_
    · exact appendedAll_ob_congr _ rfl rfl
    · simp
  · exact copied_cyclic hd (pos_of_ne h0) h1 h3
  · rw [appendedAll_eq]; rfl

/-- An offset that DEC.CHECK rejects. -/
theorem decCheck_bad {s : State} (h : s.dOff = 0 ∨ s.outLen < s.dOff.toNat) : decCheck s = raise .invalidOffset s := if_pos h

/-- One to four bytes of a Match: TruncatedStreamError (R167). -/
theorem trunc_case {s : State} (h : DecInv s) (h4 : s.inLen ≤ s.rp + 4) (h1 : s.rp < s.inLen) :
    decMatch s = .ended (errorEntry .truncatedStream s) := by
  have hd := h.dense
  have ha : s.avail ≠ 0 := by simp only [State.avail]; omega
  unfold decMatch
  by_cases a1 : s.avail = 1
  · simp [decFetchOff, a1, raise]
  · obtain ⟨b0, h0, _⟩ := readIB_some hd (a := s.rp) (by omega)
    obtain ⟨b1, h1', _⟩ := readIB_some hd (a := s.rp + 1) (by simp only [State.avail] at a1; omega)
    have e1 : decFetchOff s = .go (offsetRead (u16Of s.cfg.order b0 b1) s) := by
      simp [decFetchOff, ha, a1, readU16_eq h0 h1']
    rw [e1, Flow.go_andThen]
    by_cases a4 : s.avail = 4
    · obtain ⟨b2, h2, _⟩ := readIB_some hd (a := s.rp + 2) (by simp only [State.avail] at a4; omega)
      obtain ⟨b3, h3, _⟩ := readIB_some hd (a := s.rp + 3) (by simp only [State.avail] at a4; omega)
      have e2 : decFetchLen (offsetRead (u16Of s.cfg.order b0 b1) s) = .go (lengthRead (u16Of s.cfg.order b2 b3) (offsetRead (u16Of s.cfg.order b0 b1) s)) := by
        have : ¬ (offsetRead (u16Of s.cfg.order b0 b1) s).avail < 2 := by
          simp [State.avail] at *; omega
        have hu := readU16_eq (s := offsetRead (u16Of s.cfg.order b0 b1) s) (a := s.rp + 2) h2 h3
        unfold decFetchLen
        rw [if_neg this]
        simp only [offsetRead_fields]
        rw [hu]; rfl
      rw [e2, Flow.go_andThen]
      unfold decFetchNxt
      rw [if_pos (by simp [State.avail] at *; omega)]
      rfl
    · unfold decFetchLen
      rw [if_pos (by simp [State.avail] at *; omega)]
      rfl

/-! ## Against the reference decoder -/

/-- A part of the decoder does what a part of the reference decoder does, but for a CAP_OUT that is too small. -/
def Agrees (s : State) (x : Flow) (r : Except ErrKind (List Byte × List Byte)) : Prop :=
  match r with
  | .ok (rem, out) =>
    s.ob.bytes.length ≤ out.length ∧
    ((∃ t, x = .go t ∧ DecInv t ∧ Frame s t ∧ t.ib.bytes.drop t.rp = rem ∧ t.ob.bytes = out) ∨
     (fitsCap s.cfg.capOut out.length = false ∧ ∃ u, Frame s u ∧ x = .ended (errorEntry .capacity u)))
  | .error k => (k = .truncatedStream ∨ k = .invalidOffset) ∧ ∃ u, Frame s u ∧ (x = .ended (errorEntry k u) ∨ (s.cfg.capOut ≠ none ∧ x = .ended (errorEntry .capacity u)))

/-- What does not fit does not fit with more. -/
theorem notFits_mono {c : Option Nat} {n m : Nat} (h : n ≤ m) (hf : fitsCap c n = false) : fitsCap c m = false ∧ c ≠ none := by
  unfold fitsCap at *
  cases c with
  | none => simp at hf
  | some c => simp at *; omega

/-- The replay of a Match against the reference decoder. -/
theorem replay_agrees {s : State} (h : DecInv s) :
    match refReplay s.dOff s.dLen s.dNxt s.ob.bytes with
    | .ok out => s.ob.bytes.length ≤ out.length ∧ ((∃ t, replay s = .go t ∧ DecInv t ∧ ReplayFrame s t ∧ t.ob.bytes = out) ∨
        (fitsCap s.cfg.capOut out.length = false ∧ ∃ u, Frame s u ∧ replay s = .ended (errorEntry .capacity u)))
    | .error k => k = .invalidOffset ∧ ∃ u, Frame s u ∧ replay s = .ended (errorEntry .invalidOffset u) := by
  have hl := Memory.bytes_length h.out.dense
  unfold refReplay
  rw [hl]
  by_cases hbad : s.dOff.toNat < 1 ∨ s.outLen < s.dOff.toNat
  · rw [if_pos hbad]
    refine ⟨rfl, s, Frame.refl s, ?_⟩
    have : s.dOff = 0 ∨ s.outLen < s.dOff.toNat := by
      rcases hbad with h | h
      · left; exact BitVec.eq_of_toNat_eq (by simp; omega)
      · exact .inr h
    unfold replay decCheck
    rw [if_pos this]; rfl
  · rw [if_neg hbad]
    rw [not_or] at hbad
    have h0 : s.dOff ≠ 0 := by intro h0; rw [h0] at hbad; simp at hbad
    have hck : decCheck s = .go s := by unfold decCheck; rw [if_neg]; rw [not_or]; exact ⟨h0, hbad.2⟩
    obtain ⟨cs, c1, c2⟩ := refCopy_append s.dLen.toNat (s.outLen - s.dOff.toNat) s.ob.bytes
    have hlen : (refCopy s.dLen.toNat (s.outLen - s.dOff.toNat) s.ob.bytes ++ [s.dNxt]).length = s.outLen + s.dLen.toNat + 1 := by
      rw [c2]; simp [hl, c1]; omega
    refine ⟨by rw [hlen]; omega, ?_⟩
    rw [hlen]
    unfold replay
    rw [hck, Flow.go_andThen]
    have hcp := decCopy_sat h.out h0 (by omega)
    rcases decCopy_cases h.out h0 (by omega) with ⟨r1, c, c3, c4, e⟩ | ⟨r1, u, hf, e⟩
    · rw [e] at hcp
      obtain ⟨ho1, hf1, hn1, hb1, hol1⟩ := hcp
      rw [e, Flow.go_andThen]
      generalize { appendedAll c s with dSrc := s.outLen - s.dOff.toNat + s.dLen.toNat, dRem := 0 } = t at *
      unfold decNext
      rcases append_cases t.dNxt t with ⟨r2, e2⟩ | ⟨r2, e2⟩
      · left
        refine ⟨_, e2, ⟨?_, ?_, ?_⟩, ⟨?_, ?_, ?_, ?_⟩, ?_⟩
        · show t.ib.dense t.inLen; rw [hf1.ib, hf1.inLen]; exact h.dense
        · exact ho1.appendedAll (bytes := [t.dNxt]) r2
        · show t.rp ≤ t.inLen; rw [hf1.rp, hf1.inLen]; exact h.rp
        · exact hf1.toFrame.trans (by constructor <;> rfl)
        · exact hf1.rp
        · exact hf1.dCtrl
        · exact hf1.dBit
        · show (t.ob.write t.outLen t.dNxt).bytes = _
          rw [Memory.bytes_write ho1.dense, hb1, hn1]
      · right
        refine ⟨?_, t, hf1.toFrame, e2⟩
        have : fitsCap t.cfg.capOut (t.outLen + 1) = false := r2
        rw [hf1.cfg, hol1] at this; exact this
    · right
      rw [e]
      exact ⟨(notFits_mono (by omega) r1).1, u, hf, rfl⟩

/-- From an earlier state. -/
theorem Agrees.of_frame {s t : State} {x : Flow} {r : Except ErrKind (List Byte × List Byte)} (h : Agrees t x r) (hf : Frame s t) (hl : s.ob.bytes.length ≤ t.ob.bytes.length) : Agrees s x r := by
  unfold Agrees at *
  cases r with
  | ok p =>
    obtain ⟨h1, h2⟩ := h
    refine ⟨by omega, ?_⟩
    rcases h2 with ⟨v, a1, a2, a3, a4⟩ | ⟨a1, u, a2, a3⟩
    · exact .inl ⟨v, a1, a2, hf.trans a3, a4⟩
    · exact .inr ⟨by rw [← hf.cfg]; exact a1, u, hf.trans a2, a3⟩
  | error k =>
    obtain ⟨h1, u, h2, h3⟩ := h
    refine ⟨h1, u, hf.trans h2, ?_⟩
    rw [← hf.cfg]; exact h3

/-- The next byte of the stream. -/
theorem readers {s : State} (hd : s.ib.dense s.inLen) {a : Nat} {b : Byte} {rest : List Byte} (h : s.ib.bytes.drop a = b :: rest) :
    s.readIB a = some b ∧ s.ib.bytes.drop (a + 1) = rest ∧ a < s.inLen := by
  have hl := Memory.bytes_length hd
  have hlt : a < s.ib.bytes.length := by
    by_contra hc
    rw [List.drop_eq_nil_of_le (by omega)] at h; simp at h
  rw [List.drop_eq_getElem_cons hlt] at h
  simp only [List.cons.injEq] at h
  exact ⟨by rw [readIB_eq hd]; simp [hlt, h.1], h.2, by omega⟩

/-- As `Agrees`, for one token of a group. -/
def AgreesB (s : State) (x : Flow) (r : Except ErrKind (List Byte × List Byte)) : Prop :=
  match r with
  | .ok (rem, out) =>
    s.ob.bytes.length ≤ out.length ∧
    ((∃ t, x = .go t ∧ DecInv t ∧ Frame s t ∧ t.ib.bytes.drop t.rp = rem ∧ t.ob.bytes = out ∧ t.dBit = s.dBit + 1 ∧ t.dCtrl = s.dCtrl) ∨
     (fitsCap s.cfg.capOut out.length = false ∧ ∃ u, Frame s u ∧ x = .ended (errorEntry .capacity u)))
  | .error k => (k = .truncatedStream ∨ k = .invalidOffset) ∧ ∃ u, Frame s u ∧ x = .ended (errorEntry k u)

/-- DEC.BIT is one token of the reference decoder. -/
theorem decBit_agrees {s : State} (h : DecInv s) (hb : s.dBit.toNat < 8) {b : Byte} {rest : List Byte} (hs : s.ib.bytes.drop s.rp = b :: rest) :
    AgreesB s (decBit s) (oneTok s.cfg.order (controlBit s.dCtrl s.dBit.toNat) b rest s.ob.bytes) := by
  obtain ⟨r0, d0, l0⟩ := readers h.dense hs
  have ha : s.avail ≠ 0 := by simp only [State.avail]; omega
  have hl := Memory.bytes_length h.dense
  unfold decBit oneTok
  rw [if_neg ha, if_pos hb]
  cases hc : controlBit s.dCtrl s.dBit.toNat with
  | false =>
    simp only [Bool.false_eq_true, if_false, decLit, r0, literalRead]
    refine ⟨by simp, ?_⟩
    rcases append_cases b s with ⟨e1, e2⟩ | ⟨e1, e2⟩
    · left
      rw [e2]
      refine ⟨_, rfl, ⟨h.dense, ?_, ?_⟩, by constructor <;> rfl, d0, ?_, rfl, rfl⟩
      · have := h.out.appendedAll (bytes := [b]) e1
        exact ⟨this.dense, this.fits⟩
      · show s.rp + 1 ≤ s.inLen; omega
      · exact Memory.bytes_write h.out.dense b
    · right
      rw [e2]
      have : fitsCap s.cfg.capOut (s.outLen + 1) = false := e1
      exact ⟨by rw [List.length_append, Memory.bytes_length h.out.dense]; exact this, s, Frame.refl s, rfl⟩
  | true =>
    simp only [if_true]
    match rest, hs with
    | o1 :: l0' :: l1 :: nb :: rest', hs =>
      obtain ⟨r1, d1, _⟩ := readers h.dense d0
      obtain ⟨r2, d2, _⟩ := readers h.dense d1
      obtain ⟨r3, d3, _⟩ := readers h.dense d2
      obtain ⟨r4, d4, l4⟩ := readers h.dense d3
      have h5 : fetchBytes 5 s.rp s = some [b, o1, l0', l1, nb] := by
        simp only [fetchBytes, Nat.add_assoc, r0, r1, r2, r3, r4]
      rw [decMatch_eq h5, matchElement]
      have hdi : DecInv (nextRead nb (lengthRead (u16Of s.cfg.order l0' l1) (offsetRead (u16Of s.cfg.order b o1) s))) :=
        ⟨h.dense, ⟨h.out.dense, h.out.fits⟩, by show s.rp + 2 + 2 + 1 ≤ s.inLen; omega⟩
      have hf : Frame s (nextRead nb (lengthRead (u16Of s.cfg.order l0' l1) (offsetRead (u16Of s.cfg.order b o1) s))) := by constructor <;> rfl
      have key := replay_agrees hdi
      simp only [nextRead_fields, lengthRead_fields, offsetRead_fields] at key
      cases hx : refReplay (u16Of s.cfg.order b o1) (u16Of s.cfg.order l0' l1) nb s.ob.bytes with
      | error k =>
        rw [hx] at key
        obtain ⟨rfl, u, k1, k2⟩ := key
        simp only [hx, AgreesB]
        exact ⟨.inr trivial, u, hf.trans k1, by rw [k2]; rfl⟩
      | ok out =>
        rw [hx] at key
        simp only [hx, AgreesB]
        obtain ⟨k0, ⟨t, k1, k2, k3, k4⟩ | ⟨k1, u, k2, k3⟩⟩ := key
        · refine ⟨k0, .inl ⟨bitDone t, by rw [k1]; rfl, ⟨k2.dense, ⟨k2.out.dense, k2.out.fits⟩, k2.rp⟩, hf.trans (k3.toFrame.trans (by constructor <;> rfl)), ?_, k4, ?_, ?_⟩⟩
          · show t.ib.bytes.drop t.rp = rest'
            rw [k3.ib, k3.rp]; exact d4
          · show t.dBit + 1 = _
            rw [k3.dBit]; rfl
          · exact k3.dCtrl
        · exact ⟨k0, .inr ⟨k1, u, hf.trans k2, by rw [k3]; rfl⟩⟩
    | [], hs | [_], hs | [_, _], hs | [_, _, _], hs =>
      have := congrArg List.length hs
      simp [hl] at this
      exact ⟨.inl rfl, s, Frame.refl s, by rw [trunc_case h (by omega) l0]; rfl⟩

/-- The tokens of a group. -/
theorem decTokens_agrees (n : Nat) {s : State} (h : DecInv s) (hn : n ≤ 8) (hb : s.dBit.toNat = 8 - n) :
    Agrees s (decTokens n s) (refTokensDecode n s.cfg.order s.dCtrl (s.ib.bytes.drop s.rp) s.ob.bytes) := by
  have hl := Memory.bytes_length h.dense
  induction n generalizing s with
  | zero => exact ⟨Nat.le_refl _, .inl ⟨s, rfl, h, Frame.refl s, rfl, rfl⟩⟩
  | succ n ih =>
    cases hs : s.ib.bytes.drop s.rp with
    | nil =>
      have ha : s.avail = 0 := by have := congrArg List.length hs; simp [hl] at this; simp only [State.avail]; omega
      have e : decTokens (n + 1) s = .go s := by unfold decTokens; rw [if_neg]; simp [ha]
      rw [e]
      exact ⟨Nat.le_refl _, .inl ⟨s, rfl, h, Frame.refl s, hs, rfl⟩⟩
    | cons b rest =>
      obtain ⟨_, _, l0⟩ := readers h.dense hs
      have e : decTokens (n + 1) s = (decBit s).andThen (decTokens n) := by
        conv_lhs => unfold decTokens
        rw [if_pos ⟨by omega, by simp only [State.avail]; omega⟩]
      rw [e, tokensDecode_succ, show 7 - n = s.dBit.toNat by omega]
      have key := decBit_agrees h (by omega) hs
      cases hx : oneTok s.cfg.order (controlBit s.dCtrl s.dBit.toNat) b rest s.ob.bytes with
      | error k =>
        rw [hx] at key
        obtain ⟨k1, u, k2, k3⟩ := key
        rw [k3]
        exact ⟨k1, u, k2, .inl rfl⟩
      | ok p =>
        obtain ⟨r, out⟩ := p
        rw [hx] at key
        obtain ⟨k0, ⟨t, k1, k2, k3, k4, k5, k6, k7⟩ | ⟨k1, u, k2, k3⟩⟩ := key
        · rw [k1]
          have hbit : t.dBit.toNat = 8 - n := by rw [k6, dBit_succ (by omega)]; omega
          have hrec := ih k2 (by omega) hbit (by rw [k3.ib, k3.inLen]; exact hl)
          rw [k3.cfg, k7, k4, k5] at hrec
          exact hrec.of_frame k3 (by rw [k5]; exact k0)
        · rw [k3]
          show Agrees s (.ended _) (refTokensDecode n s.cfg.order s.dCtrl r out)
          have := tokensDecode_mono s.cfg.order s.dCtrl n r out
          cases hy : refTokensDecode n s.cfg.order s.dCtrl r out with
          | error k => rw [hy] at this; exact ⟨this, u, k2, .inr ⟨(notFits_mono (Nat.le_refl _) k1).2, rfl⟩⟩
          | ok q =>
            rw [hy] at this
            obtain ⟨a1, a2⟩ := q
            simp only at this
            exact ⟨by omega, .inr ⟨(notFits_mono this.1 k1).1, u, k2, rfl⟩⟩

/-- The outer loop from any point on. -/
theorem decLoop_agrees (n : Nat) {s : State} (h : DecInv s) (hn : s.inLen < n + s.rp) :
    match refDecodeFrom n s.cfg.order (s.ib.bytes.drop s.rp) s.ob.bytes with
    | .ok out => (∃ t, decLoop n s = .ended t ∧ t.status = statusSuccess ∧ t.ob.bytes = out) ∨
        (fitsCap s.cfg.capOut out.length = false ∧ ∃ u, Frame s u ∧ decLoop n s = .ended (errorEntry .capacity u))
    | .error k => (k = .truncatedStream ∨ k = .invalidOffset) ∧ ∃ u, Frame s u ∧
        (decLoop n s = .ended (errorEntry k u) ∨ (s.cfg.capOut ≠ none ∧ decLoop n s = .ended (errorEntry .capacity u))) := by
  have hl := Memory.bytes_length h.dense
  induction n generalizing s with
  | zero => have := h.rp; omega
  | succ n ih =>
    cases hs : s.ib.bytes.drop s.rp with
    | nil =>
      have ha : s.avail = 0 := by have := congrArg List.length hs; simp [hl] at this; simp only [State.avail]; omega
      have e : decLoop (n + 1) s = .ended (complete s) := by simp [decLoop, decCtrl, ha, decEnd]
      rw [e]
      exact .inl ⟨_, rfl, rfl, rfl⟩
    | cons c rest =>
      obtain ⟨r0, d0, l0⟩ := readers h.dense hs
      have ha : s.avail ≠ 0 := by simp only [State.avail]; omega
      have e : decLoop (n + 1) s = (decTokens 8 (controlRead c s)).andThen (decLoop n) := by
        simp [decLoop, decCtrl, ha, r0]
      have hi : DecInv (controlRead c s) := ⟨h.dense, ⟨h.out.dense, h.out.fits⟩, by show s.rp + 1 ≤ s.inLen; omega⟩
      have hf : Frame s (controlRead c s) := by constructor <;> rfl
      have key := decTokens_agrees 8 hi (Nat.le_refl _) rfl
      have d0' : (controlRead c s).ib.bytes.drop (controlRead c s).rp = rest := d0
      rw [d0'] at key
      have key : Agrees (controlRead c s) (decTokens 8 (controlRead c s)) (refTokensDecode 8 s.cfg.order c rest s.ob.bytes) := key
      rw [e]
      simp only [refDecodeFrom]
      cases hx : refTokensDecode 8 s.cfg.order c rest s.ob.bytes with
      | error k =>
        rw [hx] at key
        obtain ⟨k1, u, k2, k3⟩ := key
        refine ⟨k1, u, hf.trans k2, ?_⟩
        rcases k3 with k3 | ⟨k4, k3⟩
        · rw [k3]; exact .inl rfl
        · rw [k3]; exact .inr ⟨k4, rfl⟩
      | ok q =>
        obtain ⟨r, out⟩ := q
        rw [hx] at key
        have hm := tokensDecode_mono s.cfg.order c 8 rest s.ob.bytes
        rw [hx] at hm
        obtain ⟨k0, ⟨t, k1, k2, k3, k4, k5⟩ | ⟨k1, u, k2, k3⟩⟩ := key
        · rw [k1, Flow.go_andThen]
          have hft := hf.trans k3
          have hrp : s.inLen < n + t.rp := by
            have e1 := congrArg List.length k4
            have e2 := congrArg List.length d0
            have e3 := Memory.bytes_length k2.dense
            have e4 := k2.rp
            simp only [List.length_drop, e3, hl] at e1 e2
            rw [hft.inLen] at e1 e4
            omega
          have hrec := ih k2 (by rw [hft.inLen]; exact hrp) (by rw [hft.ib, hft.inLen]; exact hl)
          rw [hft.cfg, k4, k5] at hrec
          simp only
          cases hy : refDecodeFrom n s.cfg.order r out with
          | error k =>
            rw [hy] at hrec
            obtain ⟨m1, u, m2, m3⟩ := hrec
            exact ⟨m1, u, hft.trans m2, m3⟩
          | ok z =>
            rw [hy] at hrec
            rcases hrec with m | ⟨m1, u, m2, m3⟩
            · exact .inl m
            · exact .inr ⟨m1, u, hft.trans m2, m3⟩
        · rw [k3, Flow.ended_andThen]
          have hm2 := decodeFrom_mono s.cfg.order n r out
          simp only
          cases hy : refDecodeFrom n s.cfg.order r out with
          | error k => rw [hy] at hm2; exact ⟨hm2, u, hf.trans k2, .inr ⟨(notFits_mono (Nat.le_refl _) k1).2, rfl⟩⟩
          | ok z => rw [hy] at hm2; exact .inr ⟨(notFits_mono hm2 k1).1, u, hf.trans k2, rfl⟩

end Sys2Proof.Machine
end

