-- ==== Sys2Proof/Laws/Step.lean ====
section
/-! SUPPORT. The invariant, operation by operation, and the fetch of an element. -/

namespace Sys2Proof.Machine

/-! ## The invariant -/

/-- While BUSY = 1, STATUS is 001. -/
theorem Inv.running {s : State} (h : Inv s) (hb : s.busy = true) : s.status = statusRunning := by
  rcases h.statusLegal with e | e | e | e
  · rw [State.busy, e] at hb; exact absurd hb (by decide)
  · exact e
  · rw [State.busy, e] at hb; exact absurd hb (by decide)
  · rw [State.busy, e] at hb; exact absurd hb (by decide)

/-- While BUSY = 1, ERR_CODE is 0. -/
theorem Inv.noError {s : State} (h : Inv s) (hb : s.busy = true) : s.errCode = 0 := by
  by_contra hc
  have := h.errCodeIffErr.1 hc
  rw [State.err, h.running hb] at this
  exact absurd this (by decide)

/-- The output part. -/
theorem Inv.out {s : State} (h : Inv s) : OutOk s := ⟨h.obDense, h.outFits⟩

/-- A completed command meets the invariant. -/
theorem EndOk.inv {s t : State} (h : Inv s) (hb : s.busy = true) (he : EndOk s t) : Inv t ∧ t.busy = false := by
  have hbusy : t.busy = false := by
    rcases he.done with ⟨e, _⟩ | ⟨e, _⟩ <;> rw [State.busy, e] <;> decide
  refine ⟨⟨?_, he.out.dense, ?_, he.out.fits, ?_, ?_, ?_, ?_, ?_, ?_⟩, hbusy⟩
  · rw [he.ib, he.inLen]; exact h.ibDense
  · rw [he.cfg, he.inLen]; exact h.inFits
  · rcases he.done with ⟨e, _⟩ | ⟨e, _⟩ <;> simp [e]
  · rcases he.done with ⟨e, _, k, hk⟩ | ⟨e, hk⟩
    · rw [hk, State.err, e]; cases k <;> decide
    · rw [hk, h.noError hb, State.err, e]; decide
  · rcases he.done with ⟨e, _, k, hk⟩ | ⟨e, hk⟩
    · rw [hk]; cases k <;> decide
    · rw [hk, h.noError hb]; decide
  · simp [hbusy, he.seq]
  · simp [hbusy]
  · simp [State.placeOk, he.seq]

/-- A state of a running command. -/
theorem Inv.of_frame {s t : State} (h : Inv s) (hb : s.busy = true) (e1 : t.cfg = s.cfg) (e2 : t.cmd = s.cmd)
    (e3 : t.status = s.status) (e4 : t.errCode = s.errCode) (e5 : t.inLen = s.inLen) (e6 : t.ib = s.ib)
    (ho : OutOk t) (hs : t.seq ≠ .idle) (hp : t.placeOk) : Inv t := by
  have hbt : t.busy = true := by rw [State.busy, e3]; exact hb
  have het : t.err = s.err := by rw [State.err, e3]; rfl
  refine ⟨?_, ho.dense, ?_, ho.fits, ?_, ?_, ?_, ?_, ?_, hp⟩
  · rw [e5, e6]; exact h.ibDense
  · rw [e1, e5]; exact h.inFits
  · rw [e3]; exact h.statusLegal
  · rw [e4, het]; exact h.errCodeIffErr
  · rw [e4]; exact h.errCodeLegal
  · simp [hbt, hs]
  · rw [e2]; intro _; exact h.direction hb

/-- What the encoder needs of it. -/
theorem Inv.enc {s : State} (h : Inv s) (hp : s.encoderOk) : EncInv s :=
  ⟨h.ibDense, h.out, hp.2.2.1, hp.2.2.2.1, hp.2.2.2.2⟩

/-- What the decoder needs of it. -/
theorem Inv.dec {s : State} (h : Inv s) (hp : s.decoderOk) : DecInv s := ⟨h.ibDense, h.out, hp.2⟩

/-- Back from the encoder. -/
theorem EncInv.ok {s : State} (h : EncInv s) (h1 : s.cmd = 1) (h0 : 0 < s.inLen) : s.encoderOk :=
  ⟨h1, h0, h.pos, h.cnt, h.ctl⟩

/-- The pending moves do not matter to it. -/
theorem Inv.inputs {s : State} (h : Inv s) (r : List Input) : Inv { s with inputs := r } :=
  ⟨h.ibDense, h.obDense, h.inFits, h.outFits, h.statusLegal, h.errCodeIffErr, h.errCodeLegal, h.busyIffPlace, h.direction, h.place⟩

/-- Nor does the answer. -/
theorem Inv.answer {s : State} (h : Inv s) (r : Answer) : Inv { s with answer := r } :=
  ⟨h.ibDense, h.obDense, h.inFits, h.outFits, h.statusLegal, h.errCodeIffErr, h.errCodeLegal, h.busyIffPlace, h.direction, h.place⟩

/-- A core that is not busy is nowhere in a command. -/
theorem Inv.seqIdle {s : State} (h : Inv s) (hb : s.busy = false) : s.seq = .idle := by
  by_contra hc; have := h.busyIffPlace.2 hc; simp [hb] at this

/-! ## The step -/

/-- One instruction of a running core, from what its operation can do. -/
theorem runStep_of {s : State} {i : Instr} {x : Flow} {P : State → Prop} (h : Inv s) (hb : s.busy = true)
    (hi : selectInstr s = .ok i) (hx : exec i s = x.outcome) (hs : x.Sat P (EndOk s))
    (hP : ∀ t, P t → Frame s t ∧ OutOk t ∧ ∃ q, advance i t = { t with dBit := (advance i t).dBit, seq := q } ∧ q ≠ .idle ∧ (advance i t).placeOk) :
    ∃ t, runStep s = .next t ∧ Inv t := by
  obtain ⟨t, h1, h2⟩ := hs.outcome
  refine ⟨advance i t, by simp [runStep, hi, hx, h1], ?_⟩
  rcases h2 with ⟨_, hp⟩ | ⟨_, he⟩
  · obtain ⟨hf, ho, q, hq, hne, hpl⟩ := hP t hp
    have e : ∀ {α} (f : State → α), f (advance i t) = f { t with dBit := (advance i t).dBit, seq := q } := fun f => by rw [← hq]
    refine h.of_frame hb ?_ ?_ ?_ ?_ ?_ ?_ ?_ ?_ hpl
    · rw [e State.cfg]; exact hf.cfg
    · rw [e State.cmd]; exact hf.cmd
    · rw [e State.status]; exact hf.status
    · rw [e State.errCode]; exact hf.errCode
    · rw [e State.inLen]; exact hf.inLen
    · rw [e State.ib]; exact hf.ib
    · rw [hq]; exact ⟨ho.dense, ho.fits⟩
    · rw [e State.seq]; exact hne
  · have := he.inv h hb
    have e : advance i t = t := by simp [advance, this.2]
    rw [e]; exact this.1

/-- The sequencer stays where a command has completed. -/
theorem advance_ended {i : Instr} {t : State} (h : t.busy = false) : advance i t = t := by simp [advance, h]

/-- What the step adds after a token. -/
theorem tokenDone_eq (t : State) :
    tokenDone t = { t with dBit := t.dBit + 1, seq := if (t.dBit + 1).toNat = 8 then .group else .token } := rfl

/-- After a token the core stands at the next boundary. -/
theorem tokenDone_ok {i : Instr} {t : State} (hadv : advance i t = tokenDone t)
    (h : t.decoderOk) (hd : t.dBit.toNat < 8) :
    ∃ q, advance i t = { t with dBit := (advance i t).dBit, seq := q } ∧ q ≠ .idle ∧ (advance i t).placeOk := by
  rw [hadv, tokenDone_eq]
  refine ⟨_, rfl, by split <;> simp, ?_⟩
  have hs := dBit_succ hd
  by_cases h8 : (t.dBit + 1).toNat = 8
  · simp only [h8, if_true]; exact h
  · simp only [h8, if_false]; exact ⟨h, by show (t.dBit + 1).toNat < 8; omega⟩

/-! ## Fetching an element -/

/-- Bytes of IB below IN_LEN. -/
theorem fetchBytes_dense {s : State} (hd : s.ib.dense s.inLen) (n a : Nat) (h : a + n ≤ s.inLen) :
    fetchBytes n a s = some ((s.ib.bytes.drop a).take n) := by
  have hl := Memory.bytes_length hd
  induction n generalizing a with
  | zero => simp [fetchBytes]
  | succ n ih =>
    obtain ⟨b, h1, h2⟩ := readIB_some hd (a := a) (by omega)
    have : a < s.ib.bytes.length := by omega
    have hb : s.ib.bytes[a] = b := by simpa [this] using h2
    simp only [fetchBytes, h1, ih (a + 1) (by omega)]
    rw [List.drop_eq_getElem_cons this, List.take_succ_cons, hb]

/-- The element at a group boundary. -/
theorem fetchGroup {s : State} (h : DecInv s) :
    (s.avail = 0 ∧ fetchElement .group s = .ok .decEnd) ∨
    (s.rp < s.inLen ∧ ∃ f, s.readIB s.rp = some f ∧ fetchElement .group s = .ok (.ctrl f)) := by
  unfold fetchElement
  split
  · exact .inl ⟨‹_›, rfl⟩
  · rename_i ha
    right
    simp only [State.avail] at ha
    obtain ⟨f, hf, _⟩ := readIB_some h.dense (a := s.rp) (by omega)
    refine ⟨by omega, f, hf, ?_⟩
    have : min s.avail (elementSize .group) = 1 := by simp [elementSize, State.avail]; omega
    simp [this, fetchBytes, hf, decode]

/-- The element at a clear control bit. -/
theorem fetchLit {s : State} (h : DecInv s) :
    (s.avail = 0 ∧ fetchElement (.token false) s = .ok .decEnd) ∨
    (s.rp < s.inLen ∧ ∃ f, s.readIB s.rp = some f ∧ fetchElement (.token false) s = .ok (.lit f)) := by
  unfold fetchElement
  split
  · exact .inl ⟨‹_›, rfl⟩
  · rename_i ha
    right
    simp only [State.avail] at ha
    obtain ⟨f, hf, _⟩ := readIB_some h.dense (a := s.rp) (by omega)
    refine ⟨by omega, f, hf, ?_⟩
    have : min s.avail (elementSize (.token false)) = 1 := by simp [elementSize, State.avail]; omega
    simp [this, fetchBytes, hf, decode]

/-- The element at a set control bit. -/
theorem fetchMatch {s : State} (h : DecInv s) :
    (s.avail = 0 ∧ fetchElement (.token true) s = .ok .decEnd) ∨
    (1 ≤ s.avail ∧ s.avail ≤ 4 ∧ fetchElement (.token true) s = .ok (.decAbort .truncatedStream)) ∨
    (5 ≤ s.avail ∧ ∃ b0 b1 b2 b3 nb, fetchBytes 5 s.rp s = some [b0, b1, b2, b3, nb] ∧
      fetchElement (.token true) s =
        .ok (.matchTok (u16Of s.cfg.order b0 b1) (u16Of s.cfg.order b2 b3) nb)) := by
  unfold fetchElement
  have hl := Memory.bytes_length h.dense
  have hr := h.rp
  split
  · exact .inl ⟨‹_›, rfl⟩
  · rename_i ha
    right
    have ha' := ha
    simp only [State.avail] at ha'
    rw [fetchBytes_dense h.dense _ _ (by simp only [State.avail]; omega)]
    have hlen : ((s.ib.bytes.drop s.rp).take (min s.avail (elementSize (.token true)))).length = min s.avail 5 := by
      simp [elementSize, State.avail, hl]
    by_cases h5 : 5 ≤ s.avail
    · right
      refine ⟨h5, ?_⟩
      have hmin : min s.avail (elementSize (.token true)) = 5 := by simp [elementSize]; omega
      rw [hmin] at hlen ⊢
      rw [fetchBytes_dense h.dense 5 s.rp (by simp only [State.avail] at h5; omega)]
      match hb : (s.ib.bytes.drop s.rp).take 5 with
      | [b0, b1, b2, b3, nb] => exact ⟨b0, b1, b2, b3, nb, rfl, rfl⟩
      | [] | [_] | [_, _] | [_, _, _] | [_, _, _, _] => rw [hb] at hlen; simp at hlen; omega
      | _ :: _ :: _ :: _ :: _ :: _ :: _ => rw [hb] at hlen; simp at hlen; omega
    · left
      refine ⟨by omega, by omega, ?_⟩
      match hb : (s.ib.bytes.drop s.rp).take (min s.avail (elementSize (.token true))) with
      | [] => rw [hb] at hlen; simp at hlen; omega
      | [_] | [_, _] | [_, _, _] | [_, _, _, _] => rfl
      | _ :: _ :: _ :: _ :: _ :: _ => rw [hb] at hlen; simp at hlen; omega

/-- Everything a Match element can do. -/
theorem matchElement_sat {off len : Half} {nb : Byte} {s : State} (h : DecInv s) (hr : s.rp + 5 ≤ s.inLen) :
    (matchElement off len nb s).Sat (fun t => DecInv t ∧ Frame s t ∧ t.rp = s.rp + 5 ∧ t.dBit = s.dBit ∧ t.dCtrl = s.dCtrl) (EndOk s) := by
  unfold matchElement
  have hi : DecInv (nextRead nb (lengthRead len (offsetRead off s))) :=
    ⟨h.dense, ⟨h.out.dense, h.out.fits⟩, by show s.rp + 2 + 2 + 1 ≤ s.inLen; omega⟩
  have hf : Frame s (nextRead nb (lengthRead len (offsetRead off s))) := by constructor <;> rfl
  refine (replay_sat hi).mono ?_ (fun u hu => hu.of_frame hf)
  rintro t ⟨ht, hf'⟩
  exact ⟨ht, hf.trans hf'.toFrame, hf'.rp, hf'.dBit, hf'.dCtrl⟩

/-! ## The host -/

/-- Reset meets the invariant, in any state. -/
theorem powerOn_inv (s : State) : Inv (powerOn s) := by
  refine ⟨by simp [Memory.dense], by simp [Memory.dense], by simp [fitsCap_zero], by simp [fitsCap_zero], ?_, ?_, ?_, ?_, ?_, ?_⟩
  · simp
  · simp [State.err]; decide
  · simp
  · simp [State.busy]; decide
  · simp [State.busy]; decide
  · simp [State.placeOk]

/-- Command start keeps it. -/
theorem commandStart_inv {s : State} (h : Inv s) (c : BitVec 2) (hc : c = 1 ∨ c = 2) : Inv (commandStart c s) := by
  refine ⟨by simpa using h.ibDense, by simp [Memory.dense], by simpa using h.inFits, by simp [fitsCap_zero], ?_, ?_, ?_, ?_, ?_, ?_⟩
  · simp
  · simp [State.err]; decide
  · simp
  · simp only [commandStart_fields, State.busy]
    cases s.cfg.grain <;> simp [firstSeq] <;> decide
  · exact fun _ => by simpa using hc
  · simp only [State.placeOk, commandStart_fields]
    cases s.cfg.grain <;> simp [firstSeq]

/-- The reserved command keeps it. -/
theorem badCommand_inv {s : State} (h : Inv s) : Inv (badCommand s) := by
  refine ⟨by simpa [badCommand] using h.ibDense, by simp [badCommand, Memory.dense], by simpa [badCommand] using h.inFits, by simp [badCommand, fitsCap_zero], ?_, ?_, ?_, ?_, ?_, ?_⟩
  · simp [badCommand]
  · simp [badCommand, State.err]; decide
  · simp [badCommand, errCodeOf]
  · simp [badCommand, State.busy]; decide
  · simp [badCommand, State.busy]; decide
  · simp [badCommand, State.placeOk]

/-- NOP keeps it. -/
theorem nopDone_inv {s : State} (h : Inv s) (hb : s.busy = false) : Inv (nopDone s) := by
  have hs := h.seqIdle hb
  refine ⟨h.ibDense, h.obDense, h.inFits, h.outFits, h.statusLegal, h.errCodeIffErr, h.errCodeLegal, h.busyIffPlace, ?_, ?_⟩
  · intro hb'; rw [show (nopDone s).busy = s.busy from rfl, hb] at hb'; simp at hb'
  · simp [State.placeOk, hs]

/-- HOST.LOAD keeps it. -/
theorem loaded_inv {s : State} (h : Inv s) (hb : s.busy = false) (bytes : List Byte) (hf : s.loadTooLong bytes.length = false) : Inv (loaded bytes s) := by
  have hs := h.seqIdle hb
  refine ⟨Memory.ofBytes_dense bytes, h.obDense, ?_, h.outFits, h.statusLegal, h.errCodeIffErr, h.errCodeLegal, h.busyIffPlace, h.direction, ?_⟩
  · simp only [State.loadTooLong] at hf
    simp only [fitsCap, loaded_fields]
    cases hc : s.cfg.capIn <;> simp_all
  · simp [State.placeOk, hs]

/-- Every host operation answers a next state and keeps it. -/
theorem host_inv {s : State} (h : Inv s) (o : HostOp) : ∃ t, exec o.instr s = .next t ∧ Inv t := by
  cases o with
  | load bytes =>
    simp only [HostOp.instr, exec, execHostLoad, whenReady]
    cases hb : s.busy with
    | true => exact ⟨_, rfl, h.answer _⟩
    | false =>
      simp only [Bool.false_eq_true, if_false]
      cases hf : s.loadTooLong bytes.length with
      | true => exact ⟨_, rfl, h.answer _⟩
      | false => exact ⟨_, rfl, (loaded_inv h hb bytes hf).answer _⟩
  | cmd v =>
    simp only [HostOp.instr, exec, execHostCmd, execNop, execEncode, execDecode, execReserved, whenReady]
    cases hb : s.busy with
    | true => simp only [if_true]; refine ⟨refuseHost s, ?_, h.answer _⟩; split <;> try rfl
              split <;> try rfl
              split <;> rfl
    | false =>
      simp only [Bool.false_eq_true, if_false]
      split
      · exact ⟨_, rfl, (nopDone_inv h hb).answer _⟩
      · split
        · exact ⟨_, rfl, (commandStart_inv h 1 (.inl rfl)).answer _⟩
        · split
          · exact ⟨_, rfl, (commandStart_inv h 2 (.inr rfl)).answer _⟩
          · exact ⟨_, rfl, (badCommand_inv h).answer _⟩
  | poll =>
    refine ⟨_, rfl, ?_⟩
    exact ⟨h.ibDense, h.obDense, h.inFits, h.outFits, h.statusLegal, h.errCodeIffErr, h.errCodeLegal, h.busyIffPlace, h.direction, h.place⟩
  | read a =>
    simp only [HostOp.instr, exec, execHostRead, whenReady]
    cases hb : s.busy with
    | true => exact ⟨_, rfl, h.answer _⟩
    | false =>
      simp only [Bool.false_eq_true, if_false]
      split
      · rename_i hr
        simp only [State.readable, Bool.and_eq_true, decide_eq_true_eq] at hr
        have hl := Memory.bytes_length h.obDense
        have : s.readOB a = some s.ob.bytes[a] := by
          simp [State.readOB, hr.2, Memory.read_dense h.obDense, hl]
        rw [this]
        exact ⟨_, rfl, h.answer _⟩
      · exact ⟨_, rfl, h.answer _⟩

end Sys2Proof.Machine
end

