-- ==== Sys2Proof/Laws/Grain.lean ====
section
/-! SUPPORT. No operation of a command reads the sequencer or the size of a step: run from another place or at another size, it
does the same (R6). One lemma per operation. -/

namespace Sys2Proof.Machine

/-- Another step size: no operation of a command reads it. -/
def regrain (g : Grain) (s : State) : State := { s with cfg := { s.cfg with grain := g } }

/-- Another place of the sequencer and another step size. -/
def reseat (q : Seq) (g : Grain) (s : State) : State := { s with cfg := { s.cfg with grain := g }, seq := q }

/-- The same of what an operation leads to; a completed command stands nowhere. -/
def Flow.reseat (q : Seq) (g : Grain) (x : Flow) : Flow :=
  match x with
  | .go s => .go (Machine.reseat q g s)
  | .ended s => .ended (regrain g s)
  | .stop f => .stop f

/-- One operation after another. -/
theorem blind_andThen {x y : Flow} {k : State → Flow} {q : Seq} {g : Grain} (h : y = x.reseat q g)
    (hk : ∀ s, k (reseat q g s) = (k s).reseat q g) : y.andThen k = (x.andThen k).reseat q g := by
  subst h; cases x
  · exact hk _
  · rfl
  · rfl

variable (q : Seq) (g : Grain)

/-- `raise` does not depend on the place or on the size of a step. -/
theorem blind_raise (k : ErrKind) (s : State) : raise k (reseat q g s) = (raise k s).reseat q g := rfl

/-- `append` does not depend on the place or on the size of a step. -/
theorem blind_append (v : Byte) (s : State) : append v (reseat q g s) = (append v s).reseat q g := by
  unfold append
  rw [show (reseat q g s).outputFull = s.outputFull from rfl]
  cases s.outputFull <;> rfl

/-- `appendAll` does not depend on the place or on the size of a step. -/
theorem blind_appendAll (bs : List Byte) (s : State) : appendAll bs (reseat q g s) = (appendAll bs s).reseat q g := by
  induction bs generalizing s with
  | nil => rfl
  | cons b bs ih => exact blind_andThen (blind_append q g b s) ih

/-- `emitSlots` does not depend on the place or on the size of a step. -/
theorem blind_emitSlots (bs : List Slot) (s : State) : emitSlots bs (reseat q g s) = (emitSlots bs s).reseat q g := by
  induction bs generalizing s with
  | nil => rfl
  | cons b bs ih => exact blind_andThen (blind_appendAll q g _ s) ih

/-- `extend` does not depend on the place or on the size of a step. -/
theorem blind_extend (n : Nat) (s : State) : extendRun n (reseat q g s) = (extendRun n s).reseat q g := by
  induction n generalizing s with
  | zero => rfl
  | succ n ih =>
    unfold extendRun
    have e : ∀ i k, (reseat q g s).cmpBytes i k = s.cmpBytes i k := fun _ _ => rfl
    have e2 : ∀ i k, (reseat q g s).cmpDefined i k = s.cmpDefined i k := fun _ _ => rfl
    have e3 : (reseat q g s).mK = s.mK := rfl
    have e4 : (reseat q g s).mI = s.mI := rfl
    have e5 : (reseat q g s).cfg.lookaheadSize = s.cfg.lookaheadSize := rfl
    rw [e3, e4, e5, e, e2]
    split
    · split
      · rfl
      · exact ih { s with mK := s.mK + 1 }
      · rfl
    · rfl

/-- `len` does not depend on the place or on the size of a step. -/
theorem blind_len (s : State) : matLen (reseat q g s) = (matLen s).reseat q g := blind_extend q g _ { s with mK := 0 }

/-- `sel` does not depend on the place or on the size of a step. -/
theorem blind_sel (s : State) : matSel (reseat q g s) = (matSel s).reseat q g := by
  unfold matSel selected
  show (if s.mBlen.toNat < s.mK.toNat then
    if s.mI < s.pos then Flow.go (if s.pos - s.mI < 65536 then _ else _) else _ else _) = _
  split
  · split
    · split <;> rfl
    · rfl
  · rfl

/-- `scan` does not depend on the place or on the size of a step. -/
theorem blind_scan (n : Nat) (s : State) : scanCandidates n (reseat q g s) = (scanCandidates n s).reseat q g := by
  induction n generalizing s with
  | zero => rfl
  | succ n ih =>
    exact blind_andThen (blind_len q g { s with mI := s.pos - (n + 1) }) fun a => blind_andThen (blind_sel q g a) ih

/-- `find` does not depend on the place or on the size of a step. -/
theorem blind_find (s : State) : matFind (reseat q g s) = (matFind s).reseat q g := by
  exact blind_scan q g _ { s with mBoff := 0, mBlen := 0, mLo := s.windowStart }

/-- `select` does not depend on the place or on the size of a step. -/
theorem blind_select (s : State) : encSelect (reseat q g s) = (encSelect s).reseat q g := by
  unfold encSelect
  show (if s.pos < s.cfg.windowSize.val then Flow.go (Machine.reseat q g s) else matFind (Machine.reseat q g s)) = _
  split
  · rfl
  · exact blind_find q g s

/-- `encLit` does not depend on the place or on the size of a step. -/
theorem blind_encLit (s : State) : encLit (reseat q g s) = (encLit s).reseat q g := by
  unfold encLit
  rw [show (reseat q g s).readIB (reseat q g s).pos = s.readIB s.pos from rfl]
  split <;> rfl

/-- `encMatch` does not depend on the place or on the size of a step. -/
theorem blind_encMatch (s : State) : encMatch (reseat q g s) = (encMatch s).reseat q g := by
  unfold encMatch
  rw [show (reseat q g s).nextByte = s.nextByte from rfl]
  split <;> rfl

/-- `flush` does not depend on the place or on the size of a step. -/
theorem blind_flush (s : State) : encFlush (reseat q g s) = (encFlush s).reseat q g := by
  unfold encFlush
  rw [show (reseat q g s).gCnt = s.gCnt from rfl]
  split
  · exact blind_andThen (blind_append q g _ s) fun a => blind_andThen (blind_emitSlots q g _ a) fun _ => rfl
  · rfl

/-- `push` does not depend on the place or on the size of a step. -/
theorem blind_push (s : State) : encPush (reseat q g s) = (encPush s).reseat q g := by
  unfold encPush
  rw [show (reseat q g s).gCnt = s.gCnt from rfl, show (stored (reseat q g s)).gCnt = (stored s).gCnt from rfl]
  split
  · split
    · exact blind_flush q g (stored s)
    · rfl
  · rfl

/-- `end` does not depend on the place or on the size of a step. -/
theorem blind_end (s : State) : encEnd (reseat q g s) = (encEnd s).reseat q g := by
  unfold encEnd
  refine blind_andThen ?_ fun _ => rfl
  rw [show (reseat q g s).gCnt = s.gCnt from rfl]
  split
  · exact blind_flush q g s
  · rfl

/-- `emit` does not depend on the place or on the size of a step. -/
theorem blind_emit (s : State) : (if (reseat q g s).wantsMatch then encMatch (reseat q g s) else encLit (reseat q g s)) =
    (if s.wantsMatch then encMatch s else encLit s).reseat q g := by
  rw [show (reseat q g s).wantsMatch = s.wantsMatch from rfl]
  split
  · exact blind_encMatch q g s
  · exact blind_encLit q g s

/-- `pass` does not depend on the place or on the size of a step. -/
theorem blind_pass (s : State) : encPass (reseat q g s) = (encPass s).reseat q g :=
  blind_andThen (blind_select q g s) fun a => blind_andThen (blind_emit q g a) (blind_push q g)

/-- `encLoop` does not depend on the place or on the size of a step. -/
theorem blind_encLoop (n : Nat) (s : State) : encLoop n (reseat q g s) = (encLoop n s).reseat q g := by
  induction n generalizing s with
  | zero =>
    unfold encLoop
    show (if s.pos < s.inLen then Flow.stop .loopBound else encEnd (Machine.reseat q g s)) = _
    split
    · rfl
    · exact blind_end q g s
  | succ n ih =>
    unfold encLoop
    show (if s.pos < s.inLen then (encPass (Machine.reseat q g s)).andThen (encLoop n) else encEnd (Machine.reseat q g s)) = _
    split
    · exact blind_andThen (blind_pass q g s) ih
    · exact blind_end q g s

/-- `encRun` does not depend on the place or on the size of a step. -/
theorem blind_encRun (s : State) : encRun (reseat q g s) = (encRun s).reseat q g := by
  unfold encRun encStart
  rw [show (reseat q g s).inLen = s.inLen from rfl]
  split
  · rfl
  · exact blind_encLoop q g _ { clearOutput s with pos := 0, gCnt := 0, gCtrl := 0 }

/-- `ctrl` does not depend on the place or on the size of a step. -/
theorem blind_ctrl (s : State) : decCtrl (reseat q g s) = (decCtrl s).reseat q g := by
  unfold decCtrl
  rw [show (reseat q g s).avail = s.avail from rfl, show (reseat q g s).readIB (reseat q g s).rp = s.readIB s.rp from rfl]
  split
  · rfl
  · split <;> rfl

/-- `litRead` does not depend on the place or on the size of a step. -/
theorem blind_litRead (b : Byte) (s : State) : literalRead b (reseat q g s) = (literalRead b s).reseat q g :=
  blind_andThen (blind_append q g b s) fun _ => rfl

/-- `decLit` does not depend on the place or on the size of a step. -/
theorem blind_decLit (s : State) : decLit (reseat q g s) = (decLit s).reseat q g := by
  unfold decLit
  rw [show (reseat q g s).readIB (reseat q g s).rp = s.readIB s.rp from rfl]
  split
  · rfl
  · exact blind_litRead q g _ s

/-- `off` does not depend on the place or on the size of a step. -/
theorem blind_off (s : State) : decFetchOff (reseat q g s) = (decFetchOff s).reseat q g := by
  unfold decFetchOff
  rw [show (reseat q g s).avail = s.avail from rfl, show (reseat q g s).readU16 (reseat q g s).rp = s.readU16 s.rp from rfl]
  split
  · rfl
  · split
    · rfl
    · split <;> rfl

/-- `flen` does not depend on the place or on the size of a step. -/
theorem blind_flen (s : State) : decFetchLen (reseat q g s) = (decFetchLen s).reseat q g := by
  unfold decFetchLen
  rw [show (reseat q g s).avail = s.avail from rfl, show (reseat q g s).readU16 (reseat q g s).rp = s.readU16 s.rp from rfl]
  split
  · rfl
  · split <;> rfl

/-- `fnxt` does not depend on the place or on the size of a step. -/
theorem blind_fnxt (s : State) : decFetchNxt (reseat q g s) = (decFetchNxt s).reseat q g := by
  unfold decFetchNxt
  rw [show (reseat q g s).avail = s.avail from rfl, show (reseat q g s).readIB (reseat q g s).rp = s.readIB s.rp from rfl]
  split
  · rfl
  · split <;> rfl

/-- `check` does not depend on the place or on the size of a step. -/
theorem blind_check (s : State) : decCheck (reseat q g s) = (decCheck s).reseat q g := by
  unfold decCheck
  rw [show (reseat q g s).dOff = s.dOff from rfl, show (reseat q g s).outLen = s.outLen from rfl]
  split <;> rfl

/-- `copyB` does not depend on the place or on the size of a step. -/
theorem blind_copyB (n : Nat) (s : State) : copyBytes n (reseat q g s) = (copyBytes n s).reseat q g := by
  induction n generalizing s with
  | zero => rfl
  | succ n ih =>
    unfold copyBytes
    rw [show (reseat q g s).readOB (reseat q g s).dSrc = s.readOB s.dSrc from rfl]
    split
    · rfl
    · exact blind_andThen (blind_append q g _ s) fun a => ih { a with dSrc := a.dSrc + 1, dRem := a.dRem - 1 }

/-- `copy` does not depend on the place or on the size of a step. -/
theorem blind_copy (s : State) : decCopy (reseat q g s) = (decCopy s).reseat q g := by
  unfold decCopy
  rw [show (reseat q g s).dOff = s.dOff from rfl, show (reseat q g s).outLen = s.outLen from rfl]
  split
  · exact blind_copyB q g _ { s with dSrc := s.outLen - s.dOff.toNat, dRem := s.dLen }
  · rfl

/-- `next` does not depend on the place or on the size of a step. -/
theorem blind_next (s : State) : decNext (reseat q g s) = (decNext s).reseat q g := blind_append q g _ s

/-- `replay` does not depend on the place or on the size of a step. -/
theorem blind_replay (s : State) : replay (reseat q g s) = (replay s).reseat q g :=
  blind_andThen (blind_check q g s) fun a => blind_andThen (blind_copy q g a) (blind_next q g)

/-- `match` does not depend on the place or on the size of a step. -/
theorem blind_match (s : State) : decMatch (reseat q g s) = (decMatch s).reseat q g :=
  blind_andThen (blind_off q g s) fun a => blind_andThen (blind_flen q g a) fun b => blind_andThen (blind_fnxt q g b) (blind_replay q g)

/-- `bit` does not depend on the place or on the size of a step. -/
theorem blind_bit (s : State) : decBit (reseat q g s) = (decBit s).reseat q g := by
  unfold decBit
  rw [show (reseat q g s).avail = s.avail from rfl, show (reseat q g s).dBit = s.dBit from rfl, show (reseat q g s).dCtrl = s.dCtrl from rfl]
  split
  · rfl
  · split
    · refine blind_andThen ?_ fun _ => rfl
      split
      · exact blind_match q g s
      · exact blind_decLit q g s
    · rfl

/-- `tokens` does not depend on the place or on the size of a step. -/
theorem blind_tokens (n : Nat) (s : State) : decTokens n (reseat q g s) = (decTokens n s).reseat q g := by
  induction n generalizing s with
  | zero => rfl
  | succ n ih =>
    unfold decTokens
    rw [show (reseat q g s).avail = s.avail from rfl, show (reseat q g s).dBit = s.dBit from rfl]
    split
    · exact blind_andThen (blind_bit q g s) ih
    · rfl

/-- `decLoop` does not depend on the place or on the size of a step. -/
theorem blind_decLoop (n : Nat) (s : State) : decLoop n (reseat q g s) = (decLoop n s).reseat q g := by
  induction n generalizing s with
  | zero => rfl
  | succ n ih => exact blind_andThen (blind_ctrl q g s) fun a => blind_andThen (blind_tokens q g 8 a) ih

/-- `decRun` does not depend on the place or on the size of a step. -/
theorem blind_decRun (s : State) : decRun (reseat q g s) = (decRun s).reseat q g :=
  blind_decLoop q g _ { clearOutput s with rp := 0 }

end Sys2Proof.Machine
end

