-- ==== Sys2Proof/Laws/PerInstr.lean ====
section
/-! SUPPORT. Statements for all instructions, one lemma per constructor. -/

namespace Sys2Proof.Laws.Size

/-- An instruction that has an encoding takes exactly as many bytes as its context says: one for a control byte, a Literal
or a command, five for a Match or a slot (R62 to R66, R68). -/
def Statement (i : Instr) : Prop :=
  ∀ (o : Order) (c : Ctx) (bytes : List Byte), encode o i = some (c, bytes) →
    bytes.length = Sys2Proof.Machine.elementSize c

/-- The bytes of a 16-bit field are two (R45). -/
theorem u16Bytes_length (o : Order) (v : Half) : (u16Bytes o v).length = 2 := by cases o <;> rfl

theorem ctrl (f : Byte) : Statement (.ctrl f) := by
  rintro o c bytes ⟨⟩
  rfl

theorem lit (b : Byte) : Statement (.lit b) := by
  rintro o c bytes ⟨⟩
  rfl

theorem matchTok (off len : Half) (nxt : Byte) : Statement (.matchTok off len nxt) := by
  rintro o c bytes ⟨⟩
  simp [u16Bytes_length, Sys2Proof.Machine.elementSize]

theorem slot (off len : Half) (byte : Byte) : Statement (.slot off len byte) := by
  rintro o c bytes ⟨⟩
  simp [u16Bytes_length, Sys2Proof.Machine.elementSize]

theorem nop : Statement .nop := by
  rintro o c bytes ⟨⟩
  rfl

theorem encode : Statement .encode := by
  rintro o c bytes ⟨⟩
  rfl

theorem decode : Statement .decode := by
  rintro o c bytes ⟨⟩
  rfl

theorem reserved : Statement .reserved := by
  rintro o c bytes ⟨⟩
  rfl

theorem matFind : Statement .matFind := by
  rintro o c bytes ⟨⟩

theorem matRange : Statement .matRange := by
  rintro o c bytes ⟨⟩

theorem matCmp : Statement .matCmp := by
  rintro o c bytes ⟨⟩

theorem matLen : Statement .matLen := by
  rintro o c bytes ⟨⟩

theorem matSel : Statement .matSel := by
  rintro o c bytes ⟨⟩

theorem encRun : Statement .encRun := by
  rintro o c bytes ⟨⟩

theorem encStart : Statement .encStart := by
  rintro o c bytes ⟨⟩

theorem encSelect : Statement .encSelect := by
  rintro o c bytes ⟨⟩

theorem encLit : Statement .encLit := by
  rintro o c bytes ⟨⟩

theorem encMatch : Statement .encMatch := by
  rintro o c bytes ⟨⟩

theorem encPush : Statement .encPush := by
  rintro o c bytes ⟨⟩

theorem encFlush : Statement .encFlush := by
  rintro o c bytes ⟨⟩

theorem encEnd : Statement .encEnd := by
  rintro o c bytes ⟨⟩

theorem decRun : Statement .decRun := by
  rintro o c bytes ⟨⟩

theorem decStart : Statement .decStart := by
  rintro o c bytes ⟨⟩

theorem decCtrl : Statement .decCtrl := by
  rintro o c bytes ⟨⟩

theorem decBit : Statement .decBit := by
  rintro o c bytes ⟨⟩

theorem decLit : Statement .decLit := by
  rintro o c bytes ⟨⟩

theorem decFetchOff : Statement .decFetchOff := by
  rintro o c bytes ⟨⟩

theorem decFetchLen : Statement .decFetchLen := by
  rintro o c bytes ⟨⟩

theorem decFetchNxt : Statement .decFetchNxt := by
  rintro o c bytes ⟨⟩

theorem decCheck : Statement .decCheck := by
  rintro o c bytes ⟨⟩

theorem decCopy : Statement .decCopy := by
  rintro o c bytes ⟨⟩

theorem decNext : Statement .decNext := by
  rintro o c bytes ⟨⟩

theorem decEnd : Statement .decEnd := by
  rintro o c bytes ⟨⟩

theorem decAbort (kind : ErrKind) : Statement (.decAbort kind) := by
  rintro o c bytes ⟨⟩

theorem hostLoad (bytes : List Byte) : Statement (.hostLoad bytes) := by
  rintro o c bytes ⟨⟩

theorem hostCmd (v : BitVec 2) : Statement (.hostCmd v) := by
  rintro o c bytes ⟨⟩

theorem hostPoll : Statement .hostPoll := by
  rintro o c bytes ⟨⟩

theorem hostRead (a : Nat) : Statement (.hostRead a) := by
  rintro o c bytes ⟨⟩

theorem run (b : Byte) (n : Nat) : Statement (.run b n) := by
  rintro o c bytes ⟨⟩

end Sys2Proof.Laws.Size
end

