-- ==== Sys2Proof/Laws/Run.lean ====
section
/-! SUPPORT. A running command, step by step, until it completes: what is left of it is the same from step to step, and a
rank falls (R6, R201). -/

namespace Sys2Proof.Machine

/-- The bound on the passes of the encoder does not matter. -/
theorem encLoop_fuel (n m : Nat) {s : State} (h : EncInv s) (hn : s.inLen ≤ n + s.pos) (hm : s.inLen ≤ m + s.pos) :
    encLoop n s = encLoop m s := by
  induction n generalizing m s with
  | zero =>
    have e : ¬ s.pos < s.inLen := by omega
    cases m <;> simp [encLoop, e]
  | succ n ih =>
    by_cases e : s.pos < s.inLen
    · cases m with
      | zero => omega
      | succ m =>
        simp only [encLoop, e, if_true]
        have hp := encPass_sat h e
        cases hx : encPass s with
        | go t =>
          rw [hx] at hp
          obtain ⟨h1, h2, h3⟩ := hp
          exact ih m h1 (by rw [h2.inLen]; omega) (by rw [h2.inLen]; omega)
        | ended t => rfl
        | stop f => rfl
    · cases m <;> simp [encLoop, e]

/-- The bound on the passes of the decoder does not matter. -/
theorem decLoop_fuel (n m : Nat) {s : State} (h : DecInv s) (hn : s.inLen < n + s.rp) (hm : s.inLen < m + s.rp) :
    decLoop n s = decLoop m s := by
  induction n generalizing m s with
  | zero => have := h.rp; omega
  | succ n ih =>
    cases m with
    | zero => have := h.rp; omega
    | succ m =>
      have hc := decInv_ctrl h
      simp only [decLoop]
      cases hx : decCtrl s with
      | go t =>
        rw [hx] at hc
        obtain ⟨h1, h2, h3, h4, _⟩ := hc
        have ht := decTokens_sat 8 h1
        simp only [Flow.go_andThen]
        cases hy : decTokens 8 t with
        | go u =>
          rw [hy] at ht
          obtain ⟨k1, k2, k3⟩ := ht
          exact ih m k1 (by rw [k2.inLen, h2.inLen]; omega) (by rw [k2.inLen, h2.inLen]; omega)
        | ended u => rfl
        | stop f => rfl
      | ended t => rfl
      | stop f => rfl

/-- What is left of a DECODE that stands at a token boundary. -/
def afterToken (N : Nat) (s : State) : Flow := (decTokens (8 - s.dBit.toNat) s).andThen (decLoop N)

/-- What is left of a DECODE when a token has been read. -/
def bitGo (N : Nat) (s : State) : Flow := afterToken N (bitDone s)

/-- What is left of a running command, by the place where it stands. -/
def remaining (N : Nat) (s : State) : Flow :=
  match s.seq with
  | .idle => .stop .lostSequencer
  | .whole => if s.cmd = 1 then encRun s else decRun s
  | .start => if s.cmd = 1 then encRun s else decRun s
  | .select => encLoop N s
  | .emit => (if s.wantsMatch then encMatch s else encLit s).andThen fun a => (encPush a).andThen (encLoop N)
  | .push => (encPush s).andThen (encLoop N)
  | .group => decLoop N s
  | .token => afterToken N s
  | .fetchLen => (decFetchLen s).andThen fun b => (decFetchNxt b).andThen fun c => (replay c).andThen (bitGo N)
  | .fetchNxt => (decFetchNxt s).andThen fun c => (replay c).andThen (bitGo N)
  | .check => (replay s).andThen (bitGo N)
  | .copy => (decCopy s).andThen fun b => (decNext b).andThen (bitGo N)
  | .next => (decNext s).andThen (bitGo N)

/-- It completes. -/
theorem afterToken_sat {N : Nat} {s : State} (h : DecInv s) (hN : s.inLen < N) : (afterToken N s).Sat (fun _ => False) (EndOk s) := by
  unfold afterToken
  refine (decTokens_sat _ h).andThen ?_
  rintro t ⟨h1, h2, _⟩
  exact (decLoop_sat N h1 (by rw [h2.inLen]; omega)).mono (fun _ h => h) (fun u hu => hu.of_frame h2)

/-- It completes. -/
theorem bitGo_sat {N : Nat} {s t : State} (h : DecInv t) (hf : Frame s t) (hN : s.inLen < N) : (bitGo N t).Sat (fun _ => False) (EndOk s) := by
  have hi : DecInv (bitDone t) := ⟨h.dense, ⟨h.out.dense, h.out.fits⟩, h.rp⟩
  have hf' : Frame s (bitDone t) := hf.trans (by constructor <;> rfl)
  exact (afterToken_sat hi (by rw [hf'.inLen]; exact hN)).mono (fun _ h => h) (fun u hu => hu.of_frame hf')

/-- What is left of a running command completes, with success or an error. -/
theorem remaining_sat {N : Nat} {s : State} (h : Inv s) (hb : s.busy = true) (hN : s.inLen + 1 < N) :
    (remaining N s).Sat (fun _ => False) (EndOk s) := by
  have hp := h.place
  have hne := h.busyIffPlace.1 hb
  cases hq : s.seq <;> simp only [remaining, hq, State.placeOk] at hp ⊢
  · exact absurd hq hne
  · split
    · exact encRun_sat h.ibDense
    · exact decRun_sat h.ibDense
  · split
    · exact encRun_sat h.ibDense
    · exact decRun_sat h.ibDense
  · exact encLoop_sat N (h.enc hp) (by omega)
  · refine (emit_sat (h.enc hp.1) hp.2.1 hp.2.2 _).andThen ?_
    rintro a ⟨h1, h2, _⟩
    refine Flow.Sat.mono (Q := EndOk a) ?_ (fun _ h => h) (fun u hu => hu.of_frame h2)
    refine (push_sat h1).andThen ?_
    rintro b ⟨k1, k2, _⟩
    exact (encLoop_sat N k1 (by rw [k2.inLen, h2.inLen]; omega)).mono (fun _ h => h) (fun u hu => hu.of_frame k2)
  · refine (push_sat (h.enc hp.1)).andThen ?_
    rintro b ⟨k1, k2, _⟩
    exact (encLoop_sat N k1 (by rw [k2.inLen]; omega)).mono (fun _ h => h) (fun u hu => hu.of_frame k2)
  · exact decLoop_sat N (h.dec hp) (by omega)
  · exact afterToken_sat (h.dec hp.1) (by omega)
  · refine (decInv_len (h.dec hp.1)).andThen ?_
    rintro a ⟨h1, h2, _⟩
    refine Flow.Sat.mono (Q := EndOk a) ?_ (fun _ h => h) (fun u hu => hu.of_frame h2)
    refine (decInv_nxt h1).andThen ?_
    rintro b ⟨k1, k2, _⟩
    refine Flow.Sat.mono (Q := EndOk b) ?_ (fun _ h => h) (fun u hu => hu.of_frame k2)
    refine (replay_sat k1).andThen ?_
    rintro c ⟨m1, m2⟩
    exact bitGo_sat m1 m2.toFrame (by rw [k2.inLen, h2.inLen]; omega)
  · refine (decInv_nxt (h.dec hp.1)).andThen ?_
    rintro b ⟨k1, k2, _⟩
    refine Flow.Sat.mono (Q := EndOk b) ?_ (fun _ h => h) (fun u hu => hu.of_frame k2)
    refine (replay_sat k1).andThen ?_
    rintro c ⟨m1, m2⟩
    exact bitGo_sat m1 m2.toFrame (by rw [k2.inLen]; omega)
  · refine (replay_sat (h.dec hp.1)).andThen ?_
    rintro c ⟨m1, m2⟩
    exact bitGo_sat m1 m2.toFrame (by omega)
  · refine (decInv_copy (h.dec hp.1) hp.2.2.1 hp.2.2.2).andThen ?_
    rintro b ⟨k1, k2⟩
    refine Flow.Sat.mono (Q := EndOk b) ?_ (fun _ h => h) (fun u hu => hu.of_frame k2.toFrame)
    refine (decInv_next k1).andThen ?_
    rintro c ⟨m1, m2⟩
    exact bitGo_sat m1 m2.toFrame (by rw [k2.inLen]; omega)
  · refine (decInv_next (h.dec hp.1)).andThen ?_
    rintro c ⟨m1, m2⟩
    exact bitGo_sat m1 m2.toFrame (by omega)

/-- `afterToken` does not depend on the place or on the size of a step. -/
theorem blind_after (q : Seq) (g : Grain) (N : Nat) (s : State) : afterToken N (reseat q g s) = (afterToken N s).reseat q g :=
  blind_andThen (blind_tokens q g _ s) (blind_decLoop q g N)

/-- Nor does `bitGo`. -/
theorem blind_bitGo (q : Seq) (g : Grain) (N : Nat) (s : State) : bitGo N (reseat q g s) = (bitGo N s).reseat q g :=
  blind_after q g N (bitDone s)

/-- A completed command is the same from every place. -/
theorem blind_ended {K : State → Flow} {u : State} {q : Seq} (hK : ∀ q g s, K (reseat q g s) = (K s).reseat q g)
    (hs : (K (goto q u)).Sat (fun _ => False) (EndOk (goto q u))) : K (goto q u) = K u := by
  have e : u = reseat u.seq u.cfg.grain (goto q u) := rfl
  conv_rhs => rw [e, hK]
  cases hx : K (goto q u) with
  | go t => rw [hx] at hs; exact hs.elim
  | stop f => rw [hx] at hs; exact hs.elim
  | ended t =>
    rw [hx] at hs
    have hc : t.cfg = u.cfg := (show EndOk (goto q u) t from hs).cfg
    show Flow.ended t = Flow.ended (regrain u.cfg.grain t)
    rw [← hc]; rfl

/-- A number that every step of a running command lowers. -/
def rank (s : State) : Nat :=
  match s.seq with
  | .idle => 0
  | .whole => 1
  | .start => 8 * s.inLen + 9
  | .select => 4 * (s.inLen + 1 - s.pos) + 3
  | .emit => 4 * (s.inLen + 1 - s.pos) + 2
  | .push => 4 * (s.inLen + 1 - s.pos) + 4
  | .group => 8 * (s.inLen - s.rp) + 1
  | .token => 8 * (s.inLen - s.rp) + 2
  | .fetchLen => 8 * (s.inLen - s.rp) + 2
  | .fetchNxt => 8 * (s.inLen - s.rp) + 2
  | .check => 8 * (s.inLen - s.rp) + 5
  | .copy => 8 * (s.inLen - s.rp) + 4
  | .next => 8 * (s.inLen - s.rp) + 3

/-- One step does a part of what is left of the command, and lowers the rank or completes it. -/
def Sim (N : Nat) (s : State) : Prop :=
  ∃ t, runStep s = .next t ∧ Inv t ∧ t.inputs = s.inputs ∧ t.inLen = s.inLen ∧
    ((t.busy = true ∧ remaining N t = remaining N s ∧ rank t < rank s) ∨ (t.busy = false ∧ remaining N s = .ended t))

/-- `Sim` from what the selected instruction does. -/
theorem sim_of {N : Nat} {s : State} {i : Instr} {x : Flow} {K : State → Flow} {P : State → Prop} (h : Inv s) (hb : s.busy = true)
    (hN : s.inLen + 1 < N)
    (hi : selectInstr s = .ok i) (hx : exec i s = x.outcome) (hs : x.Sat P (EndOk s)) (hr : remaining N s = x.andThen K)
    (hK : ∀ q g s, K (reseat q g s) = (K s).reseat q g)
    (hP : ∀ u, P u → Frame s u ∧ OutOk u ∧ ∃ q d, advance i u = goto q { u with dBit := d } ∧ q ≠ .idle ∧ (advance i u).placeOk ∧
      remaining N (advance i u) = K (goto q u) ∧ rank (advance i u) < rank s) : Sim N s := by
  obtain ⟨u, h1, h2⟩ := hs.outcome
  refine ⟨advance i u, by simp [runStep, hi, hx, h1], ?_⟩
  rcases h2 with ⟨e, hp⟩ | ⟨e, he⟩
  · obtain ⟨hf, ho, q, d, hq, hne, hpl, hrest, hrank⟩ := hP u hp
    have hinv : Inv (advance i u) := by
      refine h.of_frame hb ?_ ?_ ?_ ?_ ?_ ?_ ?_ ?_ hpl
      · rw [hq]; exact hf.cfg
      · rw [hq]; exact hf.cmd
      · rw [hq]; exact hf.status
      · rw [hq]; exact hf.errCode
      · rw [hq]; exact hf.inLen
      · rw [hq]; exact hf.ib
      · rw [hq]; exact ⟨ho.dense, ho.fits⟩
      · rw [hq]; exact hne
    have hbt : (advance i u).busy = true := by rw [hq]; show u.busy = true; rw [hf.busy]; exact hb
    have hil : (advance i u).inLen = s.inLen := by rw [hq]; exact hf.inLen
    refine ⟨hinv, by rw [hq]; exact hf.inputs, hil, .inl ⟨hbt, ?_, hrank⟩⟩
    rw [hr, e, Flow.go_andThen, hrest]
    refine blind_ended hK ?_
    have := remaining_sat hinv hbt (by rw [hil]; exact hN)
    rw [hrest] at this
    refine this.mono (fun _ h => h) (fun v hv => ?_)
    rw [hq] at hv
    exact ⟨hv.cfg, hv.cmd, hv.inLen, hv.ib, hv.inputs, hv.answer, hv.seq, hv.out, hv.done⟩
  · have := he.inv h hb
    have ea : advance i u = u := advance_ended this.2
    rw [ea]
    exact ⟨this.1, he.inputs, he.inLen, .inr ⟨this.2, by rw [hr, e]; rfl⟩⟩

/-- What is left after a token. -/
theorem remaining_token_done {N : Nat} {u : State} :
    remaining N (tokenDone u) = bitGo N (goto (if (u.dBit + 1).toNat = 8 then .group else .token) u) := by
  rw [tokenDone_eq]
  by_cases h8 : (u.dBit + 1).toNat = 8
  · simp only [h8, if_true, remaining]
    show _ = afterToken N (bitDone (goto .group u))
    unfold afterToken
    rw [show (bitDone (goto .group u)).dBit = u.dBit + 1 from rfl, h8]
    rfl
  · simp only [h8, if_false, remaining]
    rfl

/-- `Sim` for an instruction that ends a token. -/
theorem token_done {N : Nat} {s u : State} {i : Instr} (hadv : advance i u = tokenDone u) (hd : u.dBit.toNat < 8)
    (hok : u.decoderOk) (hil : u.inLen = s.inLen) (hr : ∀ d : Nat, d ≤ 2 → 8 * (s.inLen - u.rp) + d < rank s) :
    ∃ q d, advance i u = goto q { u with dBit := d } ∧ q ≠ .idle ∧ (advance i u).placeOk ∧
      remaining N (advance i u) = bitGo N (goto q u) ∧ rank (advance i u) < rank s := by
  rw [hadv]
  refine ⟨if (u.dBit + 1).toNat = 8 then .group else .token, u.dBit + 1, rfl, by split <;> simp, ?_, remaining_token_done, ?_⟩
  · rw [tokenDone_eq]
    have hs := dBit_succ hd
    by_cases h8 : (u.dBit + 1).toNat = 8
    · simp only [h8, if_true]; exact hok
    · simp only [h8, if_false]; exact ⟨hok, by show (u.dBit + 1).toNat < 8; omega⟩
  · rw [tokenDone_eq]
    by_cases h8 : (u.dBit + 1).toNat = 8
    · simp only [h8, if_true, rank]; rw [hil]; exact hr 1 (by omega)
    · simp only [h8, if_false, rank]; rw [hil]; exact hr 2 (by omega)

/-- One token of what is left. -/
theorem afterToken_step {N : Nat} {s : State} (h : DecInv s) (hd : s.dBit.toNat < 8) (ha : s.avail ≠ 0) :
    afterToken N s = (if controlBit s.dCtrl s.dBit.toNat then decMatch s else decLit s).andThen (bitGo N) := by
  unfold afterToken
  obtain ⟨k, hk⟩ : ∃ k, 8 - s.dBit.toNat = k + 1 := ⟨7 - s.dBit.toNat, by omega⟩
  rw [hk, decTokens, if_pos ⟨hd, ha⟩, decBit, if_neg ha, if_pos hd]
  rw [Flow.andThen_assoc, Flow.andThen_assoc]
  have hsat : (if controlBit s.dCtrl s.dBit.toNat then decMatch s else decLit s).Sat (fun t => t.dBit = s.dBit) (EndOk s) := by
    split
    · exact (decMatch_sat h).mono (fun t ht => ht.2.2.2.1) (fun _ h => h)
    · exact (decInv_lit h (by simp only [State.avail] at ha; omega)).mono (fun t ht => ht.2.2.2.1) (fun _ h => h)
  cases hx : (if controlBit s.dCtrl s.dBit.toNat then decMatch s else decLit s) with
  | go t =>
    rw [hx] at hsat
    have hbit : t.dBit = s.dBit := hsat
    simp only [Flow.go_andThen, bitGo, afterToken]
    have : 8 - (bitDone t).dBit.toNat = k := by
      show 8 - (t.dBit + 1).toNat = k
      rw [hbit, dBit_succ hd]; omega
    rw [this]
  | ended t => rfl
  | stop f => rfl

/-- At the end of the stream the group is left. -/
theorem afterToken_empty {N : Nat} {s : State} (ha : s.avail = 0) : afterToken N s = decLoop N s := by
  unfold afterToken
  cases 8 - s.dBit.toNat with
  | zero => rfl
  | succ k => rw [decTokens, if_neg (by simp [ha])]; rfl

/-- At the end of the stream the command completes. -/
theorem decLoop_empty {N : Nat} {s : State} (ha : s.avail = 0) (hN : 0 < N) : decLoop N s = .ended (complete s) := by
  obtain ⟨k, rfl⟩ : ∃ k, N = k + 1 := ⟨N - 1, by omega⟩
  simp [decLoop, decCtrl, ha, decEnd]

/-- A control byte of what is left. -/
theorem decLoop_ctrl {N : Nat} {s : State} {f : Byte} (h : DecInv s) (hr : s.readIB s.rp = some f) (hN : s.inLen + 1 < N) :
    decLoop N s = afterToken N (controlRead f s) := by
  have hlt := readIB_lt hr
  have ha : s.avail ≠ 0 := by simp only [State.avail]; omega
  obtain ⟨k, rfl⟩ : ∃ k, N = k + 1 := ⟨N - 1, by omega⟩
  have hi : DecInv (controlRead f s) := ⟨h.dense, ⟨h.out.dense, h.out.fits⟩, by show s.rp + 1 ≤ s.inLen; omega⟩
  conv_lhs => rw [decLoop]
  have : decCtrl s = .go (controlRead f s) := by simp [decCtrl, ha, hr]
  rw [this, Flow.go_andThen]
  unfold afterToken
  have e8 : 8 - (controlRead f s).dBit.toNat = 8 := rfl
  rw [e8]
  have hs := decTokens_sat 8 hi
  cases hx : decTokens 8 (controlRead f s) with
  | go t =>
    rw [hx] at hs
    obtain ⟨h1, h2, h3⟩ := hs
    have hil : t.inLen = s.inLen := h2.inLen
    have hrp : s.rp + 1 ≤ t.rp := h3
    exact decLoop_fuel _ _ h1 (by omega) (by omega)
  | ended t => rfl
  | stop f => rfl

/-- `Sim` for an instruction that completes the command. -/
theorem sim_end {N : Nat} {s t : State} {i : Instr} (h : Inv s) (hb : s.busy = true) (hi : selectInstr s = .ok i)
    (hx : exec i s = (Flow.ended t).outcome) (he : EndOk s t) (hr : remaining N s = .ended t) : Sim N s := by
  have := he.inv h hb
  refine ⟨t, ?_, this.1, he.inputs, he.inLen, .inr ⟨this.2, hr⟩⟩
  simp [runStep, hi, hx, advance_ended this.2]

/-- Every step of a running command. -/
theorem sim {N : Nat} {s : State} (h : Inv s) (hb : s.busy = true) (hN : s.inLen + 1 < N) : Sim N s := by
  have hpl := h.place
  have hne := h.busyIffPlace.1 hb
  cases hq : s.seq with
  | idle => exact absurd hq hne
  | whole =>
    rcases h.direction hb with hc | hc
    · have hs := encRun_sat h.ibDense
      cases hx : encRun s with
      | go t => rw [hx] at hs; exact hs.elim
      | stop f => rw [hx] at hs; exact hs.elim
      | ended t =>
        rw [hx] at hs
        exact sim_end h hb (i := .encRun) (by simp [selectInstr, hq, byDirection, hc]) (by rw [← hx]; rfl) hs (by simp [remaining, hq, hc, hx])
    · have hs := decRun_sat h.ibDense
      have hne1 : ¬ s.cmd = 1 := by rw [hc]; decide
      cases hx : decRun s with
      | go t => rw [hx] at hs; exact hs.elim
      | stop f => rw [hx] at hs; exact hs.elim
      | ended t =>
        rw [hx] at hs
        refine sim_end h hb (i := .decRun) (by simp [selectInstr, hq, byDirection, hc]) (by rw [← hx]; rfl) hs ?_
        simp only [remaining, hq]; rw [if_neg hne1, hx]
  | start =>
    rcases h.direction hb with hc | hc
    · refine sim_of (K := encLoop N) h hb hN (i := .encStart) (by simp [selectInstr, hq, byDirection, hc]) rfl
        (encStart_inv h.ibDense) ?_ (fun q g s => blind_encLoop q g N s) ?_
      · simp only [remaining, hq]; rw [if_pos hc, encRun]
        have hs := encStart_inv h.ibDense
        cases hx : encStart s with
        | go a =>
          rw [hx] at hs
          obtain ⟨_, h1, h2, h3, _⟩ := hs
          exact encLoop_fuel _ _ h1 (by omega) (by rw [h2.inLen]; omega)
        | ended a => rfl
        | stop f => rfl
      · rintro t ⟨h0, hi, hf, hp0, _⟩
        refine ⟨hf, hi.out, .select, t.dBit, ?_, by simp, ?_, ?_, ?_⟩
        · simp [advance, hf.busy, hb, goto]
        · simp only [advance, hf.busy, hb, if_true, goto, State.placeOk]
          exact EncInv.ok (s := t) hi (by rw [hf.cmd, hc]) (by rw [hf.inLen]; omega)
        · simp only [advance, hf.busy, hb, if_true]; rfl
        · simp only [advance, hf.busy, hb, if_true, goto, rank, hq]; rw [hf.inLen, hp0]; omega
    · have hne1 : ¬ s.cmd = 1 := by rw [hc]; decide
      refine sim_of (K := decLoop N) h hb hN (i := .decStart) (by simp [selectInstr, hq, byDirection, hc]) rfl
        (decStart_sat s h.ibDense) ?_ (fun q g s => blind_decLoop q g N s) ?_
      · simp only [remaining, hq]; rw [if_neg hne1, decRun]
        have hs := decStart_sat s h.ibDense
        cases hx : decStart s with
        | go a =>
          rw [hx] at hs
          obtain ⟨h1, h2, h3, _⟩ := hs
          exact decLoop_fuel _ _ h1 (by omega) (by rw [h2.inLen]; omega)
        | ended a => rfl
        | stop f => rfl
      · rintro t ⟨hi, hf, hr0, _⟩
        refine ⟨hf, hi.out, .group, t.dBit, ?_, by simp, ?_, ?_, ?_⟩
        · simp [advance, hf.busy, hb, goto]
        · simp only [advance, hf.busy, hb, if_true, goto, State.placeOk]
          exact ⟨by rw [hf.cmd, hc], hi.rp⟩
        · simp only [advance, hf.busy, hb, if_true]; rfl
        · simp only [advance, hf.busy, hb, if_true, goto, rank, hq]; rw [hf.inLen, hr0]; omega
  | select =>
    simp only [State.placeOk, hq] at hpl
    have hei := h.enc hpl
    by_cases hp : s.pos < s.inLen
    · obtain ⟨k, hk⟩ : ∃ k, N = k + 1 := ⟨N - 1, by omega⟩
      refine sim_of (K := fun a => (if a.wantsMatch then encMatch a else encLit a).andThen fun b => (encPush b).andThen (encLoop N)) h hb hN (i := .encSelect) (by simp [selectInstr, hq, hp]) rfl
        (encSelect_sat h.ibDense (by omega) _) ?_ (fun q g s => blind_andThen (blind_emit q g s) fun a => blind_andThen (blind_push q g a) (blind_encLoop q g N)) ?_
      · simp only [remaining, hq]
        have e : encLoop N s = encLoop (N + 1) s := encLoop_fuel _ _ hei (by omega) (by omega)
        rw [e, encLoop, if_pos hp, encPass, Flow.andThen_assoc]
        congr 1; funext a; rw [Flow.andThen_assoc]
      · rintro t ⟨ht, hm⟩
        obtain ⟨hi, hf, hpos, _⟩ := select_encInv hei ht
        refine ⟨hf, hi.out, .emit, t.dBit, ?_, by simp, ?_, ?_, ?_⟩
        · simp [advance, hf.busy, hb, goto]
        · simp only [advance, hf.busy, hb, if_true, goto, State.placeOk]
          refine ⟨EncInv.ok (s := t) hi (by rw [hf.cmd, hpl.1]) (by rw [hf.inLen]; exact hpl.2.1), ?_, fun hw => (hm ?_).1⟩
          · rw [hpos, hf.inLen]; exact hp
          · rw [← hpos, ← hf.cfg]; exact hw
        · simp only [advance, hf.busy, hb, if_true]; rfl
        · simp only [advance, hf.busy, hb, if_true, goto, rank, hq]; rw [hf.inLen, hpos]; omega
    · have hs := encEnd_sat h.out (by have := hpl.2.2.2.1; omega)
      cases hx : encEnd s with
      | go t => rw [hx] at hs; exact hs.elim
      | stop f => rw [hx] at hs; exact hs.elim
      | ended t =>
        rw [hx] at hs
        refine sim_end h hb (i := .encEnd) (by simp [selectInstr, hq, hp]) (by rw [← hx]; rfl) hs ?_
        simp only [remaining, hq]
        obtain ⟨k, rfl⟩ : ∃ k, N = k + 1 := ⟨N - 1, by omega⟩
        rw [encLoop, if_neg hp, hx]
  | emit =>
    simp only [State.placeOk, hq] at hpl
    have key := emit_sat (h.enc hpl.1) hpl.2.1 hpl.2.2 (EndOk s)
    have fin : ∀ (i : Instr), (∀ t : State, t.busy = true → advance i t = goto .push t) → ∀ t, (EncInv t ∧ Frame s t ∧
      (t.t.off = 0 → t.t.len = 0) ∧ s.pos < t.pos ∧ t = { s with t := t.t, pos := t.pos }) → Frame s t ∧ OutOk t ∧ ∃ q d, advance i t = goto q { t with dBit := d } ∧ q ≠ .idle ∧ (advance i t).placeOk ∧
      remaining N (advance i t) = (fun b => (encPush b).andThen (encLoop N)) (goto q t) ∧ rank (advance i t) < rank s := by
      rintro i hi t ⟨hi', hf, ht, hlt, _⟩
      rw [hi t (by rw [hf.busy, hb])]
      refine ⟨hf, hi'.out, .push, t.dBit, rfl, by simp, ?_, rfl, ?_⟩
      · exact ⟨EncInv.ok (s := t) hi' (by rw [hf.cmd, hpl.1.1]) (by rw [hf.inLen]; exact hpl.1.2.1), ht⟩
      · simp only [goto, rank, hq]; rw [hf.inLen]; have := hpl.2.1; omega
    have hre : remaining N s = (if s.wantsMatch then encMatch s else encLit s).andThen fun b => (encPush b).andThen (encLoop N) := by
      simp only [remaining, hq]
    have hbl : ∀ (q : Seq) (g : Grain) (s : State), (fun b => (encPush b).andThen (encLoop N)) (reseat q g s) = ((fun b => (encPush b).andThen (encLoop N)) s).reseat q g :=
      fun q g a => blind_andThen (blind_push q g a) (blind_encLoop q g N)
    cases hw : s.wantsMatch with
    | true =>
      rw [hw, if_pos rfl] at key hre
      exact sim_of (K := fun b => (encPush b).andThen (encLoop N)) h hb hN (i := .encMatch) (by simp [selectInstr, hq, hw]) rfl key hre hbl
        (fin _ (fun t hb => by simp [advance, hb]))
    | false =>
      rw [hw, if_neg (by simp)] at key hre
      exact sim_of (K := fun b => (encPush b).andThen (encLoop N)) h hb hN (i := .encLit) (by simp [selectInstr, hq, hw]) rfl key hre hbl
        (fin _ (fun t hb => by simp [advance, hb]))
  | push =>
    simp only [State.placeOk, hq] at hpl
    refine sim_of (K := encLoop N) h hb hN (i := .encPush) (by simp [selectInstr, hq]) rfl (push_sat (h.enc hpl.1)) (by simp only [remaining, hq]) (fun q g s => blind_encLoop q g N s) ?_
    rintro t ⟨hi, hf, hpos⟩
    refine ⟨hf, hi.out, .select, t.dBit, ?_, by simp, ?_, ?_, ?_⟩
    · simp [advance, hf.busy, hb, goto]
    · simp only [advance, hf.busy, hb, if_true, goto, State.placeOk]
      exact EncInv.ok (s := t) hi (by rw [hf.cmd, hpl.1.1]) (by rw [hf.inLen]; exact hpl.1.2.1)
    · simp only [advance, hf.busy, hb, if_true]; rfl
    · simp only [advance, hf.busy, hb, if_true, goto, rank, hq]; rw [hf.inLen, hpos]; omega
  | group =>
    simp only [State.placeOk, hq] at hpl
    have hdec := h.dec hpl
    have hsel : selectInstr s = selectAtGroup s := by simp [selectInstr, hq]
    have hre : remaining N s = decLoop N s := by simp only [remaining, hq]
    have fin : ∀ (i : Instr) (f : Byte), (∀ t : State, t.busy = true → advance i t = goto .token t) → s.rp < s.inLen → ∀ t, t = controlRead f s → Frame s t ∧ OutOk t ∧ ∃ q d, advance i t = goto q { t with dBit := d } ∧ q ≠ .idle ∧ (advance i t).placeOk ∧ remaining N (advance i t) = afterToken N (goto q t) ∧ rank (advance i t) < rank s := by
      rintro i f hi hlt t rfl
      rw [hi (controlRead f s) (show s.busy = true from hb)]
      refine ⟨by constructor <;> rfl, ⟨h.obDense, h.outFits⟩, .token, 0, rfl, by simp, ⟨⟨hpl.1, ?_⟩, ?_⟩, rfl, ?_⟩
      · show s.rp + 1 ≤ s.inLen; omega
      · show (0 : BitVec 4).toNat < 8; decide
      · simp only [goto, rank, hq, controlRead]; omega
    have goCtrl : ∀ (i : Instr) (x : Flow) (f : Byte), selectInstr s = .ok i → exec i s = x.outcome → s.readIB s.rp = some f → x = .go (controlRead f s) →
        (∀ t : State, t.busy = true → advance i t = goto .token t) → Sim N s := by
      intro i x f hi hx hr hxe hadv
      subst hxe
      refine sim_of (K := afterToken N) (P := fun t => t = controlRead f s) h hb hN hi hx rfl ?_ (fun q g s => blind_after q g N s) (fin i f hadv (readIB_lt hr))
      rw [hre, decLoop_ctrl hdec hr hN]; rfl
    have goEnd : ∀ (i : Instr), selectInstr s = .ok i → exec i s = .next (complete s) → s.avail = 0 → Sim N s := by
      intro i hi hx ha
      exact sim_end h hb hi hx (complete_endOk h.out) (by rw [hre, decLoop_empty ha (by omega)])
    by_cases hgr : s.cfg.grain = .micro
    · have hi : selectInstr s = .ok .decCtrl := by rw [hsel]; simp [selectAtGroup, hgr]
      by_cases ha : s.avail = 0
      · exact goEnd _ hi (by simp [exec, execDecCtrl, decCtrl, ha, decEnd]) ha
      · obtain ⟨f, hr, _⟩ := readIB_some h.ibDense (a := s.rp) (by simp only [State.avail] at ha; omega)
        exact goCtrl _ (decCtrl s) f hi rfl hr (by simp [decCtrl, ha, hr]) (fun t hb => by simp [advance, hb])
    · have he : selectAtGroup s = fetchElement .group s := by
        unfold selectAtGroup; cases hg' : s.cfg.grain <;> simp_all
      rcases fetchGroup hdec with ⟨ha, hf⟩ | ⟨hlt, f, hr, hf⟩
      · exact goEnd .decEnd (by rw [hsel, he, hf]) rfl ha
      · refine goCtrl (.ctrl f) (ctrlElement f s) f (by rw [hsel, he, hf]) rfl hr ?_ (fun t hb => by simp [advance, hb])
        have : s.encoding = false := by simp [State.encoding, hpl.1]
        simp only [ctrlElement, this, Bool.false_eq_true, if_false]
  | token =>
    simp only [State.placeOk, hq] at hpl
    have hdec := h.dec hpl.1
    have hsel : selectInstr s = selectAtToken s := by simp [selectInstr, hq]
    have hsel8 : ¬ (8 ≤ s.dBit.toNat) := by omega
    have hre : remaining N s = afterToken N s := by simp only [remaining, hq]
    have fin : ∀ (i : Instr) (k : Nat), 1 ≤ k → (∀ t : State, t.busy = true → advance i t = tokenDone t) → ∀ t, (DecInv t ∧ Frame s t ∧ t.rp = s.rp + k ∧ t.dBit = s.dBit ∧ t.dCtrl = s.dCtrl) → Frame s t ∧ OutOk t ∧ ∃ q d, advance i t = goto q { t with dBit := d } ∧ q ≠ .idle ∧ (advance i t).placeOk ∧ remaining N (advance i t) = bitGo N (goto q t) ∧ rank (advance i t) < rank s := by
      rintro i k hk hi t ⟨hi', hf, hrp, hd, _⟩
      have hbt : t.busy = true := by rw [hf.busy, hb]
      have h1 := hi'.rp
      rw [hf.inLen] at h1
      exact ⟨hf, hi'.out, token_done (s := s) (hi t hbt) (by rw [hd]; exact hpl.2) ⟨by rw [hf.cmd, hpl.1.1], hi'.rp⟩ hf.inLen (fun d hd => by simp only [rank, hq]; omega)⟩
    have goEnd : ∀ (i : Instr), selectInstr s = .ok i → exec i s = .next (complete s) → s.avail = 0 → Sim N s := by
      intro i hi hx ha
      exact sim_end h hb hi hx (complete_endOk h.out) (by rw [hre, afterToken_empty ha, decLoop_empty ha (by omega)])
    have goLit : ∀ (i : Instr), selectInstr s = .ok i → exec i s = (decLit s).outcome → s.avail ≠ 0 → controlBit s.dCtrl s.dBit.toNat = false →
        (∀ t : State, t.busy = true → advance i t = tokenDone t) → Sim N s := by
      intro i hi hx ha hc hadv
      refine sim_of (K := bitGo N) h hb hN hi hx (decInv_lit hdec (by simp only [State.avail] at ha; omega)) ?_ (fun q g s => blind_bitGo q g N s) (fin i 1 (by omega) hadv)
      rw [hre, afterToken_step hdec hpl.2 ha, hc]; rfl
    by_cases hgr : s.cfg.grain = .micro
    · by_cases ha : s.avail = 0
      · refine sim_of (K := decLoop N) (P := fun t => t = s) (x := decBit s) h hb hN (i := .decBit) (by rw [hsel]; simp [selectAtToken, hgr, ha]; omega) rfl (by simp [decBit, ha]) ?_ (fun q g s => blind_decLoop q g N s) ?_
        · rw [hre, afterToken_empty ha]; simp [decBit, ha]
        · rintro t rfl
          refine ⟨Frame.refl _, h.out, .group, t.dBit, ?_, by simp, ?_, ?_, ?_⟩
          · simp [advance, hb, goto]
          · simp only [advance, hb, if_true, goto, State.placeOk]; exact hpl.1
          · simp only [advance, hb, if_true]; rfl
          · simp only [advance, hb, if_true, goto, rank, hq]; omega
      · cases hcb : controlBit s.dCtrl s.dBit.toNat with
        | true =>
          refine sim_of (K := fun a => (decFetchLen a).andThen fun b => (decFetchNxt b).andThen fun c => (replay c).andThen (bitGo N)) h hb hN (i := .decFetchOff) (by rw [hsel]; simp [selectAtToken, hgr, ha, hcb]; omega) rfl (decInv_fetch hdec) ?_ (fun q g s => blind_andThen (blind_flen q g s) fun b => blind_andThen (blind_fnxt q g b) fun c => blind_andThen (blind_replay q g c) (blind_bitGo q g N)) ?_
          · rw [hre, afterToken_step hdec hpl.2 ha, hcb, if_pos rfl, decMatch]
            simp only [Flow.andThen_assoc]
          · rintro t ⟨hi, hf, hrp, hd, _⟩
            have h1 := hi.rp
            rw [hf.inLen] at h1
            refine ⟨hf, hi.out, .fetchLen, t.dBit, ?_, by simp, ?_, ?_, ?_⟩
            · simp [advance, hf.busy, hb, goto]
            · simp only [advance, hf.busy, hb, if_true, goto, State.placeOk]
              exact ⟨⟨by rw [hf.cmd, hpl.1.1], hi.rp⟩, by rw [hd]; exact hpl.2⟩
            · simp only [advance, hf.busy, hb, if_true]; rfl
            · simp only [advance, hf.busy, hb, if_true, goto, rank, hq]; rw [hf.inLen]; omega
        | false =>
          exact goLit .decLit (by rw [hsel]; simp [selectAtToken, hgr, ha, hcb]; omega) rfl ha hcb (fun t hb => by simp [advance, hb])
    · have he : selectAtToken s = fetchElement (.token (controlBit s.dCtrl s.dBit.toNat)) s := by
        unfold selectAtToken; rw [if_neg hsel8]; cases hg' : s.cfg.grain <;> simp_all
      cases hcb : controlBit s.dCtrl s.dBit.toNat with
      | true =>
        rw [hcb] at he
        rcases fetchMatch hdec with ⟨ha, hf⟩ | ⟨h1, h4, hf⟩ | ⟨h5, b0, b1, b2, b3, nb, hfb, hf⟩
        · exact goEnd .decEnd (by rw [hsel, he, hf]) rfl ha
        · refine sim_end h hb (i := .decAbort .truncatedStream) (by rw [hsel, he, hf]) rfl (errorEntry_endOk _ _) ?_
          have ha : s.avail ≠ 0 := by omega
          rw [hre, afterToken_step hdec hpl.2 ha, hcb, if_pos rfl]
          simp only [State.avail] at h1 h4
          rw [trunc_case hdec (by omega) (by omega)]; rfl
        · refine sim_of (K := bitGo N) h hb hN (i := .matchTok (u16Of s.cfg.order b0 b1) (u16Of s.cfg.order b2 b3) nb) (by rw [hsel, he, hf]) rfl (matchElement_sat hdec (by simp only [State.avail] at h5; omega)) ?_ (fun q g s => blind_bitGo q g N s) (fin _ 5 (by omega) (fun t hb => by simp [advance, hb]))
          rw [hre, afterToken_step hdec hpl.2 (by omega), hcb, if_pos rfl, decMatch_eq hfb]
      | false =>
        rw [hcb] at he
        rcases fetchLit hdec with ⟨ha, hf⟩ | ⟨hlt, f, hr, hf⟩
        · exact goEnd .decEnd (by rw [hsel, he, hf]) rfl ha
        · refine goLit (.lit f) (by rw [hsel, he, hf]) ?_ (by simp only [State.avail]; omega) hcb (fun t hb => by simp [advance, hb])
          simp [exec, execLit, decLit, hr]
  | fetchLen =>
    simp only [State.placeOk, hq] at hpl
    refine sim_of (K := fun b => (decFetchNxt b).andThen fun c => (replay c).andThen (bitGo N)) h hb hN (i := .decFetchLen) (by simp [selectInstr, hq]) rfl (decInv_len (h.dec hpl.1)) (by simp only [remaining, hq]) (fun q g b => blind_andThen (blind_fnxt q g b) fun c => blind_andThen (blind_replay q g c) (blind_bitGo q g N)) ?_
    rintro t ⟨hi, hf, hrp, hd, _⟩
    have h1 := hi.rp
    rw [hf.inLen] at h1
    refine ⟨hf, hi.out, .fetchNxt, t.dBit, ?_, by simp, ?_, ?_, ?_⟩
    · simp [advance, hf.busy, hb, goto]
    · simp only [advance, hf.busy, hb, if_true, goto, State.placeOk]
      exact ⟨⟨by rw [hf.cmd, hpl.1.1], hi.rp⟩, by rw [hd]; exact hpl.2⟩
    · simp only [advance, hf.busy, hb, if_true]; rfl
    · simp only [advance, hf.busy, hb, if_true, goto, rank, hq]; rw [hf.inLen]; omega
  | fetchNxt =>
    simp only [State.placeOk, hq] at hpl
    refine sim_of (K := fun c => (replay c).andThen (bitGo N)) h hb hN (i := .decFetchNxt) (by simp [selectInstr, hq]) rfl (decInv_nxt (h.dec hpl.1)) (by simp only [remaining, hq]) (fun q g c => blind_andThen (blind_replay q g c) (blind_bitGo q g N)) ?_
    rintro t ⟨hi, hf, hrp, hd, _⟩
    have h1 := hi.rp
    rw [hf.inLen] at h1
    refine ⟨hf, hi.out, .check, t.dBit, ?_, by simp, ?_, ?_, ?_⟩
    · simp [advance, hf.busy, hb, goto]
    · simp only [advance, hf.busy, hb, if_true, goto, State.placeOk]
      exact ⟨⟨by rw [hf.cmd, hpl.1.1], hi.rp⟩, by rw [hd]; exact hpl.2⟩
    · simp only [advance, hf.busy, hb, if_true]; rfl
    · simp only [advance, hf.busy, hb, if_true, goto, rank, hq]; rw [hf.inLen]; omega
  | check =>
    simp only [State.placeOk, hq] at hpl
    refine sim_of (K := fun b => (decCopy b).andThen fun b => (decNext b).andThen (bitGo N)) h hb hN (i := .decCheck) (by simp [selectInstr, hq]) rfl (decCheck_sat s) ?_ (fun q g b => blind_andThen (blind_copy q g b) fun c => blind_andThen (blind_next q g c) (blind_bitGo q g N)) ?_
    · simp only [remaining, hq, replay, Flow.andThen_assoc]
    rintro t ⟨rfl, h0, h1⟩
    refine ⟨Frame.refl _, h.out, .copy, t.dBit, ?_, by simp, ?_, ?_, ?_⟩
    · simp [advance, hb, goto]
    · simp only [advance, hb, if_true, goto, State.placeOk]
      exact ⟨hpl.1, hpl.2, h0, h1⟩
    · simp only [advance, hb, if_true]; rfl
    · simp only [advance, hb, if_true, goto, rank, hq]; omega
  | copy =>
    simp only [State.placeOk, hq] at hpl
    refine sim_of (K := fun b => (decNext b).andThen (bitGo N)) h hb hN (i := .decCopy) (by simp [selectInstr, hq]) rfl
      (decInv_copy (h.dec hpl.1) hpl.2.2.1 hpl.2.2.2) (by simp only [remaining, hq]) (fun q g c => blind_andThen (blind_next q g c) (blind_bitGo q g N)) ?_
    rintro t ⟨hi, hf⟩
    refine ⟨hf.toFrame, hi.out, .next, t.dBit, ?_, by simp, ?_, ?_, ?_⟩
    · simp [advance, hf.toFrame.busy, hb, goto]
    · simp only [advance, hf.toFrame.busy, hb, if_true, goto, State.placeOk]
      exact ⟨⟨by rw [hf.cmd, hpl.1.1], hi.rp⟩, by rw [hf.dBit]; exact hpl.2.1⟩
    · simp only [advance, hf.toFrame.busy, hb, if_true]; rfl
    · simp only [advance, hf.toFrame.busy, hb, if_true, goto, rank, hq]; rw [hf.inLen, hf.rp]; omega
  | next =>
    simp only [State.placeOk, hq] at hpl
    refine sim_of (K := bitGo N) h hb hN (i := .decNext) (by simp [selectInstr, hq]) rfl (decInv_next (h.dec hpl.1)) (by simp only [remaining, hq]) (fun q g s => blind_bitGo q g N s) ?_
    rintro t ⟨hi, hf⟩
    have hbt : t.busy = true := by rw [hf.toFrame.busy, hb]
    exact ⟨hf.toFrame, hi.out, token_done (s := s) (by simp [advance, hbt]) (by rw [hf.dBit]; exact hpl.2) ⟨by rw [hf.cmd, hpl.1.1], hi.rp⟩ hf.inLen (fun d hd => by simp only [rank, hq]; rw [hf.rp]; omega)⟩

/-- A running command, stepped until it completes. -/
theorem run_to_end {N : Nat} (r : Nat) {s : State} (hr : rank s ≤ r) (h : Inv s) (hb : s.busy = true) (hN : s.inLen + 1 < N)
    (hin : s.inputs = [] ∨ ∃ l, s.inputs = .untilReady :: l) :
    ∃ n t, Reaches n s t ∧ t.busy = false ∧ t.inputs = s.inputs ∧ remaining N s = .ended t ∧ EndOk s t := by
  have hstep : ∀ s : State, s.busy = true → (s.inputs = [] ∨ ∃ l, s.inputs = .untilReady :: l) → step s = runStep s := by
    intro s hb hin
    rcases hin with hin | ⟨l, hin⟩ <;> simp [step, hin, coreStep, hb]
  induction r generalizing s with
  | zero =>
    obtain ⟨t, h1, h2, h3, h4, ⟨h5, h6, h7⟩ | ⟨h5, h6⟩⟩ := sim h hb hN
    · omega
    · refine ⟨1, t, ?_, h5, h3, h6, ?_⟩
      · simp only [Reaches, Host.Core.run, core, hstep s hb hin, h1]
      · have := remaining_sat h hb hN; rw [h6] at this; exact this
  | succ r ih =>
    obtain ⟨t, h1, h2, h3, h4, ⟨h5, h6, h7⟩ | ⟨h5, h6⟩⟩ := sim h hb hN
    · obtain ⟨n, u, k1, k2, k3, k4, _⟩ := ih (s := t) (by omega) h2 h5 (by omega) (by rw [h3]; exact hin)
      refine ⟨n + 1, u, ?_, k2, by rw [k3, h3], by rw [← h6]; exact k4, ?_⟩
      · simp only [Reaches, Host.Core.run] at k1 ⊢
        have : core.step s = .next t := (hstep s hb hin).trans h1
        rw [this]; exact k1
      · have := remaining_sat h hb hN; rw [← h6, k4] at this; exact this
    · refine ⟨1, t, ?_, h5, h3, h6, ?_⟩
      · simp only [Reaches, Host.Core.run, core, hstep s hb hin, h1]
      · have := remaining_sat h hb hN; rw [h6] at this; exact this

/-- One step more in front. -/
theorem reaches_succ {n : Nat} {s t u : State} (h1 : step s = .next t) (h2 : Reaches n t u) : Reaches (n + 1) s u := by
  simp only [Reaches, Host.Core.run] at h2 ⊢
  have : core.step s = .next t := h1
  rw [this]; exact h2

/-- Runs one after the other. -/
theorem reaches_trans {n m : Nat} {s t u : State} (h1 : Reaches n s t) (h2 : Reaches m t u) : Reaches (n + m) s u := by
  induction n generalizing s with
  | zero =>
    obtain rfl : s = t := by injection h1
    rw [Nat.zero_add]; exact h2
  | succ n ih =>
    simp only [Reaches, Host.Core.run] at h1
    split at h1
    · rename_i v hv
      rw [show n + 1 + m = (n + m) + 1 by omega]
      exact reaches_succ hv (ih h1)
    · simp at h1
    · simp at h1

/-- One step. -/
theorem reaches_one {s t : State} (h1 : step s = .next t) : Reaches 1 s t := reaches_succ h1 rfl

/-- A command from the write of CMD to its end. -/
theorem command_run {s : State} {v : BitVec 2} {l : List Input} (h : Inv s) (hb : s.busy = false) (hv : v = 1 ∨ v = 2)
    (hin : s.inputs = .op (.cmd v) :: .untilReady :: l) {N : Nat} (hN : s.inLen + 1 < N) :
    ∃ n t, Reaches n s { t with inputs := l } ∧ t.busy = false ∧ remaining N (acceptHost (commandStart v { s with inputs := .untilReady :: l })) = .ended t ∧
      EndOk (acceptHost (commandStart v { s with inputs := .untilReady :: l })) t := by
  set s1 := acceptHost (commandStart v { s with inputs := .untilReady :: l }) with hs1
  have e1 : step s = .next s1 := by
    have hb' : State.busy { s with inputs := .untilReady :: l } = false := hb
    rcases hv with rfl | rfl <;>
    simp [step, hin, HostOp.instr, exec, execHostCmd, execEncode, execDecode, whenReady, hb', hs1]
  have hi1 : Inv s1 := (commandStart_inv (h.inputs _) v hv).answer _
  have hb1 : s1.busy = true := by
    show statusRunning.getLsbD 0 = true
    decide
  obtain ⟨n, t, k1, k2, k3, k4, k5⟩ := run_to_end (N := N) _ (Nat.le_refl _) hi1 hb1 hN (.inr ⟨l, rfl⟩)
  have e2 : step t = .next { t with inputs := l } := by
    simp [step, k3, k2, hs1, acceptHost]
  exact ⟨_, t, reaches_succ e1 (reaches_trans k1 (reaches_one e2)), k2, k4, k5⟩

/-- What is left of a command that was just accepted is the whole of it. -/
theorem remaining_start (N : Nat) (s : State) (v : BitVec 2) :
    remaining N (acceptHost (commandStart v s)) = if v = 1 then encRun (acceptHost (commandStart v s)) else decRun (acceptHost (commandStart v s)) := by
  unfold remaining
  have : (acceptHost (commandStart v s)).seq = firstSeq s.cfg.grain := rfl
  rw [this]
  cases s.cfg.grain <;> rfl

/-- HOST.LOAD, a command, and the wait. -/
theorem load_run {s : State} {x : List Byte} {v : BitVec 2} (h : Inv s) (hb : s.busy = false) (hc : s.cfg.capIn = none) (hv : v = 1 ∨ v = 2)
    (hin : s.inputs = [.op (.load x), .op (.cmd v), .untilReady]) :
    ∃ n t a, Reaches n s { t with inputs := [] } ∧ t.busy = false ∧ a.ib = Memory.ofBytes x ∧ a.inLen = x.length ∧ a.errCode = 0 ∧ a.cfg = s.cfg ∧
      (if v = 1 then encRun a else decRun a) = .ended t := by
  have hb' : State.busy { s with inputs := [.op (.cmd v), .untilReady] } = false := hb
  have hl : State.loadTooLong { s with inputs := [.op (.cmd v), .untilReady] } x.length = false := by simp [State.loadTooLong, hc]
  have e1 : step s = .next (acceptHost (loaded x { s with inputs := [.op (.cmd v), .untilReady] })) := by
    simp [step, hin, HostOp.instr, exec, execHostLoad, whenReady, hb', hl]
  have hi1 : Inv (acceptHost (loaded x { s with inputs := [.op (.cmd v), .untilReady] })) :=
    (loaded_inv (h.inputs _) hb' x hl).answer _
  obtain ⟨n, t, k1, k2, k3, k4⟩ := command_run (N := x.length + 2) hi1 hb hv rfl (by show x.length + 1 < _; omega)
  rw [remaining_start] at k3
  exact ⟨n + 1, t, acceptHost (commandStart v { acceptHost (loaded x { s with inputs := [.op (.cmd v), .untilReady] }) with
    inputs := [.untilReady] }), reaches_succ e1 k1, k2, rfl, rfl, rfl, rfl, k3⟩

end Sys2Proof.Machine
end

