-- ==== Sys2Proof/Tests/Slice0.lean ====
section
/-! SUPPORT. Tests of the model: ill-formed terms, words written out from the spec's encodings, single instructions on the
spec's own vectors (spec/95_test_vectors.md: M, E, D, H, X, P are its names), and one witness for the hypotheses of every
statement that has any. -/

namespace Sys2Proof.Tests

open Sys2Proof.Machine

/-! ## Small states -/

/-- An idle core with these W and L, LE, capacities unbounded. -/
def small (w l : Fin 65536) : State :=
  { State.reset with
    cfg := { windowSize := w, lookaheadSize := l, order := .le, capIn := none, capOut := none, grain := .element } }

/-- A core in the middle of ENCODE with this input. -/
def encoding (w l : Fin 65536) (input : List Byte) : State :=
  { small w l with
    cmd := 1, status := 0b001#3, ib := Memory.ofBytes input, inLen := input.length, seq := .select }

/-- A core in the middle of DECODE with this input and this output so far. -/
def decoding (input output : List Byte) : State :=
  { small 4 4 with
    cmd := 2, status := 0b001#3, ib := Memory.ofBytes input, inLen := input.length, ob := Memory.ofBytes output
    outLen := output.length, seq := .group }

/-- The core after a command that left this result. -/
def finished (output : List Byte) : State :=
  { small 4 4 with cmd := 2, status := 0b010#3, ob := Memory.ofBytes output, outLen := output.length }

/-- The same core with a finite CAP_OUT. -/
def withCapOut (n : Nat) (s : State) : State := { s with cfg := { s.cfg with capOut := some n } }

/-- What an instruction leaves, seen through `f`; nothing where there is no next state. -/
def view {α : Type} (f : State → α) (i : Instr) (s : State) : Option α :=
  match exec i s with
  | .next t => some (f t)
  | .fault _ => none
  | .refused _ => none

/-- STATUS, ERR_CODE and the bytes of the output that an instruction leaves. -/
def result (i : Instr) (s : State) : Option (BitVec 3 × BitVec 3 × List Byte) :=
  view (fun t => (t.status, t.errCode, t.ob.bytes)) i s

/-! ## Ill-formed terms are refused -/

/-- A slot with offset 0 tags a Literal, whose length is 0 (R65). -/
theorem test_wellFormed_slot : Instr.wellFormed (.slot 0 5 0x61) = false := by decide

/-- RUN stands for at least two bytes (R75). -/
theorem test_wellFormed_run_short : Instr.wellFormed (.run 0x41 1) = false := by decide

/-- The length of RUN's Match is a 16-bit field (R64, R75). -/
theorem test_wellFormed_run_long : Instr.wellFormed (.run 0x41 65538) = false := by decide

/-- DEC does not raise EmptyInputError (R166). -/
theorem test_wellFormed_abort_empty : Instr.wellFormed (.decAbort .emptyInput) = false := by decide

/-- DEC does not raise BadCommand (R169). -/
theorem test_wellFormed_abort_bad : Instr.wellFormed (.decAbort .badCommand) = false := by decide

/-! ## Words of the spec's encodings

The bytes that stand for a command or a slot are the model's choice (log 26), and so is how a table word is read (log 16). -/

/-- CTRL: eight bits (R62), here 0001 1000 of P1. -/
theorem test_decode_ctrl : decode .le .group [0b00011000] = .ok (.ctrl 0x18, []) := by decide

/-- LIT: eight bits (R63), here 0110 0001. -/
theorem test_decode_lit : decode .le (.token false) [0b01100001, 0xFF] = .ok (.lit 0x61, [0xFF]) := by decide

/-- MATCH (R64), the token of D7: offset 2, length 5, next_byte 21. -/
theorem test_decode_match :
    decode .le (.token true) [0b00000010, 0, 0b00000101, 0, 0b00100001] = .ok (.matchTok 2 5 0x21, []) := by decide

/-- MATCH with both bytes of each field in use (R45): 0x0201, 0x0403. -/
theorem test_decode_match_bytes :
    decode .le (.token true) [1, 2, 3, 4, 5] = .ok (.matchTok 0x0201 0x0403 5, []) := by decide

/-- The same in BE (R45): 0x0102, 0x0304. -/
theorem test_decode_match_be :
    decode .be (.token true) [1, 2, 3, 4, 5] = .ok (.matchTok 0x0102 0x0304 5, []) := by decide

/-- A Match cut off (R71), the token of D8. -/
theorem test_decode_match_cut : decode .le (.token true) [1, 0, 5, 0] = .error .truncatedMatch := by decide

/-- SLOT (R65): byte in bits 7 to 0, len in 23 to 8, off in 39 to 24; T of pass 4 of P1, 00030003 61. -/
theorem test_decode_slot : decode .le .slot [0x61, 3, 0, 3, 0] = .ok (.slot 3 3 0x61, []) := by decide

/-- A slot that is neither a Literal nor a Match (R65). -/
theorem test_decode_slot_bad : decode .le .slot [0x61, 3, 0, 0, 0] = .error .badSlot := by decide

/-- CMD = 00 (R66). -/
theorem test_decode_nop : decode .le .command [0b00] = .ok (.nop, []) := by decide

/-- CMD = 01 (R66). -/
theorem test_decode_encode : decode .le .command [0b01] = .ok (.encode, []) := by decide

/-- CMD = 10 (R66). -/
theorem test_decode_decode : decode .le .command [0b10] = .ok (.decode, []) := by decide

/-- CMD = 11 (R66). -/
theorem test_decode_reserved : decode .le .command [0b11] = .ok (.reserved, []) := by decide

/-- A third bit does not fit CMD (R11). -/
theorem test_decode_wide : decode .le .command [0b100] = .error .wideCommand := by decide

/-- The table's numbering: stream byte 0 holds bits 7 to 0. -/
theorem test_table_match : decodeTableWord 40 0x2100050002 = some (.matchTok 2 5 0x21) := by decide

/-- The pseudo-form stands for a Literal and a Match (R75). -/
theorem test_expand_run : Instr.expand (.run 0x41 7) = [.lit 0x41, .matchTok 1 5 0x41] := by decide

/-! ## MAT -/

/-- R81: saturating at 0, pos = 1, W = 4 (M6). -/
theorem test_range_clamped : view (·.mLo) .matRange { encoding 4 4 [] with pos := 1, mLo := 9 } = some 0 := by decide

/-- R81: pos = 7, W = 4 (M3). -/
theorem test_range : view (·.mLo) .matRange { encoding 4 4 [] with pos := 7 } = some 3 := by decide

/-- R82 on "abcda": bytes 0 and 4 are equal. -/
theorem test_cmp_equal :
    view (·.eqOut) .matCmp { encoding 4 4 [0x61, 0x62, 0x63, 0x64, 0x61] with pos := 4 } = some true := by decide

/-- R82: the source must be before pos (no overlap). -/
theorem test_cmp_undefined :
    exec .matCmp { encoding 4 4 [0x61, 0x61] with pos := 1, mI := 1 } = .fault .cmpUndefined := by rfl

/-- M1, candidate 0: length 3, cut by `pos - i`. -/
theorem test_len_source_bound :
    view (·.mK) .matLen { encoding 3 4 [0x61, 0x62, 0x63, 0x61, 0x62, 0x63, 0x61, 0x62, 0x63, 0x58] with
      pos := 3 } = some 3 := by decide

/-- M11, candidate 0: length 2, cut by L. -/
theorem test_len_lookahead_bound :
    view (·.mK) .matLen { encoding 8 2 [0x61, 0x62, 0x63, 0x64, 0x61, 0x62, 0x63, 0x64, 0x61, 0x62, 0x63, 0x64] with
      pos := 8 } = some 2 := by decide

/-- R84: an equal length does not replace. -/
theorem test_sel_tie :
    view (·.mBoff) .matSel { encoding 4 4 [] with pos := 6, mI := 3, mK := 2, mBlen := 2, mBoff := 6 } = some 6 := by
  decide

/-- R84: a longer one does; the offset is the distance. -/
theorem test_sel_longer :
    view (·.mBoff) .matSel { encoding 4 4 [] with pos := 6, mI := 3, mK := 3, mBlen := 2, mBoff := 6 } = some 3 := by
  decide

/-- M2: "abXabYab" at 6: a tie, the oldest wins: (6, 2). -/
theorem test_find_tie :
    view (fun t => (t.mBoff, t.mBlen)) .matFind
      { encoding 6 4 [0x61, 0x62, 0x58, 0x61, 0x62, 0x59, 0x61, 0x62] with pos := 6 } =
      some (6, 2) := by decide

/-- M10: "abcd" at 2: no match: (0, 0). -/
theorem test_find_none :
    view (fun t => (t.mBoff, t.mBlen)) .matFind
      { encoding 8 8 [0x61, 0x62, 0x63, 0x64] with pos := 2, mBoff := 1, mBlen := 1 } =
      some (0, 0) := by decide

/-! ## ENC -/

/-- E3: "abcda", W = 4, L = 4: a Match at the end of input, with the sentinel. -/
theorem test_encRun_sentinel :
    result .encRun (encoding 4 4 [0x61, 0x62, 0x63, 0x64, 0x61]) =
      some (0b010, 0, [0x10, 0x61, 0x62, 0x63, 0x64, 0x04, 0x00, 0x01, 0x00, 0x00]) := by decide

/-- E4: nine tokens are two groups. -/
theorem test_encRun_groups :
    result .encRun (encoding 16 4 [0x61, 0x62, 0x63, 0x64, 0x65, 0x66, 0x67, 0x68, 0x69]) =
      some (0b010, 0, [0x00, 0x61, 0x62, 0x63, 0x64, 0x65, 0x66, 0x67, 0x68, 0x00, 0x69]) := by decide

/-- E13: EmptyInputError, ERR_CODE 1. -/
theorem test_encStart_empty : result .encStart (encoding 4 4 []) = some (0b110, 1, []) := by decide

/-- R101: POS and G_CNT are 0. -/
theorem test_encStart :
    view (fun t => (t.pos, t.gCnt)) .encStart { encoding 4 4 [0x51] with pos := 3, gCnt := 5 } =
      some (0, 0) := by decide

/-- R102 at POS = W - 1: literal, although the byte occurs before. -/
theorem test_encSelect_literal :
    view (·.wantsMatch) .encSelect { encoding 2 4 [0x61, 0x61] with pos := 1 } = some false := by decide

/-- R102 at POS = W: match. -/
theorem test_encSelect_match :
    view (·.wantsMatch) .encSelect { encoding 1 4 [0x61, 0x61] with pos := 1 } = some true := by decide

/-- P1, pass 1: T = (0, 0, 61), POS = 1. -/
theorem test_encLit :
    view (fun t => (t.t, t.pos)) .encLit (encoding 3 4 [0x61, 0x62]) =
      some (⟨0, 0, 0x61⟩, 1) := by decide

/-- P1, pass 5: the next_byte is the last byte of the input. -/
theorem test_encMatch_last :
    view (fun t => (t.t, t.pos)) .encMatch
      { encoding 3 4 [0x61, 0x62, 0x63, 0x61, 0x62, 0x63, 0x61, 0x62, 0x63, 0x58] with
        pos := 7, mBoff := 3, mBlen := 2 } =
      some (⟨3, 2, 0x58⟩, 10) := by decide

/-- P4, pass 5: the sentinel, POS = 6. -/
theorem test_encMatch_sentinel :
    view (fun t => (t.t, t.pos)) .encMatch
      { encoding 4 4 [0x61, 0x62, 0x63, 0x64, 0x61] with pos := 4, mBoff := 4, mBlen := 1 } =
      some (⟨4, 1, 0x00⟩, 6) := by decide

/-- P1, pass 4: G_CNT 3 to 4, G_CTRL 08. -/
theorem test_encPush :
    view (fun t => (t.gCnt, t.gCtrl, t.gTok.toList[3]?)) .encPush
      { encoding 3 4 [0x61] with t := ⟨3, 3, 0x61⟩, gCnt := 3 } =
      some (4, 0x08, some ⟨3, 3, 0x61⟩) := by decide

/-- R105: the eighth token flushes: seven Literals 00 and a Match, control byte 80. -/
theorem test_encPush_flush :
    result .encPush { encoding 3 4 [0x61] with t := ⟨7, 2, 0⟩, gCnt := 7 } =
      some (0b001, 0, [0x80, 0, 0, 0, 0, 0, 0, 0, 7, 0, 2, 0, 0]) := by decide

/-- R106: one Literal. -/
theorem test_encFlush :
    result .encFlush { encoding 3 4 [0x61] with
      gTok := (small 0 0).gTok.setIfInBounds 0 ⟨0, 0, 0x69⟩, gCnt := 1 } = some (0b001, 0, [0x00, 0x69]) := by decide

/-- R107: no empty group is written. -/
theorem test_encEnd_empty : result .encEnd (encoding 3 4 [0x61]) = some (0b010, 0, []) := by decide

/-- R107: a partial group is. -/
theorem test_encEnd_partial :
    result .encEnd { encoding 3 4 [0x61] with
      gTok := (small 0 0).gTok.setIfInBounds 0 ⟨4, 1, 0⟩, gCnt := 1, gCtrl := 1 } =
      some (0b010, 0, [0x01, 4, 0, 1, 0, 0]) := by decide

/-! ## DEC -/

/-- D23: two Matches in a group. -/
theorem test_decRun :
    result .decRun (decoding [0x06, 0x41, 1, 0, 2, 0, 0x42, 2, 0, 3, 0, 0x43] []) =
      some (0b010, 0, [0x41, 0x41, 0x41, 0x42, 0x41, 0x42, 0x41, 0x43]) := by decide

/-- D24: an error after valid tokens discards the output. -/
theorem test_decRun_error :
    result .decRun (decoding [0x0A, 0x41, 1, 0, 5, 0, 0x42, 0x43, 1, 0, 1, 0] []) = some (0b110, 2, []) := by decide

/-- R121. -/
theorem test_decStart :
    view (fun t => (t.rp, t.outLen)) .decStart { decoding [0] [1, 2] with rp := 1 } =
      some (0, 0) := by
  decide

/-- P2, step 2: D_CTRL = 18, RP = 1. -/
theorem test_decCtrl :
    view (fun t => (t.dCtrl, t.rp, t.dBit)) .decCtrl { decoding [0x18, 0x61] [] with dBit := 8 } =
      some (0x18, 1, 0) := by decide

/-- D1: no byte is the clean end. -/
theorem test_decCtrl_end : result .decCtrl (decoding [] []) = some (0b010, 0, []) := by decide

/-- D6's Match. -/
theorem test_decBit_match :
    result .decBit { decoding [0x02, 0x41, 1, 0, 5, 0, 0x42] [0x41] with rp := 2, dCtrl := 0x02, dBit := 1 } =
      some (0b001, 0, [0x41, 0x41, 0x41, 0x41, 0x41, 0x41, 0x42]) := by decide

/-- D16: truncation is reported before the bad offset. -/
theorem test_decBit_order : result .decBit { decoding [1, 0, 0, 1, 0] [] with rp := 1, dCtrl := 1 } = some (0b110, 2, []) := by
  decide

/-- P3, step 2. -/
theorem test_decLit : result .decLit { decoding [4, 0x61, 0x62] [] with rp := 1 } = some (0b001, 0, [0x61]) := by decide

/-- H9: the offset 62 63 is 25442. -/
theorem test_decFetchOff :
    view (fun t => (t.dOff.toNat, t.rp)) .decFetchOff
      { decoding [0x61, 0x62, 0x63, 0x64] [] with rp := 1 } =
      some (25442, 3) := by decide

/-- D10: half an offset. -/
theorem test_decFetchOff_half : result .decFetchOff { decoding [2, 0x41, 1] [0x41] with rp := 2 } = some (0b110, 2, []) := by
  decide

/-- The length 05 00 of D6. -/
theorem test_decFetchLen :
    view (fun t => (t.dLen, t.rp)) .decFetchLen
      { decoding [2, 0x41, 1, 0, 5, 0, 0x42] [0x41] with rp := 4 } =
      some (5, 6) := by decide

/-- D9b: the length missing entirely. -/
theorem test_decFetchLen_none : result .decFetchLen { decoding [2, 0x41, 1, 0] [0x41] with rp := 4 } = some (0b110, 2, []) := by
  decide

/-- The next_byte of D6. -/
theorem test_decFetchNxt :
    view (fun t => (t.dNxt, t.rp)) .decFetchNxt
      { decoding [2, 0x41, 1, 0, 5, 0, 0x42] [0x41] with rp := 6 } =
      some (0x42, 7) := by decide

/-- D8: the next_byte missing. -/
theorem test_decFetchNxt_none :
    result .decFetchNxt { decoding [2, 0x41, 1, 0, 5, 0] [0x41] with rp := 6 } = some (0b110, 2, []) := by decide

/-- D14: an offset equal to the output length is legal. -/
theorem test_decCheck : result .decCheck { decoding [] [0x41] with dOff := 1 } = some (0b001, 0, [0x41]) := by decide

/-- D13: one more is not. -/
theorem test_decCheck_bad : result .decCheck { decoding [] [0x41] with dOff := 2 } = some (0b110, 3, []) := by decide

/-- P3, steps 5 to 9: "ab" and five bytes at offset 2. -/
theorem test_decCopy :
    result .decCopy { decoding [] [0x61, 0x62] with dOff := 2, dLen := 5 } =
      some (0b001, 0, [0x61, 0x62, 0x61, 0x62, 0x61, 0x62, 0x61]) := by decide

/-- D15: length 0 copies nothing. -/
theorem test_decCopy_zero : result .decCopy { decoding [] [0x41] with dOff := 1 } = some (0b001, 0, [0x41]) := by decide

/-- R130: a zero next_byte is appended like any other. -/
theorem test_decNext : result .decNext { decoding [] [0x61] with dNxt := 0 } = some (0b001, 0, [0x61, 0x00]) := by decide

/-- R131. -/
theorem test_decEnd : result .decEnd (decoding [] [0x61]) = some (0b010, 0, [0x61]) := by decide

/-- R132, R165: InvalidOffsetError is 3. -/
theorem test_decAbort : result (.decAbort .invalidOffset) (decoding [] [0x61]) = some (0b110, 3, []) := by decide

/-! ## Elements -/

/-- P2, step 2. -/
theorem test_ctrl : view (·.dCtrl) (.ctrl 0x18) (decoding [0x18] []) = some 0x18 := by decide

/-- R133: a Literal gives one byte. -/
theorem test_lit : result (.lit 0x61) (decoding [] []) = some (0b001, 0, [0x61]) := by decide

/-- D7's Match. -/
theorem test_matchTok :
    result (.matchTok 2 5 0x21) (decoding [] [0x61, 0x62]) =
      some (0b001, 0, [0x61, 0x62, 0x61, 0x62, 0x61, 0x62, 0x61, 0x21]) := by decide

/-- D12: offset 0 under a set control bit is an error. -/
theorem test_matchTok_zero : result (.matchTok 0 1 0x42) (decoding [] [0x41]) = some (0b110, 3, []) := by decide

/-- P1: `03 00 02 00 58`. -/
theorem test_slot_match : result (.slot 3 2 0x58) (encoding 3 4 [0x61]) = some (0b001, 0, [3, 0, 2, 0, 0x58]) := by decide

/-- P1: a Literal is one byte. -/
theorem test_slot_literal : result (.slot 0 0 0x61) (encoding 3 4 [0x61]) = some (0b001, 0, [0x61]) := by decide

/-- R75: n copies. -/
theorem test_run :
    result (.run 0x41 4) (decoding [] []) = some (0b001, 0, [0x41, 0x41, 0x41, 0x41]) := by decide

/-! ## The host -/

/-- H1. -/
theorem test_reset_poll :
    exec .hostPoll State.reset = .next { State.reset with answer := .polled ⟨0, 0, 0, 0, 0⟩ } := by rfl

/-- H7: NOP keeps STATUS and OUT_LEN. -/
theorem test_nop :
    view (fun t => (t.cmd, t.status, t.outLen)) .nop (finished [0, 0x61]) =
      some (0, 0b010, 2) := by decide

/-- R153: STATUS 001 and OUT_LEN 0. -/
theorem test_encode :
    view (fun t => (t.cmd, t.status, t.outLen)) .encode (finished [0, 0x61]) =
      some (1, 0b001, 0) := by
  decide

/-- R154. -/
theorem test_decode :
    view (fun t => (t.cmd, t.status, t.outLen)) .decode (finished [0, 0x61]) =
      some (2, 0b001, 0) := by
  decide

/-- H5: BadCommand, IN_LEN kept. -/
theorem test_reserved :
    view (fun t => (t.cmd, t.status, t.errCode, t.outLen, t.inLen)) .reserved { finished [0, 0x61] with ib := Memory.ofBytes [0x61], inLen := 1 } =
      some (3, 0b110, 4, 0, 1) := by decide

/-- R150: a write of 1 to CMD is ENCODE. -/
theorem test_hostCmd : exec (.hostCmd 1) (small 4 4) = exec .encode (small 4 4) := by rfl

/-- R151. -/
theorem test_hostLoad :
    view (fun t => (t.inLen, t.ib.bytes)) (.hostLoad [0x61, 0x62]) (small 4 4) =
      some (2, [0x61, 0x62]) := by decide

/-- R156. -/
theorem test_hostRead : view (·.answer) (.hostRead 1) (finished [0, 0x61]) = some (.byte 0x61) := by decide

/-- R156: not after an error. -/
theorem test_hostRead_error :
    view (·.answer) (.hostRead 0) { finished [] with status := 0b110, errCode := 2 } = some .refused := by decide

/-! ## A step from reset -/

/-- The Match of D6 placed after reset is the next instruction: no output yet, so InvalidOffsetError (R128). -/
theorem test_step_match :
    (match step (State.reset.withFetchWord 40 0x4200050001) with
      | .next t => some (t.status, t.errCode)
      | .fault _ => none
      | .refused _ => none) = some (0b110, 3) := by decide

/-- A command word placed after reset. -/
theorem test_step_decode :
    (match step (State.reset.withFetchWord 8 2) with
      | .next t => some (t.cmd, t.status)
      | .fault _ => none
      | .refused _ => none) = some (2, 0b001) := by decide

/-! ## Witnesses: states and operands that meet the hypotheses of the statements

`witness_<Name>` is of `Obligations.<Name>`; with several clauses it has one part for each. -/

/-- "abcabcabcX" of M1 and M12. -/
def abcX : List Byte := [0x61, 0x62, 0x63, 0x61, 0x62, 0x63, 0x61, 0x62, 0x63, 0x58]

/-- D6's stream. -/
def streamD6 : List Byte := [0x02, 0x41, 0x01, 0x00, 0x05, 0x00, 0x42]

/-- A running DECODE at a group boundary meets the invariant. -/
theorem inv_decoding : Inv (decoding streamD6 []) where
  ibDense := by decide
  obDense := by decide
  inFits := by decide
  outFits := by decide
  statusLegal := by decide
  errCodeIffErr := by decide
  errCodeLegal := by decide
  busyIffPlace := by decide
  direction := by decide
  place := by show State.decoderOk _; decide

/-- An idle core meets it, whatever the host is about to do. -/
theorem inv_small (moves : List Input) : Inv { small 4 4 with inputs := moves } where
  ibDense := rfl
  obDense := rfl
  inFits := rfl
  outFits := rfl
  statusLegal := .inl rfl
  errCodeIffErr := by show (0 : BitVec 3) ≠ 0 ↔ (0b000#3).getLsbD 2 = true; decide
  errCodeLegal := by show (0 : BitVec 3).toNat ≤ 5; decide
  busyIffPlace := by show (0b000#3).getLsbD 0 = true ↔ Seq.idle ≠ .idle; decide
  direction := fun h => absurd (show (0b000#3).getLsbD 0 = true from h) (by decide)
  place := trivial

theorem witness_ResetLeavesTheCoreIdle :
    (∃ (s : State) (rest : List Input), s.inputs = .reset :: rest) ∧
    (∃ s : State, s.status = 0b000#3 ∧ s.inputs = []) :=
  ⟨⟨{ decoding streamD6 [] with inputs := [.reset, .cede] }, [.cede], rfl⟩, ⟨State.reset, rfl, rfl⟩⟩

theorem witness_StepKeepsTheInvariant : ∃ s t : State, Inv s ∧ step s = .next t := ⟨_, _, inv_decoding, rfl⟩

theorem witness_InvariantStepNeverStops : ∃ s : State, Inv s := ⟨_, inv_decoding⟩

theorem witness_StepKeepsTheConfiguration : ∃ s t : State, step s = .next t := ⟨decoding streamD6 [], _, rfl⟩

theorem witness_RunningStepKeepsTheInput :
    ∃ s t : State, s.busy = true ∧ s.notResetNext ∧ step s = .next t :=
  ⟨decoding streamD6 [], _, by decide, (fun _ h => by cases h), rfl⟩

theorem witness_RunningStepOnlyAppendsOutput :
    ∃ s t : State, Inv s ∧ s.busy = true ∧ s.notResetNext ∧ step s = .next t :=
  ⟨_, _, inv_decoding, by decide, (fun _ h => by cases h), rfl⟩

theorem witness_StepRunsTheFetchedInstruction :
    (∃ (s : State) (o : HostOp) (rest : List Input), s.inputs = .op o :: rest) ∧
    (∃ (s : State) (bytes rest : List Byte) (i : Instr), s.busy = true ∧ s.inputs = [] ∧ s.cfg.grain ≠ .micro ∧
      s.seq = .group ∧ 0 < s.avail ∧ fetchBytes 1 s.rp s = some bytes ∧
      decode s.cfg.order .group bytes = .ok (i, rest)) ∧
    (∀ m : Bool, ∃ (s : State) (bytes rest : List Byte) (i : Instr), s.busy = true ∧ s.inputs = [] ∧
      s.cfg.grain ≠ .micro ∧ s.seq = .token ∧ s.dBit.toNat < 8 ∧ s.dCtrl.getLsbD s.dBit.toNat = m ∧
      (if m then 5 else 1) ≤ s.avail ∧ fetchBytes (if m then 5 else 1) s.rp s = some bytes ∧
      decode s.cfg.order (.token m) bytes = .ok (i, rest)) ∧
    (∃ (s : State) (i : Instr), s.busy = true ∧ s.inputs = [] ∧ selectInstr s = .ok i) ∧
    (∃ s : State, s.busy = true ∧ s.dBit.toNat < 7) ∧ (∃ s : State, s.busy = true ∧ s.dBit.toNat = 7) := by
  refine ⟨⟨{ small 4 4 with inputs := [.op .poll] }, .poll, [], rfl⟩,
    ⟨decoding streamD6 [], [0x02], [], .ctrl 0x02, by decide, rfl, by decide, rfl, by decide, by decide, by decide⟩,
    fun m => ?_, ⟨encoding 3 4 abcX, .encSelect, by decide, rfl, by decide⟩,
    ⟨{ decoding streamD6 [] with dBit := 6 }, by decide, by decide⟩,
    ⟨{ decoding streamD6 [] with dBit := 7 }, by decide, by decide⟩⟩
  cases m
  · exact ⟨{ decoding streamD6 [] with seq := .token, rp := 1, dCtrl := 0x02, dBit := 0 }, [0x41], [], .lit 0x41,
      by decide, rfl, by decide, rfl, by decide, by decide, by decide, by decide, by decide⟩
  · exact ⟨{ decoding streamD6 [0x41] with seq := .token, rp := 2, dCtrl := 0x02, dBit := 1 },
      [0x01, 0x00, 0x05, 0x00, 0x42], [], .matchTok 1 5 0x42,
      by decide, rfl, by decide, rfl, by decide, by decide, by decide, by decide, by decide⟩

theorem witness_FetchWordIsRunNext :
    decodeTableWord 8 3 = some .reserved ∧ decodeTableWord 8 4 = some (.ctrl 4) ∧
    decodeTableWord 8 255 = some (.ctrl 255) ∧ decodeTableWord 40 0xFFFFFFFFFF = some (.matchTok 65535 65535 255) := by
  decide

theorem witness_DecodeOfEncodeIsTheInstruction :
    ∀ i ∈ [Instr.ctrl 0xFF, .lit 0x00, .matchTok 0xFFFF 0 0xFF, .slot 0 0 0x61, .slot 1 0 0, .nop, .reserved],
      i.wellFormed = true ∧ (encode .be i).isSome = true := by decide

theorem witness_EncodeOfDecodeIsTheBytes :
    decode .be (.token true) [0xFF, 0x01, 0x00, 0x05, 0x42, 0x00] = .ok (.matchTok 0xFF01 5 0x42, [0x00]) := by decide

theorem witness_RangeStartsAtTheWindow :
    (∃ s : State, s.pos ≤ s.cfg.windowSize.val ∧ s.cfg.windowSize.val ≤ s.pos) ∧
    (∃ s : State, s.pos < s.cfg.windowSize.val) ∧ (∃ s : State, s.cfg.windowSize.val < s.pos) :=
  ⟨⟨{ small 4 4 with pos := 4 }, by decide, by decide⟩, ⟨{ small 4 4 with pos := 3 }, by decide⟩,
    ⟨{ small 4 4 with pos := 5 }, by decide⟩⟩

theorem witness_CompareYieldsByteEquality :
    (∃ (s : State) (x y : Byte), s.mI + s.mK.toNat < s.pos ∧ s.pos + s.mK.toNat < s.inLen ∧
      s.readIB (s.mI + s.mK.toNat) = some x ∧ s.readIB (s.pos + s.mK.toNat) = some y) ∧
    (∃ s : State, s.pos ≤ s.mI + s.mK.toNat) ∧ (∃ s : State, s.inLen ≤ s.pos + s.mK.toNat) :=
  ⟨⟨{ encoding 3 4 abcX with pos := 3, mI := 2, mK := 0 }, 0x63, 0x61, by decide, by decide, by decide, by decide⟩,
    ⟨{ encoding 3 4 abcX with pos := 3, mI := 3 }, by decide⟩,
    ⟨{ encoding 3 4 abcX with pos := 7, mI := 0, mK := 3 }, by decide⟩⟩

theorem witness_RunLengthIsTheLargest :
    (∃ s : State, s.ib.dense s.inLen ∧ s.mI < s.pos ∧ s.pos ≤ s.inLen) ∧
    (∃ s : State, s.ib.dense s.inLen ∧ s.mI < s.pos ∧ s.pos = s.inLen) :=
  ⟨⟨{ encoding 3 4 abcX with pos := 7, mI := 6 }, by decide, by decide, by decide⟩,
    ⟨{ encoding 3 4 abcX with pos := 10, mI := 9 }, by decide, by decide, by decide⟩⟩

theorem witness_SelectTakesOnlyTheStrictlyLonger :
    (∃ s : State, s.mK.toNat = s.mBlen.toNat) ∧
    (∃ s : State, s.mBlen.toNat < s.mK.toNat ∧ s.mI < s.pos ∧ s.pos = s.mI + 65535) ∧
    (∃ s : State, s.mBlen.toNat < s.mK.toNat ∧ s.mI + 65536 = s.pos) :=
  ⟨⟨{ small 4 4 with mK := 2, mBlen := 2 }, by decide⟩,
    ⟨{ small 65535 4 with mK := 1, pos := 65536, mI := 1 }, by decide, by decide, by decide⟩,
    ⟨{ small 65535 4 with mK := 1, pos := 65536, mI := 0 }, by decide, by decide⟩⟩

theorem witness_FindReturnsTheClosedForm :
    (∃ s : State, s.ib.dense s.inLen ∧ s.pos < s.inLen) ∧ (∃ s : State, s.ib.dense s.inLen ∧ s.pos = s.inLen) :=
  ⟨⟨encoding 3 4 abcX, by decide, by decide⟩, ⟨{ encoding 4 4 [0x61, 0x62, 0x63] with pos := 3 }, by decide, by decide⟩⟩

theorem witness_FoundMatchIsWithinBounds :
    ∃ s t : State, s.ib.dense s.inLen ∧ s.pos ≤ s.inLen ∧ exec .matFind s = .next t ∧ 1 ≤ t.mBlen.toNat :=
  ⟨{ encoding 3 4 abcX with pos := 3 }, _, by decide, by decide, rfl, by decide⟩

theorem witness_NothingFoundExactlyWithoutACandidate :
    ∃ s t : State, s.ib.dense s.inLen ∧ s.pos ≤ s.inLen ∧ exec .matFind s = .next t ∧ t.mBoff = 0 ∧ t.mBlen = 0 :=
  ⟨{ encoding 8 8 [0x61, 0x62, 0x63, 0x64] with pos := 2 }, _, by decide, by decide, rfl, by decide, by decide⟩

theorem witness_EncodeStartInitialisesOrRefusesEmpty : (∃ s : State, s.inLen = 0) ∧ (∃ s : State, s.inLen = 1) :=
  ⟨⟨State.reset, rfl⟩, ⟨encoding 4 4 [0x51], rfl⟩⟩

theorem witness_SelectDecidesLiteralOrMatch :
    (∃ s : State, s.pos + 1 = s.cfg.windowSize.val) ∧
    (∃ s : State, s.cfg.windowSize.val = s.pos ∧ s.ib.dense s.inLen ∧ s.pos ≤ s.inLen) :=
  ⟨⟨{ encoding 3 4 abcX with pos := 2 }, by decide⟩, ⟨{ encoding 3 4 abcX with pos := 3 }, by decide, by decide, by decide⟩⟩

theorem witness_EncodeLiteralTakesOneByte : ∃ (s : State) (b : Byte), s.readIB s.pos = some b :=
  ⟨{ encoding 3 4 abcX with pos := 9 }, 0x58, by decide⟩

theorem witness_EncodeMatchTakesTheNextByteOrTheSentinel :
    (∃ (s : State) (b : Byte), s.pos + s.mBlen.toNat + 1 = s.inLen ∧ s.readIB (s.pos + s.mBlen.toNat) = some b) ∧
    (∃ s : State, s.inLen = s.pos + s.mBlen.toNat) :=
  ⟨⟨{ encoding 3 4 abcX with pos := 7, mBlen := 2 }, 0x58, by decide, by decide⟩,
    ⟨{ encoding 3 4 abcX with pos := 7, mBlen := 3 }, by decide⟩⟩

theorem witness_PushStoresTheTokenAndFlushesTheEighth :
    (∃ s : State, s.gCnt.toNat = 0) ∧ (∃ s : State, s.gCnt.toNat = 6) ∧ (∃ s : State, s.gCnt.toNat = 7) :=
  ⟨⟨{ encoding 3 4 abcX with gCnt := 0 }, by decide⟩, ⟨{ encoding 3 4 abcX with gCnt := 6 }, by decide⟩,
    ⟨{ encoding 3 4 abcX with gCnt := 7 }, by decide⟩⟩

/-- One token and eight; the group fits a finite CAP_OUT exactly. -/
theorem witness_FlushAppendsTheGroup :
    (∃ s : State, s.gCnt.toNat = 1 ∧ s.group.flatMap (tokenBytes s.cfg.order) = [0] ∧ s.roomFor 2 = true) ∧
    (∃ s : State, s.gCnt.toNat = 8 ∧ s.group.flatMap (tokenBytes s.cfg.order) = [0, 0, 0, 0, 0, 0, 0, 0] ∧
      s.roomFor 9 = true) :=
  ⟨⟨withCapOut 2 { encoding 3 4 abcX with gCnt := 1 }, by decide, by decide, by decide⟩,
    ⟨withCapOut 9 { encoding 3 4 abcX with gCnt := 8 }, by decide, by decide, by decide⟩⟩

theorem witness_EncodeEndFlushesThePartialGroup :
    (∃ s : State, s.gCnt = 0) ∧ (∃ s : State, s.gCnt.toNat = 1 ∧ s.roomFor 2 = true ∧
      (s.gCtrl :: (s.gTok.toList.take s.gCnt.toNat).flatMap (tokenBytes s.cfg.order)).length = 2) :=
  ⟨⟨encoding 3 4 abcX, rfl⟩, ⟨withCapOut 2 { encoding 3 4 abcX with gCnt := 1 }, by decide, by decide, by decide⟩⟩

/-- E1's stream fits a CAP_OUT of 2 and not one of 1; the empty input. -/
theorem witness_EncodeRunIsTheReferenceEncoder :
    (∃ s : State, s.ib.dense s.inLen ∧ s.errCode = 0 ∧ refEncode s.ib.bytes 4 4 .le = .ok [0x00, 0x51] ∧
      fitsCap s.cfg.capOut 2 = true) ∧
    (∃ s : State, s.ib.dense s.inLen ∧ s.errCode = 0 ∧ refEncode s.ib.bytes 4 4 .le = .ok [0x00, 0x51] ∧
      fitsCap s.cfg.capOut 2 = false) ∧
    (∃ s : State, s.ib.dense s.inLen ∧ s.errCode = 0 ∧ refEncode s.ib.bytes 4 4 .le = .error .emptyInput) :=
  ⟨⟨withCapOut 2 (encoding 4 4 [0x51]), by decide, rfl, by rfl, by decide⟩,
    ⟨withCapOut 1 (encoding 4 4 [0x51]), by decide, rfl, by rfl, by decide⟩,
    ⟨encoding 4 4 [], by decide, rfl, by rfl⟩⟩

theorem witness_EncodedTokensAreCanonical :
    refToken abcX 3 4 3 = ⟨3, 3, 0x61⟩ ∧ 3 < abcX.length ∧ 2 < min 3 abcX.length := by decide

/-- E5 and E3. -/
theorem witness_RoundTripUpToTheSentinel :
    refFinalPos abcX 3 4 = abcX.length ∧ refFinalPos [0x61, 0x62, 0x63, 0x64, 0x61] 4 4 = 5 + 1 := by decide

theorem witness_ControlByteIsLatchedOrTheStreamEnds :
    (∃ s : State, s.inLen = s.rp) ∧ (∃ (s : State) (f : Byte), s.rp + 1 = s.inLen ∧ s.readIB s.rp = some f) :=
  ⟨⟨decoding [] [], rfl⟩, ⟨decoding [0xFF] [], 0xFF, by decide, by decide⟩⟩

theorem witness_ClearBitReadsOneLiteral :
    (∃ s : State, s.inLen = s.rp) ∧
    (∃ (s : State) (b : Byte), s.dBit.toNat = 7 ∧ s.dCtrl.getLsbD s.dBit.toNat = false ∧ s.readIB s.rp = some b ∧
      s.roomFor 1 = true) :=
  ⟨⟨decoding [] [], rfl⟩,
    ⟨withCapOut 1 { decoding [0x7F, 0x41] [] with rp := 1, dCtrl := 0x7F, dBit := 7 }, 0x41, by decide, by decide,
      by decide, by decide⟩⟩

/-- D14: an offset equal to the output length; the output then fits CAP_OUT exactly. -/
theorem witness_SetBitReplaysOneMatch :
    ∃ (s : State) (off len : Half) (b0 b1 b2 b3 nb : Byte), s.ob.dense s.outLen ∧ s.dBit.toNat = 7 ∧
      s.dCtrl.getLsbD s.dBit.toNat = true ∧ fetchBytes 5 s.rp s = some [b0, b1, b2, b3, nb] ∧
      off = u16Of s.cfg.order b0 b1 ∧ len = u16Of s.cfg.order b2 b3 ∧
      off ≠ 0 ∧ off.toNat = s.outLen ∧ s.roomFor (len.toNat + 1) = true :=
  ⟨withCapOut 3 { decoding [0x80, 0x01, 0x00, 0x01, 0x00, 0x42] [0x41] with rp := 1, dCtrl := 0x80, dBit := 7 },
    1, 1, 0x01, 0x00, 0x01, 0x00, 0x42, by decide, by decide, by decide, by decide, by decide, by decide, by decide,
    by decide, by decide⟩

/-- D22 and D8 (one and four bytes), D12 and D13 (offset 0, offset one past the output). -/
theorem witness_SetBitWithABrokenMatchRaises :
    (∃ s : State, s.dBit.toNat < 8 ∧ s.dCtrl.getLsbD s.dBit.toNat = true ∧ s.ib.dense s.inLen ∧ s.inLen - s.rp = 1) ∧
    (∃ s : State, s.dBit.toNat < 8 ∧ s.dCtrl.getLsbD s.dBit.toNat = true ∧ s.ib.dense s.inLen ∧ s.inLen - s.rp = 4) ∧
    (∃ s : State, s.dBit.toNat < 8 ∧ s.dCtrl.getLsbD s.dBit.toNat = true ∧
      fetchBytes 5 s.rp s = some [0, 0, 1, 0, 0x42] ∧ u16Of s.cfg.order 0 0 = 0) ∧
    (∃ s : State, s.dBit.toNat < 8 ∧ s.dCtrl.getLsbD s.dBit.toNat = true ∧
      fetchBytes 5 s.rp s = some [2, 0, 1, 0, 0x42] ∧ s.outLen + 1 = (u16Of s.cfg.order 2 0).toNat) :=
  ⟨⟨{ decoding [1, 0x41] [] with rp := 1, dCtrl := 1 }, by decide, by decide, by decide, by decide⟩,
    ⟨{ decoding [1, 1, 0, 5, 0] [] with rp := 1, dCtrl := 1 }, by decide, by decide, by decide, by decide⟩,
    ⟨{ decoding [1, 0, 0, 1, 0, 0x42] [0x41] with rp := 1, dCtrl := 1 }, by decide, by decide, by decide, by decide⟩,
    ⟨{ decoding [1, 2, 0, 1, 0, 0x42] [0x41] with rp := 1, dCtrl := 1 }, by decide, by decide, by decide, by decide⟩⟩

theorem witness_FetchesLatchTheirFieldsOrTruncate :
    (∃ s : State, s.inLen = s.rp) ∧ (∃ s : State, s.inLen = s.rp + 1) ∧
    (∃ (s : State) (b0 b1 : Byte), s.inLen = s.rp + 2 ∧ s.readIB s.rp = some b0 ∧ s.readIB (s.rp + 1) = some b1) ∧
    (∃ (s : State) (b : Byte), s.inLen = s.rp + 1 ∧ s.readIB s.rp = some b) :=
  ⟨⟨decoding [] [], rfl⟩, ⟨decoding [1] [], rfl⟩, ⟨decoding [1, 0] [], 1, 0, by decide, by decide, by decide⟩,
    ⟨decoding [1] [], 1, by decide, by decide⟩⟩

theorem witness_CheckPassesExactlyLegalOffsets :
    (∃ s : State, s.dOff ≠ 0 ∧ s.dOff.toNat = s.outLen) ∧ (∃ s : State, s.dOff = 0) ∧
    (∃ s : State, s.outLen + 1 = s.dOff.toNat) :=
  ⟨⟨{ decoding [] [0x41] with dOff := 1 }, by decide, by decide⟩, ⟨decoding [] [0x41], rfl⟩,
    ⟨{ decoding [] [0x41] with dOff := 2 }, by decide⟩⟩

theorem witness_CopyRepeatsTheLastBytesCyclically :
    ∃ s : State, s.ob.dense s.outLen ∧ s.dOff ≠ 0 ∧ s.dOff.toNat = s.outLen ∧ s.roomFor s.dLen.toNat = true :=
  ⟨withCapOut 7 { decoding [] [0x61, 0x62] with dOff := 2, dLen := 5 }, by decide, by decide, by decide, by decide⟩

theorem witness_NextAppendsTheNextByte : ∃ s : State, s.roomFor 1 = true := ⟨withCapOut 1 (decoding [] []), by decide⟩

theorem witness_FullOutputRaisesCapacityError :
    ∃ (s : State) (c : Nat), s.cfg.capOut = some c ∧ s.outLen = c ∧ 1 ≤ s.gCnt.toNat ∧ s.gCnt.toNat ≤ 8 ∧
      s.ob.dense s.outLen ∧ s.dOff ≠ 0 ∧ s.dOff.toNat ≤ s.outLen ∧ s.dLen ≠ 0 :=
  ⟨withCapOut 1 { decoding [] [0x41] with gCnt := 8, dOff := 1, dLen := 1 }, 1, rfl, rfl, by decide, by decide, by decide,
    by decide, by decide, by decide⟩

/-- D4's output fits a CAP_OUT of 1 and not one of 0; D22 is an error. -/
theorem witness_DecodeRunIsTheReferenceDecoder :
    (∃ s : State, s.ib.dense s.inLen ∧ s.errCode = 0 ∧ refDecode s.ib.bytes .le = .ok [0x41] ∧
      fitsCap s.cfg.capOut 1 = true) ∧
    (∃ s : State, s.ib.dense s.inLen ∧ s.errCode = 0 ∧ refDecode s.ib.bytes .le = .ok [0x41] ∧
      fitsCap s.cfg.capOut 1 = false) ∧
    (∃ s : State, s.ib.dense s.inLen ∧ s.errCode = 0 ∧ refDecode s.ib.bytes .le = .error .truncatedStream) :=
  ⟨⟨withCapOut 1 (decoding [0x02, 0x41] []), by decide, rfl, by rfl, by decide⟩,
    ⟨withCapOut 0 (decoding [0x02, 0x41] []), by decide, rfl, by rfl, by decide⟩,
    ⟨decoding [0x01, 0x41] [], by decide, rfl, by rfl⟩⟩

/-- D5 with its own control byte and with 00; no token at all; a Match that the stream ends after. -/
theorem witness_UnusedControlBitsAreIgnored :
    ∀ x ∈ [((0xFE : Byte), (0x00 : Byte), [[(0x41 : Byte)]]), (0xFF, 0x00, []), (0xFD, 0x01, [[1, 0, 5, 0, 0x42]])],
      x.2.2.length ≤ 8 ∧ ∀ j, j < x.2.2.length →
        (x.2.2.getD j []).length = (if x.1.getLsbD j then 5 else 1) ∧ x.2.1.getLsbD j = x.1.getLsbD j := by decide

theorem witness_ControlElementIsReadOrWritten :
    (∃ s : State, s.cmd ≠ 1) ∧ (∃ s : State, s.cmd = 1 ∧ s.roomFor 1 = true) :=
  ⟨⟨decoding [] [], by decide⟩, ⟨withCapOut 1 (encoding 4 4 []), rfl, by decide⟩⟩

theorem witness_LiteralAppendsItsByte :
    ∃ (b : Byte) (s : State), s.roomFor 1 = true ∧ s.readIB s.rp = some b :=
  ⟨0x61, withCapOut 1 (decoding [0x61] []), by decide, by decide⟩

theorem witness_MatchElementReplaysOrIsInvalid :
    (∃ (off : Half) (s : State), off = 0 ∧ s.busy = true) ∧
    (∃ (off : Half) (s : State), s.outLen + 1 = off.toNat) ∧
    (∃ (off len : Half) (s : State), s.ob.dense s.outLen ∧ off ≠ 0 ∧ off.toNat = s.outLen ∧
      s.roomFor (len.toNat + 1) = true) :=
  ⟨⟨0, decoding [] [], rfl, by decide⟩, ⟨1, decoding [] [], by decide⟩,
    ⟨1, 65535, decoding [] [0x41], by decide, by decide, by decide, by rfl⟩⟩

theorem witness_SlotElementIsSerialised :
    (∃ (off len : Half) (byte : Byte) (s : State) (bytes : List Byte),
      bytes = (if off = 0 then [byte] else u16Bytes s.cfg.order off ++ u16Bytes s.cfg.order len ++ [byte]) ∧
      s.roomFor bytes.length = true ∧ off = 0) ∧
    (∃ (off len : Half) (byte : Byte) (s : State) (bytes : List Byte),
      bytes = (if off = 0 then [byte] else u16Bytes s.cfg.order off ++ u16Bytes s.cfg.order len ++ [byte]) ∧
      s.roomFor bytes.length = true ∧ off ≠ 0) :=
  ⟨⟨0, 0, 0x61, withCapOut 1 (encoding 4 4 []), [0x61], by decide, by decide, rfl⟩,
    ⟨3, 2, 0x58, withCapOut 5 (encoding 4 4 []), [3, 0, 2, 0, 0x58], by decide, by decide, by decide⟩⟩

/-- The least and the greatest n, which take exactly CAP_OUT, and the two next to them. -/
theorem witness_RunPseudoFormRepeatsItsByte :
    (∃ s : State, s.ob.dense s.outLen ∧ s.roomFor 2 = true) ∧ (∃ s : State, s.ob.dense s.outLen ∧ s.roomFor 65537 = true) ∧
    (∃ n : Nat, n < 2) ∧ (∃ n : Nat, 65537 < n) :=
  ⟨⟨withCapOut 2 (decoding [] []), by decide, by decide⟩, ⟨decoding [] [], by decide, by rfl⟩, ⟨1, by decide⟩,
    ⟨65538, by decide⟩⟩

theorem witness_BusyCoreRefusesTheHost : ∃ s : State, s.busy = true := ⟨decoding [] [], by decide⟩

theorem witness_LoadSetsTheInput :
    ∃ (s : State) (x y : List Byte), s.busy = false ∧ fitsCap s.cfg.capIn x.length = true ∧
      fitsCap s.cfg.capIn y.length = false :=
  ⟨{ small 4 4 with cfg := { (small 4 4).cfg with capIn := some 1 } }, [0x61], [0x61, 0x62], by decide, by decide,
    by decide⟩

theorem witness_NopSetsOnlyTheCommandRegister : ∃ s : State, s.busy = false := ⟨State.reset, by rfl⟩

theorem witness_CommandStartBeginsTheRun :
    (∃ s : State, s.busy = false ∧ s.cfg.grain = .command) ∧ (∃ s : State, s.busy = false ∧ s.cfg.grain ≠ .command) ∧
    (∃ (i : Instr) (v : BitVec 2), i = .encode ∧ v = 1 ∨ i = .decode ∧ v = 2) :=
  ⟨⟨{ small 4 4 with cfg := { (small 4 4).cfg with grain := .command } }, by decide, rfl⟩,
    ⟨small 4 4, by decide, by decide⟩, ⟨.decode, 2, .inr ⟨rfl, rfl⟩⟩⟩

theorem witness_ReservedCommandIsBadCommand : ∃ s : State, s.busy = false := ⟨finished [], by decide⟩

theorem witness_PollAndReadGiveTheHostTheResult :
    (∃ s : State, s.busy = false) ∧
    (∃ (s : State) (a : Nat) (b : Byte), s.status = 0b010#3 ∧ s.readOB a = some b ∧ a + 1 = s.outLen) ∧
    (∃ s : State, s.status ≠ 0b010#3 ∧ Inv s) ∧ (∃ (s : State) (a : Nat), s.outLen = a) :=
  ⟨⟨State.reset, by rfl⟩, ⟨finished [0, 0x61], 1, 0x61, by decide, by decide, by decide⟩,
    ⟨_, by decide, inv_decoding⟩, ⟨finished [0, 0x61], 2, rfl⟩⟩

theorem witness_EncodeEntryPointComputesEncode :
    ∃ (s : State) (x : List Byte), Inv s ∧ s.busy = false ∧ s.cfg.capIn = none ∧ s.cfg.capOut = none ∧
      s.inputs = [.op (.load x), .op (.cmd 1), .untilReady] :=
  ⟨_, abcX, inv_small [.op (.load abcX), .op (.cmd 1), .untilReady], rfl, rfl, rfl, rfl⟩

theorem witness_DecodeEntryPointComputesDecode :
    ∃ (s : State) (x : List Byte), Inv s ∧ s.busy = false ∧ s.cfg.capIn = none ∧ s.cfg.capOut = none ∧
      s.inputs = [.op (.load x), .op (.cmd 2), .untilReady] :=
  ⟨_, streamD6, inv_small [.op (.load streamD6), .op (.cmd 2), .untilReady], rfl, rfl, rfl, rfl⟩

theorem witness_GrainDoesNotChangeTheResult :
    ∃ (s : State) (v : BitVec 2) (g : Grain), Inv s ∧ s.busy = false ∧ (v = 1 ∨ v = 2) ∧
      s.inputs = [.op (.cmd v), .untilReady] ∧ g = .micro :=
  ⟨_, 2, .micro, inv_small [.op (.cmd 2), .untilReady], rfl, .inr rfl, rfl, rfl⟩

theorem witness_EveryCommandCompletes : ∃ s : State, Inv s ∧ s.busy = true ∧ s.inputs = [] :=
  ⟨_, inv_decoding, by decide, rfl⟩

end Sys2Proof.Tests
end

/-! The size of a step (R6): a command accepted at another size has the same work left, and so ends in the same state but
for the size itself. -/

namespace Sys2Proof.Machine

/-- The invariant does not speak of the size of a step. -/
theorem Inv.regrain {s : State} (h : Inv s) (g : Grain) : Inv (regrain g s) :=
  ⟨h.ibDense, h.obDense, h.inFits, h.outFits, h.statusLegal, h.errCodeIffErr, h.errCodeLegal, h.busyIffPlace, h.direction,
    h.place⟩

/-- The size of a step is not among what the host sees. -/
theorem hostView_regrain (g : Grain) (s : State) : (regrain g s).hostView = s.hostView := rfl

/-- Accepted at another size of step, a command begins at another place and is otherwise in the same state. -/
theorem accepted_regrain (g : Grain) (v : BitVec 2) (s : State) :
    acceptHost (commandStart v (regrain g s)) = reseat (firstSeq g) g (acceptHost (commandStart v s)) := rfl

/-- What is left of a command that was just accepted does not depend on the size of a step. -/
theorem remaining_accepted_regrain (N : Nat) (g : Grain) (v : BitVec 2) (s : State) :
    remaining N (acceptHost (commandStart v (regrain g s))) =
      (remaining N (acceptHost (commandStart v s))).reseat (firstSeq g) g := by
  rw [remaining_start, remaining_start, accepted_regrain]
  split
  · exact blind_encRun _ _ _
  · exact blind_decRun _ _ _

/-- Settles O58: both runs complete the work that is left after the command was accepted (`command_run`), and that work
does not depend on the size of a step. -/
theorem grainDoesNotChangeTheResult : Obligations.GrainDoesNotChangeTheResult := by
  intro s v g h hb hv hin
  obtain ⟨n, t, run, ready, ends, _⟩ :=
    command_run (N := s.inLen + 2) (h.regrain .command) hb hv hin (Nat.lt_succ_self _)
  obtain ⟨n', t', run', ready', ends', _⟩ :=
    command_run (N := s.inLen + 2) (h.regrain g) hb hv hin (Nat.lt_succ_self _)
  have same : t' = regrain g t := by
    have := remaining_accepted_regrain (s.inLen + 2) g v (regrain .command { s with inputs := [.untilReady] })
    exact Flow.ended.inj (ends'.symm.trans (this.trans (congrArg (Flow.reseat (firstSeq g) g) ends)))
  subst same
  exact ⟨n, n', _, _, run, run', ready, ready', rfl, rfl, (hostView_regrain g _).symm⟩

end Sys2Proof.Machine

/-! The statements of 10_state.md about every step: the invariant after reset and from step to step, and the configuration. -/

namespace Sys2Proof.Machine

/-! ## The invariant -/

/-- The values that R190 gives meet the invariant, whatever the working registers hold. -/
theorem inv_of_reset_values {s : State} (status : s.status = statusIdle) (errCode : s.errCode = 0) (inLen : s.inLen = 0)
    (outLen : s.outLen = 0) (ib : s.ib = []) (ob : s.ob = []) (seq : s.seq = .idle) : Inv s := by
  have ready : s.busy = false := by rw [State.busy, status]; exact status_bits_busy.1
  have noErr : s.err = false := by rw [State.err, status]; rfl
  constructor
  · simp [Memory.dense, ib, inLen]
  · simp [Memory.dense, ob, outLen]
  · rw [inLen]; exact fitsCap_zero _
  · rw [outLen]; exact fitsCap_zero _
  · exact .inl status
  · simp [errCode, noErr]
  · simp [errCode]
  · simp [ready, seq]
  · simp [ready]
  · simp [State.placeOk, seq]

/-- Settles O2: the reset state holds the values of R190. -/
theorem resetMeetsTheInvariant : Obligations.ResetMeetsTheInvariant :=
  inv_of_reset_values rfl rfl rfl rfl rfl rfl rfl

/-- The core's move: the instruction of a running core (`sim`), nothing otherwise. -/
theorem coreStep_inv {s : State} (h : Inv s) : ∃ t, coreStep s = .next t ∧ Inv t := by
  unfold coreStep
  split
  next busy =>
    obtain ⟨t, run, inv, _⟩ := sim (N := s.inLen + 2) h busy (Nat.lt_succ_self _)
    exact ⟨t, run, inv⟩
  next => exact ⟨s, rfl, h⟩

/-- From a state with the invariant a step answers a next state, which has it too, whoever moves. -/
theorem step_inv {s : State} (h : Inv s) : ∃ t, step s = .next t ∧ Inv t := by
  unfold step
  split
  next => exact coreStep_inv h
  next rest _ => exact coreStep_inv (h.inputs rest)
  next rest _ =>
    split
    · exact coreStep_inv h
    · exact ⟨_, rfl, h.inputs rest⟩
  next rest _ => exact ⟨_, rfl, powerOn_inv _⟩
  next o rest _ => exact host_inv (h.inputs rest) o

/-- Settles O3: the next state is the one of `step_inv`. -/
theorem stepKeepsTheInvariant : Obligations.StepKeepsTheInvariant := by
  intro s t h hs
  obtain ⟨u, hu, inv⟩ := step_inv h
  obtain rfl : u = t := by simpa [hu] using hs
  exact inv

/-! ## What no operation of the core writes -/

/-- The configuration (R10), CMD, the input (R41) and the host's side: no operation of the core writes them, in any state,
not even where it completes the command. -/
def State.kept (s : State) : Config × BitVec 2 × Memory × Nat × List Input × Answer :=
  (s.cfg, s.cmd, s.ib, s.inLen, s.inputs, s.answer)

/-- What an operation leads to has them as in `s`, whether the command goes on or has completed. -/
def Flow.Keeps (s : State) (x : Flow) : Prop :=
  match x with
  | .go t => t.kept = s.kept
  | .ended t => t.kept = s.kept
  | .stop _ => True

/-- From a state that has them as in `s`. -/
theorem Flow.Keeps.trans {s a : State} {x : Flow} (hx : x.Keeps a) (ha : a.kept = s.kept) : x.Keeps s := by
  cases x with
  | go t => exact Eq.trans hx ha
  | ended t => exact Eq.trans hx ha
  | stop f => trivial

/-- One operation after another. -/
theorem Flow.Keeps.andThen {s : State} {x : Flow} {k : State → Flow} (h : x.Keeps s) (hk : ∀ a, (k a).Keeps a) :
    (x.andThen k).Keeps s := by
  cases x with
  | go a => exact (hk a).trans h
  | ended a => exact h
  | stop f => trivial

/-- As an instruction. -/
theorem Flow.Keeps.outcome {s t : State} {x : Flow} (h : x.Keeps s) (hx : x.outcome = .next t) : t.kept = s.kept := by
  cases x with
  | go a => cases hx; exact h
  | ended a => cases hx; exact h
  | stop f => cases hx

/-- `raise` keeps them. -/
theorem keeps_raise (k : ErrKind) (s : State) : (raise k s).Keeps s := rfl

/-- Append keeps them. -/
theorem keeps_append (v : Byte) (s : State) : (append v s).Keeps s := by
  unfold append
  split
  · exact keeps_raise _ s
  · rfl

/-- Several appends. -/
theorem keeps_appendAll (bytes : List Byte) (s : State) : (appendAll bytes s).Keeps s := by
  induction bytes generalizing s with
  | nil => rfl
  | cons v rest ih => exact (keeps_append v s).andThen ih

/-! ### The matcher -/

/-- MAT.CMP. -/
theorem keeps_matCmp (s : State) : (matCmp s).Keeps s := by
  unfold matCmp
  split
  · trivial
  · rfl

/-- The run of MAT.LEN. -/
theorem keeps_extendRun (n : Nat) (s : State) : (extendRun n s).Keeps s := by
  induction n generalizing s with
  | zero => rfl
  | succ n ih =>
    unfold extendRun
    split
    · split
      · trivial
      · exact ih { s with mK := s.mK + 1 }
      · rfl
    · rfl

/-- MAT.LEN. -/
theorem keeps_matLen (s : State) : (matLen s).Keeps s := keeps_extendRun _ { s with mK := 0 }

/-- MAT.SEL. -/
theorem keeps_matSel (s : State) : (matSel s).Keeps s := by
  unfold matSel selected
  split
  · split
    · split <;> rfl
    · trivial
  · rfl

/-- The candidates of MAT.FIND. -/
theorem keeps_scanCandidates (n : Nat) (s : State) : (scanCandidates n s).Keeps s := by
  induction n generalizing s with
  | zero => rfl
  | succ n ih =>
    have measured : (matLen { s with mI := s.pos - (n + 1) }).Keeps s := (keeps_matLen _).trans rfl
    exact measured.andThen fun a => (keeps_matSel a).andThen ih

/-- MAT.FIND. -/
theorem keeps_matFind (s : State) : (matFind s).Keeps s :=
  keeps_scanCandidates _ { s with mBoff := 0, mBlen := 0, mLo := s.windowStart }

/-! ### The encoder -/

/-- ENC.START. -/
theorem keeps_encStart (s : State) : (encStart s).Keeps s := by
  unfold encStart
  split
  · exact keeps_raise _ s
  · rfl

/-- ENC.SELECT. -/
theorem keeps_encSelect (s : State) : (encSelect s).Keeps s := by
  unfold encSelect
  split
  · rfl
  · exact keeps_matFind s

/-- ENC.LIT. -/
theorem keeps_encLit (s : State) : (encLit s).Keeps s := by
  unfold encLit
  split
  · trivial
  · rfl

/-- ENC.MATCH. -/
theorem keeps_encMatch (s : State) : (encMatch s).Keeps s := by
  unfold encMatch
  split
  · trivial
  · rfl

/-- One slot written to the stream. -/
theorem keeps_emitSlot (sl : Slot) (s : State) : (emitSlot sl s).Keeps s := keeps_appendAll _ s

/-- Several slots. -/
theorem keeps_emitSlots (sls : List Slot) (s : State) : (emitSlots sls s).Keeps s := by
  induction sls generalizing s with
  | nil => rfl
  | cons sl rest ih => exact (keeps_emitSlot sl s).andThen ih

/-- ENC.FLUSH. -/
theorem keeps_encFlush (s : State) : (encFlush s).Keeps s := by
  unfold encFlush
  split
  · exact (keeps_append _ s).andThen fun a => (keeps_emitSlots _ a).andThen fun _ => rfl
  · trivial

/-- ENC.PUSH. -/
theorem keeps_encPush (s : State) : (encPush s).Keeps s := by
  unfold encPush
  split
  · split
    · exact keeps_encFlush (stored s)
    · rfl
  · trivial

/-- ENC.END. -/
theorem keeps_encEnd (s : State) : (encEnd s).Keeps s := by
  have flushed : (if 0 < s.gCnt.toNat then encFlush s else .go s).Keeps s := by
    split
    · exact keeps_encFlush s
    · rfl
  exact flushed.andThen fun _ => rfl

/-- One pass of ENC.RUN. -/
theorem keeps_encPass (s : State) : (encPass s).Keeps s := by
  refine (keeps_encSelect s).andThen fun a => Flow.Keeps.andThen ?_ keeps_encPush
  split
  · exact keeps_encMatch a
  · exact keeps_encLit a

/-- The loop of ENC.RUN. -/
theorem keeps_encLoop (n : Nat) (s : State) : (encLoop n s).Keeps s := by
  induction n generalizing s with
  | zero =>
    unfold encLoop
    split
    · trivial
    · exact keeps_encEnd s
  | succ n ih =>
    unfold encLoop
    split
    · exact (keeps_encPass s).andThen ih
    · exact keeps_encEnd s

/-- ENC.RUN. -/
theorem keeps_encRun (s : State) : (encRun s).Keeps s := (keeps_encStart s).andThen fun a => keeps_encLoop _ a

/-! ### The decoder -/

/-- DEC.CTRL. -/
theorem keeps_decCtrl (s : State) : (decCtrl s).Keeps s := by
  unfold decCtrl
  split
  · rfl
  · split
    · trivial
    · rfl

/-- A Literal's byte appended. -/
theorem keeps_literalRead (b : Byte) (s : State) : (literalRead b s).Keeps s := (keeps_append b s).andThen fun _ => rfl

/-- DEC.LIT. -/
theorem keeps_decLit (s : State) : (decLit s).Keeps s := by
  unfold decLit
  split
  · trivial
  · exact keeps_literalRead _ s

/-- DEC.FETCH_OFF. -/
theorem keeps_decFetchOff (s : State) : (decFetchOff s).Keeps s := by
  unfold decFetchOff
  split
  · rfl
  · split
    · exact keeps_raise _ s
    · split
      · trivial
      · rfl

/-- DEC.FETCH_LEN. -/
theorem keeps_decFetchLen (s : State) : (decFetchLen s).Keeps s := by
  unfold decFetchLen
  split
  · exact keeps_raise _ s
  · split
    · trivial
    · rfl

/-- DEC.FETCH_NXT. -/
theorem keeps_decFetchNxt (s : State) : (decFetchNxt s).Keeps s := by
  unfold decFetchNxt
  split
  · exact keeps_raise _ s
  · split
    · trivial
    · rfl

/-- DEC.CHECK. -/
theorem keeps_decCheck (s : State) : (decCheck s).Keeps s := by
  unfold decCheck
  split
  · exact keeps_raise _ s
  · rfl

/-- The loop of DEC.COPY. -/
theorem keeps_copyBytes (n : Nat) (s : State) : (copyBytes n s).Keeps s := by
  induction n generalizing s with
  | zero => rfl
  | succ n ih =>
    unfold copyBytes
    split
    · trivial
    · exact (keeps_append _ s).andThen fun a => ih { a with dSrc := a.dSrc + 1, dRem := a.dRem - 1 }

/-- DEC.COPY. -/
theorem keeps_decCopy (s : State) : (decCopy s).Keeps s := by
  unfold decCopy
  split
  · exact keeps_copyBytes _ { s with dSrc := s.outLen - s.dOff.toNat, dRem := s.dLen }
  · trivial

/-- DEC.NEXT. -/
theorem keeps_decNext (s : State) : (decNext s).Keeps s := keeps_append _ s

/-- Check, copy, append. -/
theorem keeps_replay (s : State) : (replay s).Keeps s :=
  (keeps_decCheck s).andThen fun a => (keeps_decCopy a).andThen keeps_decNext

/-- The Match sequence. -/
theorem keeps_decMatch (s : State) : (decMatch s).Keeps s :=
  (keeps_decFetchOff s).andThen fun a => (keeps_decFetchLen a).andThen fun b => (keeps_decFetchNxt b).andThen keeps_replay

/-- DEC.BIT. -/
theorem keeps_decBit (s : State) : (decBit s).Keeps s := by
  unfold decBit
  split
  · rfl
  · split
    · refine Flow.Keeps.andThen ?_ fun _ => rfl
      split
      · exact keeps_decMatch s
      · exact keeps_decLit s
    · trivial

/-- The tokens of one group. -/
theorem keeps_decTokens (n : Nat) (s : State) : (decTokens n s).Keeps s := by
  induction n generalizing s with
  | zero => rfl
  | succ n ih =>
    unfold decTokens
    split
    · exact (keeps_decBit s).andThen ih
    · rfl

/-- The loop of DEC.RUN. -/
theorem keeps_decLoop (n : Nat) (s : State) : (decLoop n s).Keeps s := by
  induction n generalizing s with
  | zero => trivial
  | succ n ih => exact (keeps_decCtrl s).andThen fun a => (keeps_decTokens 8 a).andThen ih

/-- DEC.RUN. -/
theorem keeps_decRun (s : State) : (decRun s).Keeps s := keeps_decLoop _ { clearOutput s with rp := 0 }

/-! ### The elements of the stream -/

/-- CTRL, in either direction. -/
theorem keeps_ctrlElement (f : Byte) (s : State) : (ctrlElement f s).Keeps s := by
  unfold ctrlElement
  split
  · exact keeps_append f s
  · rfl

/-- MATCH. -/
theorem keeps_matchElement (off len : Half) (nxt : Byte) (s : State) : (matchElement off len nxt s).Keeps s :=
  keeps_replay (nextRead nxt (lengthRead len (offsetRead off s)))

/-- RUN, its two tokens. -/
theorem execRun_kept {b : Byte} {n : Nat} {s t : State} (h : execRun b n s = .next t) : t.kept = s.kept := by
  unfold execRun at h
  split at h
  · exact ((keeps_literalRead b s).andThen (keeps_matchElement 1 _ b)).outcome h
  · cases h

/-- The sequencer moves on without writing them. -/
theorem advance_kept (i : Instr) (s : State) : (advance i s).kept = s.kept := by
  unfold advance
  split
  · cases i <;> rfl
  · rfl

/-! ## The configuration -/

/-- It is among what no operation of the core writes. -/
theorem cfg_of_kept {s t : State} (h : t.kept = s.kept) : t.cfg = s.cfg := congrArg Prod.fst h

/-- So an operation, as an instruction, keeps it. -/
theorem Flow.Keeps.outcome_cfg {s t : State} {x : Flow} (h : x.Keeps s) (hx : x.outcome = .next t) : t.cfg = s.cfg :=
  cfg_of_kept (h.outcome hx)

/-- A host operation accepted only while BUSY = 0 keeps it, if what it does then keeps it: refused, it changes nothing. -/
theorem whenReady_cfg {k : State → Host.Outcome State Fault Refusal} {s t : State}
    (hk : ∀ u, k s = .next u → u.cfg = s.cfg) (h : whenReady k s = .next t) : t.cfg = s.cfg := by
  unfold whenReady at h
  split at h
  · cases h; rfl
  · exact hk t h

/-- NOP keeps it. -/
theorem execNop_cfg {s t : State} (h : execNop s = .next t) : t.cfg = s.cfg :=
  whenReady_cfg (fun _ e => by cases e; rfl) h

/-- Acceptance of ENCODE keeps it. -/
theorem execEncode_cfg {s t : State} (h : execEncode s = .next t) : t.cfg = s.cfg :=
  whenReady_cfg (fun _ e => by cases e; rfl) h

/-- Acceptance of DECODE keeps it. -/
theorem execDecode_cfg {s t : State} (h : execDecode s = .next t) : t.cfg = s.cfg :=
  whenReady_cfg (fun _ e => by cases e; rfl) h

/-- The reserved command keeps it. -/
theorem execReserved_cfg {s t : State} (h : execReserved s = .next t) : t.cfg = s.cfg :=
  whenReady_cfg (fun _ e => by cases e; rfl) h

/-- A write of CMD keeps it, whatever the value. -/
theorem execHostCmd_cfg {v : BitVec 2} {s t : State} (h : execHostCmd v s = .next t) : t.cfg = s.cfg := by
  unfold execHostCmd at h
  split at h
  · exact execNop_cfg h
  · split at h
    · exact execEncode_cfg h
    · split at h
      · exact execDecode_cfg h
      · exact execReserved_cfg h

/-- HOST.LOAD keeps it. -/
theorem execHostLoad_cfg {bytes : List Byte} {s t : State} (h : execHostLoad bytes s = .next t) : t.cfg = s.cfg := by
  refine whenReady_cfg (fun u e => ?_) h
  split at e <;> cases e <;> rfl

/-- HOST.READ keeps it. -/
theorem execHostRead_cfg {a : Nat} {s t : State} (h : execHostRead a s = .next t) : t.cfg = s.cfg := by
  refine whenReady_cfg (fun u e => ?_) h
  split at e
  · split at e
    · cases e
    · cases e; rfl
  · cases e; rfl

/-- Every instruction keeps it, in any state. -/
theorem exec_cfg {i : Instr} {s t : State} (h : exec i s = .next t) : t.cfg = s.cfg := by
  cases i with
  | ctrl f => exact (keeps_ctrlElement f s).outcome_cfg h
  | lit b => exact (keeps_literalRead b s).outcome_cfg h
  | matchTok off len nxt => exact (keeps_matchElement off len nxt s).outcome_cfg h
  | slot off len byte => exact (keeps_emitSlot ⟨off, len, byte⟩ s).outcome_cfg h
  | nop => exact execNop_cfg h
  | encode => exact execEncode_cfg h
  | decode => exact execDecode_cfg h
  | reserved => exact execReserved_cfg h
  | matFind => exact (keeps_matFind s).outcome_cfg h
  | matRange => cases h; rfl
  | matCmp => exact (keeps_matCmp s).outcome_cfg h
  | matLen => exact (keeps_matLen s).outcome_cfg h
  | matSel => exact (keeps_matSel s).outcome_cfg h
  | encRun => exact (keeps_encRun s).outcome_cfg h
  | encStart => exact (keeps_encStart s).outcome_cfg h
  | encSelect => exact (keeps_encSelect s).outcome_cfg h
  | encLit => exact (keeps_encLit s).outcome_cfg h
  | encMatch => exact (keeps_encMatch s).outcome_cfg h
  | encPush => exact (keeps_encPush s).outcome_cfg h
  | encFlush => exact (keeps_encFlush s).outcome_cfg h
  | encEnd => exact (keeps_encEnd s).outcome_cfg h
  | decRun => exact (keeps_decRun s).outcome_cfg h
  | decStart => cases h; rfl
  | decCtrl => exact (keeps_decCtrl s).outcome_cfg h
  | decBit => exact (keeps_decBit s).outcome_cfg h
  | decLit => exact (keeps_decLit s).outcome_cfg h
  | decFetchOff => exact (keeps_decFetchOff s).outcome_cfg h
  | decFetchLen => exact (keeps_decFetchLen s).outcome_cfg h
  | decFetchNxt => exact (keeps_decFetchNxt s).outcome_cfg h
  | decCheck => exact (keeps_decCheck s).outcome_cfg h
  | decCopy => exact (keeps_decCopy s).outcome_cfg h
  | decNext => exact (keeps_decNext s).outcome_cfg h
  | decEnd => cases h; rfl
  | decAbort kind => exact (keeps_raise kind s).outcome_cfg h
  | hostLoad bytes => exact execHostLoad_cfg h
  | hostCmd v => exact execHostCmd_cfg h
  | hostPoll => cases h; rfl
  | hostRead a => exact execHostRead_cfg h
  | run b n => exact cfg_of_kept (execRun_kept h)

/-- The core's move keeps it. -/
theorem coreStep_cfg {s t : State} (h : coreStep s = .next t) : t.cfg = s.cfg := by
  unfold coreStep runStep at h
  split at h
  · split at h
    · cases h
    · split at h
      next i _ _ u hu =>
        cases h
        exact (cfg_of_kept (advance_kept i u)).trans (exec_cfg hu)
      · cases h
      · cases h
  · cases h; rfl

/-- Settles O5: whoever moves, the step runs at most one instruction (`exec_cfg`), and a reset keeps the configuration. -/
theorem stepKeepsTheConfiguration : Obligations.StepKeepsTheConfiguration := by
  intro s t h
  unfold step at h
  split at h
  next => exact coreStep_cfg h
  next rest _ => exact coreStep_cfg (s := { s with inputs := rest }) h
  next =>
    split at h
    · exact coreStep_cfg h
    · cases h; rfl
  next => cases h; rfl
  next o rest _ => exact exec_cfg (s := { s with inputs := rest }) h

end Sys2Proof.Machine

/-! The statements of 20_memory.md about every step: no read outside the valid bytes (R44), the input kept while a command
runs (R41), the output only appended to (R42). -/

namespace Sys2Proof.Machine

/-! ## No step stops -/

/-- Settles O4: `step_inv` gives the next state. -/
theorem invariantStepNeverStops : Obligations.InvariantStepNeverStops := fun _ h =>
  let ⟨t, run, _⟩ := step_inv h
  ⟨t, run⟩

/-! ## Output that only grows -/

/-- The output of `t` is that of `s`, perhaps with bytes appended at OUT_LEN (R42). -/
def OutputGrows (s t : State) : Prop := ∃ bytes, AppendedTo bytes s t

/-- What an error leaves of STATUS, ERR_CODE and OUT_LEN (R172). -/
def ErrorLeft (t : State) : Prop := t.outLen = 0 ∧ t.status = statusError ∧ t.errCode ≠ 0

/-- An output left alone. -/
theorem OutputGrows.of_same {s t : State} (ob : t.ob = s.ob) (outLen : t.outLen = s.outLen) : OutputGrows s t :=
  ⟨[], appendedTo_of ob outLen⟩

/-- First some bytes, then others after them. -/
theorem AppendedTo.trans {xs ys : List Byte} {s t u : State} (h : AppendedTo xs s t) (h' : AppendedTo ys t u) :
    AppendedTo (xs ++ ys) s u where
  outLen := by rw [h'.outLen, h.outLen, List.length_append, Nat.add_assoc]
  stored j hj := by
    have ht := h.outLen
    rw [List.length_append] at hj
    by_cases hx : j < xs.length
    · rw [h'.others _ (.inl (by omega)), h.stored j hx, List.getElem?_append_left hx]
    · have hy := h'.stored (j - xs.length) (by omega)
      rw [List.getElem?_append_right (by omega), ← hy]
      congr 1
      omega
  others a ha := by
    have ht := h.outLen
    rw [List.length_append] at ha
    rw [h'.others a (by omega), h.others a (by omega)]

theorem OutputGrows.trans {s t u : State} (h : OutputGrows s t) (h' : OutputGrows t u) : OutputGrows s u :=
  let ⟨xs, hx⟩ := h
  let ⟨ys, hy⟩ := h'
  ⟨xs ++ ys, hx.trans hy⟩

/-- From no output, any output that R17 allows is appended. -/
theorem OutputGrows.of_empty {s t : State} (hs : s.ob.dense s.outLen) (ht : t.ob.dense t.outLen) (empty : s.outLen = 0) :
    OutputGrows s t := by
  have length := Memory.bytes_length ht
  refine ⟨t.ob.bytes, ?_, fun j _ => ?_, fun a ha => ?_⟩
  · omega
  · rw [empty, Nat.zero_add, Memory.read_dense ht]
  · have := Memory.bytes_length hs
    rw [Memory.read_dense ht, Memory.read_dense hs, List.getElem?_eq_none (by omega), List.getElem?_eq_none (by omega)]

/-- The error entry leaves no output. -/
theorem errorEntry_errorLeft (k : ErrKind) (s : State) : ErrorLeft (errorEntry k s) :=
  ⟨rfl, rfl, by simp only [errorEntry_fields]; cases k <;> decide⟩

/-- An operation that only appends to the output of `s`, where it does not end the command with an error. -/
def Flow.Outputs (s : State) (x : Flow) : Prop :=
  match x with
  | .go t => OutputGrows s t
  | .ended t => OutputGrows s t ∨ ErrorLeft t
  | .stop _ => True

/-- From a state to whose output bytes were appended. -/
theorem Flow.Outputs.trans {s a : State} {x : Flow} (hx : x.Outputs a) (ha : OutputGrows s a) : x.Outputs s := by
  cases x with
  | go t => exact OutputGrows.trans ha hx
  | ended t => exact Or.imp_left ha.trans hx
  | stop f => trivial

/-- One operation after another. -/
theorem Flow.Outputs.andThen {s : State} {x : Flow} {k : State → Flow} (h : x.Outputs s) (hk : ∀ a, (k a).Outputs a) :
    (x.andThen k).Outputs s := by
  cases x with
  | go a => exact (hk a).trans h
  | ended a => exact h
  | stop f => trivial

/-- As an instruction. -/
theorem Flow.Outputs.outcome {s t : State} {x : Flow} (h : x.Outputs s) (hx : x.outcome = .next t) :
    OutputGrows s t ∨ ErrorLeft t := by
  cases x with
  | go a => cases hx; exact .inl h
  | ended a => cases hx; exact h
  | stop f => cases hx

/-- An operation that goes on and leaves the output alone. -/
theorem outputs_go {s t : State} (ob : t.ob = s.ob) (outLen : t.outLen = s.outLen) : (Flow.go t).Outputs s :=
  OutputGrows.of_same ob outLen

/-- Completion with success leaves the output alone. -/
theorem outputs_complete (s : State) : (Flow.ended (complete s)).Outputs s := .inl (.of_same rfl rfl)

/-- `raise` ends the command with an error. -/
theorem outputs_raise (k : ErrKind) (s : State) : (raise k s).Outputs s := .inr (errorEntry_errorLeft k s)

/-- Append. -/
theorem outputs_append (v : Byte) (s : State) : (append v s).Outputs s := by
  unfold append
  split
  · exact outputs_raise _ s
  · exact ⟨[v], appendedAll_appendedTo [v] s⟩

/-- Several appends. -/
theorem outputs_appendAll (bytes : List Byte) (s : State) : (appendAll bytes s).Outputs s := by
  induction bytes generalizing s with
  | nil => exact outputs_go rfl rfl
  | cons v rest ih => exact (outputs_append v s).andThen ih

/-! ### The encoder -/

/-- ENC.SELECT writes the matcher's registers only (`encSelect_sat`). -/
theorem outputs_encSelect {s : State} (dense : s.ib.dense s.inLen) (pos : s.pos ≤ s.inLen) : (encSelect s).Outputs s := by
  have sat := encSelect_sat dense pos fun _ => False
  cases h : encSelect s with
  | go t =>
    rw [h] at sat
    rw [sat.1]
    exact outputs_go rfl rfl
  | ended t => rw [h] at sat; exact sat.elim
  | stop f => trivial

/-- ENC.LIT. -/
theorem outputs_encLit (s : State) : (encLit s).Outputs s := by
  unfold encLit
  split
  · trivial
  · exact outputs_go rfl rfl

/-- ENC.MATCH. -/
theorem outputs_encMatch (s : State) : (encMatch s).Outputs s := by
  unfold encMatch
  split
  · trivial
  · exact outputs_go rfl rfl

/-- Several slots. -/
theorem outputs_emitSlots (sls : List Slot) (s : State) : (emitSlots sls s).Outputs s := by
  rw [emitSlots_eq]
  exact outputs_appendAll _ s

/-- ENC.FLUSH. -/
theorem outputs_encFlush (s : State) : (encFlush s).Outputs s := by
  unfold encFlush
  split
  · exact (outputs_append _ s).andThen fun a => (outputs_emitSlots _ a).andThen fun _ => outputs_go rfl rfl
  · trivial

/-- ENC.PUSH. -/
theorem outputs_encPush (s : State) : (encPush s).Outputs s := by
  have storing : OutputGrows s (stored s) := .of_same rfl rfl
  unfold encPush
  split
  · split
    · exact (outputs_encFlush (stored s)).trans storing
    · exact storing
  · trivial

/-- ENC.END. -/
theorem outputs_encEnd (s : State) : (encEnd s).Outputs s := by
  have flushed : (if 0 < s.gCnt.toNat then encFlush s else .go s).Outputs s := by
    split
    · exact outputs_encFlush s
    · exact outputs_go rfl rfl
  exact flushed.andThen outputs_complete

/-! ### The decoder -/

/-- DEC.CTRL. -/
theorem outputs_decCtrl (s : State) : (decCtrl s).Outputs s := by
  unfold decCtrl
  split
  · exact outputs_complete s
  · split
    · trivial
    · exact outputs_go rfl rfl

/-- A Literal's byte appended. -/
theorem outputs_literalRead (b : Byte) (s : State) : (literalRead b s).Outputs s :=
  (outputs_append b s).andThen fun _ => outputs_go rfl rfl

/-- DEC.LIT. -/
theorem outputs_decLit (s : State) : (decLit s).Outputs s := by
  unfold decLit
  split
  · trivial
  · exact outputs_literalRead _ s

/-- DEC.FETCH_OFF. -/
theorem outputs_decFetchOff (s : State) : (decFetchOff s).Outputs s := by
  unfold decFetchOff
  split
  · exact outputs_complete s
  · split
    · exact outputs_raise _ s
    · split
      · trivial
      · exact outputs_go rfl rfl

/-- DEC.FETCH_LEN. -/
theorem outputs_decFetchLen (s : State) : (decFetchLen s).Outputs s := by
  unfold decFetchLen
  split
  · exact outputs_raise _ s
  · split
    · trivial
    · exact outputs_go rfl rfl

/-- DEC.FETCH_NXT. -/
theorem outputs_decFetchNxt (s : State) : (decFetchNxt s).Outputs s := by
  unfold decFetchNxt
  split
  · exact outputs_raise _ s
  · split
    · trivial
    · exact outputs_go rfl rfl

/-- DEC.CHECK. -/
theorem outputs_decCheck (s : State) : (decCheck s).Outputs s := by
  unfold decCheck
  split
  · exact outputs_raise _ s
  · exact outputs_go rfl rfl

/-- The loop of DEC.COPY. -/
theorem outputs_copyBytes (n : Nat) (s : State) : (copyBytes n s).Outputs s := by
  induction n generalizing s with
  | zero => exact outputs_go rfl rfl
  | succ n ih =>
    unfold copyBytes
    split
    · trivial
    · exact (outputs_append _ s).andThen fun _ => (ih _).trans (.of_same rfl rfl)

/-- DEC.COPY. -/
theorem outputs_decCopy (s : State) : (decCopy s).Outputs s := by
  unfold decCopy
  split
  · exact (outputs_copyBytes _ _).trans (.of_same rfl rfl)
  · trivial

/-- DEC.NEXT. -/
theorem outputs_decNext (s : State) : (decNext s).Outputs s := outputs_append _ s

/-- DEC.BIT where no byte is available. -/
theorem outputs_decBit_empty {s : State} (empty : s.avail = 0) : (decBit s).Outputs s := by
  unfold decBit
  rw [if_pos empty]
  exact outputs_go rfl rfl

/-- Check, copy, append. -/
theorem outputs_replay (s : State) : (replay s).Outputs s :=
  (outputs_decCheck s).andThen fun a => (outputs_decCopy a).andThen outputs_decNext

/-- CTRL, in either direction. -/
theorem outputs_ctrlElement (f : Byte) (s : State) : (ctrlElement f s).Outputs s := by
  unfold ctrlElement
  split
  · exact outputs_append f s
  · exact outputs_go rfl rfl

/-- MATCH. -/
theorem outputs_matchElement (off len : Half) (nxt : Byte) (s : State) : (matchElement off len nxt s).Outputs s :=
  (outputs_replay (nextRead nxt (lengthRead len (offsetRead off s)))).trans (.of_same rfl rfl)

/-! ## What a running core runs -/

/-- The instruction is one operation of the core. It writes neither the input nor the host's side; and it only appends to
the output, unless there is none yet, where it may be the one that begins a command (ENC.START, DEC.START, or a whole run). -/
def RunsOperation (i : Instr) (s : State) : Prop :=
  ∃ x : Flow, exec i s = x.outcome ∧ x.Keeps s ∧ (Inv s → s.outLen ≠ 0 → x.Outputs s)

/-- What is read at a boundary of the stream is a control byte, a Literal or a Match (R68). -/
theorem decode_boundary {o : Order} {c : Ctx} {bytes rest : List Byte} {i : Instr}
    (hc : c = .group ∨ ∃ m, c = .token m) (h : decode o c bytes = .ok (i, rest)) :
    (∃ f, i = .ctrl f) ∨ (∃ b, i = .lit b) ∨ ∃ off len nxt, i = .matchTok off len nxt := by
  obtain rfl | ⟨m, rfl⟩ := hc
  · cases bytes with
    | nil => cases h
    | cons f _ => cases h; exact .inl ⟨f, rfl⟩
  · cases m with
    | false =>
      cases bytes with
      | nil => cases h
      | cons b _ => cases h; exact .inr (.inl ⟨b, rfl⟩)
    | true =>
      simp only [decode] at h
      unfold decodeMatch at h
      split at h
      · cases h
      · cases h; exact .inr (.inr ⟨_, _, _, rfl⟩)
      · cases h

/-- An element of the stream, the end of the stream, or a Match cut off. -/
theorem fetchElement_runs {c : Ctx} {s : State} {i : Instr} (hc : c = .group ∨ ∃ m, c = .token m)
    (h : fetchElement c s = .ok i) : RunsOperation i s := by
  have clean : RunsOperation .decEnd s := ⟨decEnd s, rfl, rfl, fun _ _ => outputs_complete s⟩
  unfold fetchElement at h
  split at h
  · cases h; exact clean
  · split at h
    · cases h
    · split at h
      next j _ hd =>
        cases h
        obtain ⟨f, rfl⟩ | ⟨b, rfl⟩ | ⟨off, len, nxt, rfl⟩ := decode_boundary hc hd
        · exact ⟨_, rfl, keeps_ctrlElement f s, fun _ _ => outputs_ctrlElement f s⟩
        · exact ⟨_, rfl, keeps_literalRead b s, fun _ _ => outputs_literalRead b s⟩
        · exact ⟨_, rfl, keeps_matchElement off len nxt s, fun _ _ => outputs_matchElement off len nxt s⟩
      next => cases h; exact ⟨_, rfl, keeps_raise _ s, fun _ _ => outputs_raise _ s⟩
      next => cases h; exact clean
      next => cases h
      next => cases h
      next => cases h

/-- At a group boundary. -/
theorem selectAtGroup_runs {s : State} {i : Instr} (h : selectAtGroup s = .ok i) : RunsOperation i s := by
  unfold selectAtGroup at h
  split at h
  next => cases h; exact ⟨_, rfl, keeps_decCtrl s, fun _ _ => outputs_decCtrl s⟩
  next => exact fetchElement_runs (.inl rfl) h
  next => exact fetchElement_runs (.inl rfl) h

/-- At a token boundary. -/
theorem selectAtToken_runs {s : State} {i : Instr} (h : selectAtToken s = .ok i) : RunsOperation i s := by
  unfold selectAtToken at h
  split at h
  · cases h
  · split at h
    next =>
      split at h
      next empty => cases h; exact ⟨_, rfl, keeps_decBit s, fun _ _ => outputs_decBit_empty empty⟩
      next =>
        split at h
        · cases h; exact ⟨_, rfl, keeps_decFetchOff s, fun _ _ => outputs_decFetchOff s⟩
        · cases h; exact ⟨_, rfl, keeps_decLit s, fun _ _ => outputs_decLit s⟩
    next => exact fetchElement_runs (.inr ⟨_, rfl⟩) h
    next => exact fetchElement_runs (.inr ⟨_, rfl⟩) h

/-- An operation of the encoder or of the decoder. -/
theorem byDirection_runs {e d i : Instr} {s : State} (he : RunsOperation e s) (hd : RunsOperation d s)
    (h : byDirection e d s = .ok i) : RunsOperation i s := by
  unfold byDirection at h
  split at h
  · cases h; exact he
  · split at h
    · cases h; exact hd
    · cases h

/-- Whatever the sequencer selects is one operation of the core. -/
theorem selectInstr_runs {s : State} {i : Instr} (h : selectInstr s = .ok i) : RunsOperation i s := by
  unfold selectInstr at h
  split at h
  next => cases h
  next place =>
    have empty (inv : Inv s) : s.outLen = 0 := by simpa only [State.placeOk, place] using inv.place
    exact byDirection_runs ⟨_, rfl, keeps_encRun s, fun inv ne => absurd (empty inv) ne⟩
      ⟨_, rfl, keeps_decRun s, fun inv ne => absurd (empty inv) ne⟩ h
  next place =>
    have empty (inv : Inv s) : s.outLen = 0 := by simpa only [State.placeOk, place] using inv.place
    exact byDirection_runs ⟨_, rfl, keeps_encStart s, fun inv ne => absurd (empty inv) ne⟩
      ⟨decStart s, rfl, rfl, fun inv ne => absurd (empty inv) ne⟩ h
  next =>
    split at h
    next more =>
      cases h
      exact ⟨_, rfl, keeps_encSelect s, fun inv _ => outputs_encSelect inv.ibDense (Nat.le_of_lt more)⟩
    next => cases h; exact ⟨_, rfl, keeps_encEnd s, fun _ _ => outputs_encEnd s⟩
  next =>
    split at h
    · cases h; exact ⟨_, rfl, keeps_encMatch s, fun _ _ => outputs_encMatch s⟩
    · cases h; exact ⟨_, rfl, keeps_encLit s, fun _ _ => outputs_encLit s⟩
  next => cases h; exact ⟨_, rfl, keeps_encPush s, fun _ _ => outputs_encPush s⟩
  next => exact selectAtGroup_runs h
  next => exact selectAtToken_runs h
  next => cases h; exact ⟨_, rfl, keeps_decFetchLen s, fun _ _ => outputs_decFetchLen s⟩
  next => cases h; exact ⟨_, rfl, keeps_decFetchNxt s, fun _ _ => outputs_decFetchNxt s⟩
  next => cases h; exact ⟨_, rfl, keeps_decCheck s, fun _ _ => outputs_decCheck s⟩
  next => cases h; exact ⟨_, rfl, keeps_decCopy s, fun _ _ => outputs_decCopy s⟩
  next => cases h; exact ⟨_, rfl, keeps_decNext s, fun _ _ => outputs_decNext s⟩

/-! ## The step of a busy core -/

/-- The sequencer moves on behind the host's view. -/
theorem advance_hostView (i : Instr) (s : State) : (advance i s).hostView = s.hostView := by
  unfold advance
  split
  · cases i <;> rfl
  · rfl

/-- One instruction of a running core: one operation, after which the sequencer has moved on. -/
theorem runStep_next {s t : State} (h : runStep s = .next t) :
    ∃ (u : State) (x : Flow), x.outcome = .next u ∧ t.hostView = u.hostView ∧ x.Keeps s ∧ (Inv s → s.outLen ≠ 0 → x.Outputs s) := by
  unfold runStep at h
  split at h
  · cases h
  next i hi =>
    obtain ⟨x, hx, keeps, outputs⟩ := selectInstr_runs hi
    rw [hx] at h
    split at h
    next u hu => cases h; exact ⟨u, x, hu, advance_hostView i u, keeps, outputs⟩
    · cases h
    · cases h

/-- While BUSY = 1, an operation that is accepted only while BUSY = 0 is refused (R150). -/
theorem whenReady_busy {s : State} (busy : s.busy = true) (k : State → Host.Outcome State Fault Refusal) :
    whenReady k s = .next (refuseHost s) := if_pos busy

/-- While BUSY = 1, a host operation changes nothing that the host can see (R150, R151). -/
theorem host_busy_hostView {o : HostOp} {s t : State} (busy : s.busy = true) (h : exec o.instr s = .next t) :
    t.hostView = s.hostView := by
  have refused {k} (e : whenReady k s = .next t) : t.hostView = s.hostView := by
    rw [whenReady_busy busy] at e
    cases e; rfl
  cases o with
  | load bytes => exact refused (show execHostLoad bytes s = .next t from h)
  | cmd v =>
    simp only [HostOp.instr, exec, execHostCmd] at h
    split at h
    · exact refused h
    · split at h
      · exact refused h
      · split at h
        · exact refused h
        · exact refused h
  | poll => cases h; rfl
  | read a => exact refused (show execHostRead a s = .next t from h)

/-- Who moves in a step of a busy core that is not a reset: the core runs one instruction, or the host makes an operation. -/
theorem step_busy {s t : State} (busy : s.busy = true) (noReset : s.notResetNext) (h : step s = .next t) :
    ∃ rest, runStep { s with inputs := rest } = .next t ∨ ∃ o : HostOp, exec o.instr { s with inputs := rest } = .next t := by
  have core {r : List Input} (e : coreStep { s with inputs := r } = .next t) : runStep { s with inputs := r } = .next t := by
    rwa [coreStep, if_pos (show State.busy { s with inputs := r } = true from busy)] at e
  unfold step at h
  split at h
  next => exact ⟨s.inputs, .inl (core h)⟩
  next rest _ => exact ⟨rest, .inl (core h)⟩
  next => rw [if_pos busy] at h; exact ⟨s.inputs, .inl (core h)⟩
  next rest hr => exact absurd hr (noReset rest)
  next o rest _ => exact ⟨rest, .inr ⟨o, h⟩⟩

/-! ## The input -/

/-- The input is among what no operation of the core writes. -/
theorem input_of_kept {s t : State} (h : t.kept = s.kept) : t.ib = s.ib ∧ t.inLen = s.inLen := by
  simp only [State.kept, Prod.mk.injEq] at h
  obtain ⟨-, -, ib, inLen, -⟩ := h
  exact ⟨ib, inLen⟩

/-- It is among what the host sees. -/
theorem input_of_hostView {s t : State} (h : t.hostView = s.hostView) : t.ib = s.ib ∧ t.inLen = s.inLen :=
  ⟨congrArg HostView.ib h, congrArg HostView.inLen h⟩

/-- Settles O6: what a running core runs is an operation that keeps the input (`runStep_next`), and the host's operations
are refused or only read. -/
theorem runningStepKeepsTheInput : Obligations.RunningStepKeepsTheInput := by
  intro s t busy noReset h
  obtain ⟨rest, run | ⟨o, host⟩⟩ := step_busy busy noReset h
  · obtain ⟨u, x, hx, view, keeps, -⟩ := runStep_next run
    obtain ⟨ib, inLen⟩ := input_of_hostView view
    obtain ⟨ib', inLen'⟩ := input_of_kept (keeps.outcome hx)
    exact ⟨ib.trans ib', inLen.trans inLen'⟩
  · exact input_of_hostView (s := { s with inputs := rest }) (host_busy_hostView busy host)

/-! ## The output -/

/-- The output is among what the host sees. -/
theorem OutputGrows.of_hostView {s t : State} (h : t.hostView = s.hostView) : OutputGrows s t :=
  .of_same (congrArg HostView.ob h) (congrArg HostView.outLen h)

/-- So is an error. -/
theorem ErrorLeft.of_hostView {s t : State} (h : t.hostView = s.hostView) (hs : ErrorLeft s) : ErrorLeft t := by
  simp only [State.hostView, HostView.mk.injEq] at h
  obtain ⟨-, status, errCode, -, outLen, -, -⟩ := h
  rwa [ErrorLeft, status, errCode, outLen]

/-- Settles O7. Where there is no output yet, any output that the invariant allows is appended to nothing. Where there is
one, the operation that runs only appends to it or raises (`runStep_next`), and the host's operations leave it alone. -/
theorem runningStepOnlyAppendsOutput : Obligations.RunningStepOnlyAppendsOutput := by
  intro s t inv busy noReset h
  by_cases empty : s.outLen = 0
  · exact .inl (OutputGrows.of_empty inv.obDense (stepKeepsTheInvariant s t inv h).obDense empty)
  obtain ⟨rest, run | ⟨o, host⟩⟩ := step_busy busy noReset h
  · obtain ⟨u, x, hx, view, -, outputs⟩ := runStep_next run
    have queue : OutputGrows s { s with inputs := rest } := .of_same rfl rfl
    obtain grows | failed := ((outputs (inv.inputs rest) empty).trans queue).outcome hx
    · exact .inl (grows.trans (.of_hostView view))
    · exact .inr (failed.of_hostView view)
  · exact .inl (OutputGrows.of_hostView (s := s) (host_busy_hostView (s := { s with inputs := rest }) busy host))

end Sys2Proof.Machine

/-! The statements of 30_encoding.md about the bytes of an instruction: which bytes stand for it in which context (R62 to R66),
what the step after `withFetchWord` runs, and what the elements of the stream do as instructions (R64, R65, R75). -/

namespace Sys2Proof.Machine

/-! ## The encodings, said once -/

/-- These bytes stand for the instruction in this context (R62 to R66): what `encode` writes of a well-formed instruction
(`encode_iff`), and what `decode` reads (`decode_iff`). -/
inductive Encodes (o : Order) : Instr → Ctx → List Byte → Prop
  | ctrl (f : Byte) : Encodes o (.ctrl f) .group [f]
  | lit (b : Byte) : Encodes o (.lit b) (.token false) [b]
  | matchTok (off len : Half) (nxt : Byte) :
      Encodes o (.matchTok off len nxt) (.token true) (u16Bytes o off ++ u16Bytes o len ++ [nxt])
  | slot (off len : Half) (byte : Byte) (wf : wellFormedSlot off len = true) :
      Encodes o (.slot off len byte) .slot (byte :: (u16Bytes .le len ++ u16Bytes .le off))
  | command (v : BitVec 2) : Encodes o (decodeCommand v) .command [v.setWidth 8]

/-- The encoder writes these bytes and no others. -/
theorem encode_iff {o : Order} {i : Instr} {c : Ctx} {bytes : List Byte} :
    (i.wellFormed = true ∧ encode o i = some (c, bytes)) ↔ Encodes o i c bytes := by
  constructor
  · rintro ⟨wf, h⟩
    cases i with
    | ctrl f => cases h; exact .ctrl f
    | lit b => cases h; exact .lit b
    | matchTok off len nxt => cases h; exact .matchTok off len nxt
    | slot off len byte => cases h; exact .slot off len byte wf
    | nop => cases h; exact .command 0
    | encode => cases h; exact .command 1
    | decode => cases h; exact .command 2
    | reserved => cases h; exact .command 3
    | _ => cases h
  · intro h
    cases h with
    | ctrl | lit | matchTok => exact ⟨rfl, rfl⟩
    | slot _ _ _ wf => exact ⟨wf, rfl⟩
    | command v => revert v; cases o <;> decide

/-- A command byte is the 2-bit value of CMD (R66). -/
theorem setWidth_extractLsb_of_lt_four {b : Byte} (h : b.toNat < 4) : (b.extractLsb' 0 2).setWidth 8 = b := by
  apply BitVec.eq_of_toNat_eq
  simp only [BitVec.toNat_setWidth, BitVec.extractLsb'_toNat, Nat.shiftRight_zero]
  omega

/-- What is read in a context stands there. -/
theorem encodes_of_decode {o : Order} {c : Ctx} {bytes rest : List Byte} {i : Instr}
    (h : decode o c bytes = .ok (i, rest)) : ∃ read, Encodes o i c read ∧ bytes = read ++ rest := by
  unfold decode at h
  split at h
  next =>
    split at h
    · cases h
    · split at h
      next small =>
        cases h
        exact ⟨_, .command _, by rw [setWidth_extractLsb_of_lt_four small]; rfl⟩
      · cases h
  next =>
    split at h
    · cases h
    · cases h; exact ⟨_, .ctrl _, rfl⟩
  next =>
    split at h
    · cases h
    · cases h; exact ⟨_, .lit _, rfl⟩
  next =>
    unfold decodeMatch at h
    split at h
    · cases h
    · cases h; exact ⟨_, .matchTok _ _ _, by simp only [u16_back]; rfl⟩
    · cases h
  next =>
    unfold decodeSlot at h
    split at h
    next b l0 l1 o0 o1 _ =>
      split at h
      next wf =>
        cases h
        have len : u16Bytes .le (l1 ++ l0) = [l0, l1] := u16_back .le l0 l1
        have off : u16Bytes .le (o1 ++ o0) = [o0, o1] := u16_back .le o0 o1
        exact ⟨_, .slot _ _ b wf, by rw [len, off]; rfl⟩
      · cases h
    · cases h

/-- What stands in a context is read there, whatever follows it. -/
theorem Encodes.decode_append {o : Order} {i : Instr} {c : Ctx} {read : List Byte} (h : Encodes o i c read)
    (rest : List Byte) : decode o c (read ++ rest) = .ok (i, rest) := by
  cases h with
  | ctrl | lit => rfl
  | matchTok off len nxt =>
    obtain ⟨l0, l1, hl, hlen⟩ := u16_round o len (nxt :: rest)
    obtain ⟨o0, o1, ho, hoff⟩ := u16_round o off (l0 :: l1 :: nxt :: rest)
    simp only [List.append_assoc, List.cons_append, List.nil_append, hl, ho, decode, decodeMatch, hlen, hoff]
  | slot off len byte wf =>
    obtain ⟨o0, o1, ho, hoff⟩ := u16_round .le off rest
    obtain ⟨l0, l1, hl, hlen⟩ := u16_round .le len (o0 :: o1 :: rest)
    simp only [u16Of] at hoff hlen
    simp only [List.append_assoc, List.cons_append, hl, ho, decode, decodeSlot, hlen, hoff, wf, if_true]
  | command v =>
    have fits : (v.setWidth 8).toNat < 4 := by rw [BitVec.toNat_setWidth]; omega
    have back : (v.setWidth 8).extractLsb' 0 2 = v := by revert v; decide
    simp only [List.cons_append, List.nil_append, decode, fits, if_true, back]

/-- The decoder reads these bytes and no others. -/
theorem decode_iff {o : Order} {c : Ctx} {bytes rest : List Byte} {i : Instr} :
    decode o c bytes = .ok (i, rest) ↔ ∃ read, Encodes o i c read ∧ bytes = read ++ rest := by
  constructor
  · exact encodes_of_decode
  · rintro ⟨read, h, rfl⟩
    exact h.decode_append rest

/-- Settles O10: what the encoder writes of a well-formed instruction stands for it, and so is read back. -/
theorem decodeOfEncodeIsTheInstruction : Obligations.DecodeOfEncodeIsTheInstruction :=
  fun _ _ _ _ rest wf h => (encode_iff.1 ⟨wf, h⟩).decode_append rest

/-- Settles O11: what is read stands for the instruction, and so is what the encoder writes of it. -/
theorem encodeOfDecodeIsTheBytes : Obligations.EncodeOfDecodeIsTheBytes := by
  intro o c bytes rest i h
  obtain ⟨read, stands, split⟩ := decode_iff.1 h
  obtain ⟨wf, written⟩ := encode_iff.2 stands
  exact ⟨wf, read, written, split⟩

/-- Settles O12, each word by running the decoder on it. -/
theorem specWordsDecode : Obligations.SpecWordsDecode := by
  unfold Obligations.SpecWordsDecode
  decide

/-- The bytes of a token by its offset: offset 0 is a Literal (R65, R106). -/
theorem tokenBytes_eq (o : Order) (off len : Half) (byte : Byte) :
    tokenBytes o ⟨off, len, byte⟩ = if off = 0 then [byte] else u16Bytes o off ++ u16Bytes o len ++ [byte] := by
  simp only [tokenBytes, isMatch, bne_iff_ne, ite_not]

/-- A field as a number, in either byte order (R45). -/
theorem u16Of_toNat (o : Order) (b0 b1 : Byte) :
    (u16Of o b0 b1).toNat = match o with | .le => b0.toNat + 256 * b1.toNat | .be => 256 * b0.toNat + b1.toNat := by
  cases o with
  | le => exact u16_nat b1 b0
  | be => exact (u16_nat b0 b1).trans (Nat.add_comm _ _)

/-- Settles O13: the fields are those that the decoder forms of the bytes, and written again they are the bytes. -/
theorem matchFieldsHaveTheirByteOrder : Obligations.MatchFieldsHaveTheirByteOrder := by
  intro o b0 b1 b2 b3 b4
  refine ⟨u16Of o b0 b1, u16Of o b2 b3, u16Of_toNat o b0 b1, u16Of_toNat o b2 b3, rfl, ?_⟩
  rw [tokenBytes_eq, u16_back, u16_back]
  rfl


/-! ## Placing an element and fetching it -/

/-- The bytes that an element takes in its context. -/
theorem Encodes.length {o : Order} {i : Instr} {c : Ctx} {bytes : List Byte} (h : Encodes o i c bytes) :
    bytes.length = elementSize c := by
  cases h with
  | ctrl | lit | command => rfl
  | matchTok | slot => simp [Laws.Size.u16Bytes_length, elementSize]

/-- The byte order changes the bytes of an instruction, not its context. -/
theorem Encodes.reorder {o : Order} {i : Instr} {c : Ctx} {bytes : List Byte} (h : Encodes o i c bytes) (o' : Order) :
    ∃ bytes', Encodes o' i c bytes' := by
  cases h with
  | ctrl f => exact ⟨_, .ctrl f⟩
  | lit b => exact ⟨_, .lit b⟩
  | matchTok off len nxt => exact ⟨_, .matchTok off len nxt⟩
  | slot off len byte wf => exact ⟨_, .slot off len byte wf⟩
  | command v => exact ⟨_, .command v⟩

/-- Placing leaves RP alone. -/
@[simp] theorem placeBytes_rp (bytes : List Byte) (a : Nat) (s : State) : (placeBytes bytes a s).rp = s.rp := by
  induction bytes generalizing a s with
  | nil => rfl
  | cons b rest ih => exact ih (a + 1) { s with ib := s.ib.write a b, inLen := max s.inLen (a + 1) }

/-- Placing from an index on leaves the bytes below it readable. -/
theorem readIB_placeBytes_below (bytes : List Byte) {a x : Nat} {v : Byte} {s : State} (below : x < a)
    (h : s.readIB x = some v) : (placeBytes bytes a s).readIB x = some v := by
  induction bytes generalizing a s with
  | nil => exact h
  | cons b rest ih =>
    refine ih (Nat.lt_succ_of_lt below) ?_
    have valid := readIB_lt h
    have long : x < max s.inLen (a + 1) := by omega
    simp only [State.readIB, valid, if_true] at h
    simpa only [State.readIB, long, if_true, Memory.read_write_other _ _ (Nat.ne_of_lt below)] using h

/-- The placed bytes are fetched back. -/
theorem fetchBytes_placeBytes (bytes : List Byte) (a : Nat) (s : State) :
    fetchBytes bytes.length a (placeBytes bytes a s) = some bytes := by
  induction bytes generalizing a s with
  | nil => rfl
  | cons b rest ih =>
    have head : (placeBytes (b :: rest) a s).readIB a = some b :=
      readIB_placeBytes_below rest (Nat.lt_succ_self a) (by simp [State.readIB])
    simp only [List.length_cons, fetchBytes, head]
    simp only [placeBytes, ih]

/-- What is fetched depends on IB and IN_LEN alone. -/
theorem fetchBytes_congr {s t : State} (ib : t.ib = s.ib) (inLen : t.inLen = s.inLen) (n a : Nat) :
    fetchBytes n a t = fetchBytes n a s := by
  induction n generalizing a with
  | zero => rfl
  | succ n ih => simp only [fetchBytes, State.readIB, ib, inLen, ih]

/-- Fetched bytes lie below IN_LEN. -/
theorem fetchBytes_bound {n a : Nat} {s : State} {bytes : List Byte} (h : fetchBytes (n + 1) a s = some bytes) :
    a + (n + 1) ≤ s.inLen := by
  induction n generalizing a bytes with
  | zero =>
    cases hb : s.readIB a with
    | none => simp [fetchBytes, hb] at h
    | some b => exact readIB_lt hb
  | succ n ih =>
    unfold fetchBytes at h
    split at h
    · cases h
    · split at h
      · cases h
      next more => have := ih more; omega

/-- An element whose bytes stand at RP is the one that is fetched. -/
theorem fetchElement_of_encodes {c : Ctx} {s : State} {i : Instr} {bytes : List Byte}
    (stands : Encodes s.cfg.order i c bytes) (fetched : fetchBytes (elementSize c) s.rp s = some bytes) :
    fetchElement c s = .ok i := by
  obtain ⟨n, size⟩ : ∃ n, elementSize c = n + 1 := by
    cases stands with
    | ctrl | lit | matchTok | slot | command => exact ⟨_, rfl⟩
  rw [size] at fetched
  have bound := fetchBytes_bound fetched
  have avail : n + 1 ≤ s.avail := by unfold State.avail; omega
  have read : decode s.cfg.order c bytes = .ok (i, []) := by simpa using stands.decode_append []
  unfold fetchElement
  rw [if_neg (by omega), size, Nat.min_eq_right avail]
  simp only [fetched, read]

/-- A placed element is the one that is fetched, wherever the rest of the core stands. -/
theorem fetchElement_of_placed {c : Ctx} {s t : State} {i : Instr} {bytes : List Byte}
    (stands : Encodes s.cfg.order i c bytes) (order : t.cfg.order = s.cfg.order) (rp : t.rp = s.rp)
    (ib : t.ib = (placeBytes bytes s.rp s).ib) (inLen : t.inLen = (placeBytes bytes s.rp s).inLen) :
    fetchElement c t = .ok i := by
  refine fetchElement_of_encodes (bytes := bytes) (order ▸ stands) ?_
  rw [rp, fetchBytes_congr ib inLen, ← stands.length, fetchBytes_placeBytes]

/-- At the placed group boundary the placed element is selected. -/
theorem selectInstr_placeAt_group {s : State} {i : Instr} {bytes : List Byte}
    (stands : Encodes s.cfg.order i .group bytes) : selectInstr (placeAt .group bytes s) = .ok i :=
  fetchElement_of_placed stands rfl (placeBytes_rp bytes s.rp s) rfl rfl

/-- At the placed token boundary the control bit that is placed too selects the placed element. -/
theorem selectInstr_placeAt_token {s : State} {i : Instr} {m : Bool} {bytes : List Byte}
    (stands : Encodes s.cfg.order i (.token m) bytes) : selectInstr (placeAt (.token m) bytes s) = .ok i := by
  have selected : selectInstr (placeAt (.token m) bytes s) = fetchElement (.token m) (placeAt (.token m) bytes s) := by
    cases m <;> simp [selectInstr, placeAt, placeElement, selectAtToken, controlBit]
  rw [selected]
  exact fetchElement_of_placed stands rfl (placeBytes_rp bytes s.rp s) rfl rfl

/-- The core is busy while STATUS is 001 (R12). -/
theorem busy_of_running {s : State} (running : s.status = statusRunning) : s.busy = true := by
  rw [State.busy, running]
  exact status_bits_busy.2.1

/-- The step of a running core with no pending move runs what is selected, and the sequencer moves on. -/
theorem step_of_selectInstr {s : State} {i : Instr} (busy : s.busy = true) (quiet : s.inputs = [])
    (selected : selectInstr s = .ok i) : step s = advanced i (exec i s) := by
  simp only [step, quiet, coreStep, busy, if_true, runStep, selected]
  cases exec i s <;> rfl

/-- A write of CMD runs the command that the value encodes (R66). -/
theorem exec_hostCmd (v : BitVec 2) (s : State) : exec (.hostCmd v) s = exec (decodeCommand v) s := by
  simp only [exec, execHostCmd, decodeCommand]
  split_ifs <;> rfl

/-- The step after placing runs the placed instruction: a command as the host's move, an element as the core's. -/
theorem step_placeAt {s : State} {i : Instr} {c : Ctx} {bytes : List Byte} (stands : Encodes s.cfg.order i c bytes)
    (placed : c ≠ .slot) :
    step (placeAt c bytes s) = exec i { placeAt c bytes s with inputs := [] } ∨
      step (placeAt c bytes s) = advanced i (exec i (placeAt c bytes s)) := by
  cases stands with
  | command v =>
    have value : ([v.setWidth 8].headD 0).extractLsb' 0 2 = v := by revert v; decide
    left
    simp only [placeAt, value]
    exact exec_hostCmd v _
  | slot => exact absurd rfl placed
  | ctrl f => exact .inr (step_of_selectInstr (busy_of_running rfl) rfl (selectInstr_placeAt_group (.ctrl f)))
  | lit b => exact .inr (step_of_selectInstr (busy_of_running rfl) rfl (selectInstr_placeAt_token (.lit b)))
  | matchTok off len nxt =>
    exact .inr (step_of_selectInstr (busy_of_running rfl) rfl (selectInstr_placeAt_token (.matchTok off len nxt)))

/-- A table word that decodes stands for its instruction, and is not read as a slot (log 16). -/
theorem encodes_of_decodeTableWord {nbits w : Nat} {i : Instr} (h : decodeTableWord nbits w = some i) :
    ∃ c bytes, Encodes .le i c bytes ∧ c ≠ .slot := by
  unfold decodeTableWord at h
  split at h
  · cases h
  next c hc =>
    split at h
    next hd =>
      cases h
      obtain ⟨read, stands, -⟩ := decode_iff.1 hd
      refine ⟨c, read, stands, ?_⟩
      rintro rfl
      unfold tableContext at hc
      split_ifs at hc <;> cases hc
    · cases h

/-- Settles O9: the word's instruction has bytes in the byte order of the configuration too, and those are placed. -/
theorem fetchWordIsRunNext : Obligations.FetchWordIsRunNext := by
  intro s nbits w i h
  obtain ⟨c, _, word, placed⟩ := encodes_of_decodeTableWord h
  obtain ⟨bytes, stands⟩ := word.reorder s.cfg.order
  have written := (encode_iff.2 stands).2
  have place : s.withFetchWord nbits w = placeAt c bytes s := by simp only [State.withFetchWord, h, written]
  rw [place]
  exact step_placeAt stands placed

/-! ## Elements of the stream -/

/-- Bytes that fit are appended, and nothing else changes (R42). -/
theorem appendAll_outcome {bytes : List Byte} {s : State} (room : s.roomFor bytes.length = true) :
    ∃ t, (appendAll bytes s).outcome = .next t ∧ AppendedTo bytes s t ∧ t = { s with ob := t.ob, outLen := t.outLen } := by
  refine ⟨appendedAll bytes s, by rw [appendAll_room room, Flow.outcome_go], appendedAll_appendedTo bytes s, ?_⟩
  rw [appendedAll_outLen]
  exact appendedAll_eq bytes s

/-- Settles O45, by the direction that CMD gives (log 13). -/
theorem controlElementIsReadOrWritten : Obligations.ControlElementIsReadOrWritten := by
  refine fun f s => ⟨fun reading => ?_, fun writing room => ?_⟩
  · have direction : s.encoding = false := by simpa [State.encoding] using reading
    simp only [exec, execCtrl, ctrlElement, direction]
    rfl
  · have direction : s.encoding = true := by simpa [State.encoding] using writing
    simp only [exec, execCtrl, ctrlElement, direction, if_true, append_eq_appendAll]
    exact appendAll_outcome room

/-- Settles O48: the bytes of the slot's token, appended (log 14). -/
theorem slotElementIsSerialised : Obligations.SlotElementIsSerialised := by
  intro off len byte s bytes token room
  rw [← tokenBytes_eq] at token
  subst token
  exact appendAll_outcome room

/-- Settles O47: DEC.CHECK rejects the offset (`decCheck_bad`), or the replay fits (`matchElement_room`). -/
theorem matchElementReplaysOrIsInvalid : Obligations.MatchElementReplaysOrIsInvalid := by
  refine fun off len nxt s => ⟨fun bad => ?_, fun dense nonzero legal room => ?_⟩
  · refine ⟨errorEntry .invalidOffset (nextRead nxt (lengthRead len (offsetRead off s))), ?_, ?_⟩
    · have rejected := decCheck_bad (s := nextRead nxt (lengthRead len (offsetRead off s))) bad
      simp only [exec, execMatchTok, matchElement, replay, rejected]
      rfl
    · exact errorEntry_entered .invalidOffset s _ (by constructor <;> rfl)
  · obtain ⟨t, copied, run, rest⟩ := matchElement_room (nb := nxt) dense nonzero legal room
    exact ⟨t, copied, by simp only [exec, execMatchTok, run, Flow.outcome_go], rest⟩

/-- RUN's two tokens where they fit: a Literal, then a Match of offset 1 that copies it (R75). -/
theorem runTokens_room {b : Byte} {len : Half} {s : State} (dense : s.ob.dense s.outLen)
    (room : s.roomFor (len.toNat + 2) = true) :
    ∃ t, (literalRead b s).andThen (matchElement 1 len b) = .go t ∧ AppendedTo (List.replicate (len.toNat + 2) b) s t ∧
      t = { s with
        ob := t.ob, outLen := t.outLen, rp := s.rp + 6, dOff := 1, dLen := len, dNxt := b, dSrc := t.dSrc, dRem := t.dRem } := by
  have literal := literal_room (b := b) (roomFor_mono (by omega) room)
  obtain ⟨t, copied, run, replayed, length, cyclic, frame⟩ :=
    matchElement_room (s := { appended b s with rp := s.rp + 1 }) (off := 1) (len := len) (nb := b)
      (Memory.dense_write dense b) (by decide) (by show 1 ≤ s.outLen + 1; omega)
      ((roomFor_appended s b _).trans room)
  have same : copied = List.replicate len.toNat b := by
    refine List.ext_getElem? fun j => ?_
    by_cases hj : j < len.toNat
    · rw [cyclic j hj, List.getElem?_replicate_of_lt hj]
      simp [Nat.mod_one]
    · rw [List.getElem?_eq_none (by omega), List.getElem?_eq_none (by simp; omega)]
  have first : AppendedTo [b] s { appended b s with rp := s.rp + 1 } := appendedTo_of rfl rfl
  refine ⟨t, by rw [literal, Flow.go_andThen, run], ?_, frame⟩
  have all := first.trans replayed
  rwa [same, ← List.replicate_succ', ← List.replicate_one, List.replicate_append_replicate, Nat.add_comm] at all

/-- Settles O49: the two tokens repeat the byte (`runTokens_room`); with any other `n` there is no such Match (log 15). -/
theorem runPseudoFormRepeatsItsByte : Obligations.RunPseudoFormRepeatsItsByte := by
  refine fun b n s => ⟨fun dense two fits room => ?_, fun outside => ?_⟩
  · have wf : wellFormedRun n = true := by simp [wellFormedRun, two, fits]
    have length : (BitVec.ofNat 16 (n - 2)).toNat + 2 = n := by rw [BitVec.toNat_ofNat]; omega
    obtain ⟨t, run, appends, frame⟩ := runTokens_room (b := b) (len := BitVec.ofNat 16 (n - 2)) dense (length.symm ▸ room)
    rw [length] at appends
    exact ⟨t, by simp only [exec, execRun, wf, if_true, run, Flow.outcome_go], appends, frame⟩
  · have wf : wellFormedRun n = false := by simp [wellFormedRun]; omega
    simp only [exec, execRun, wf]
    rfl

end Sys2Proof.Machine

/-! The statements of 40_matcher.md: what each operation of the matcher writes, and what MAT.FIND's result means. -/

namespace Sys2Proof.Machine

/-! ## MAT.FIND (R80) -/

/-- Settles O18: the scan is a fold over its candidates, oldest first (`matFind_fold`), and that fold is the closed form
(`fold_eq_refFind`). -/
theorem findReturnsTheClosedForm : Obligations.FindReturnsTheClosedForm := by
  intro s dense inside
  obtain ⟨t, run, frame, result⟩ := matFind_fold dense inside
  refine ⟨t, congrArg Flow.outcome run, by rw [frame], ?_⟩
  rw [result, fold_eq_refFind]

/-- Whatever state MAT.FIND leaves holds the closed form's pair. -/
theorem matFind_result {s t : State} (dense : s.ib.dense s.inLen) (inside : s.pos ≤ s.inLen)
    (run : exec .matFind s = .next t) :
    (t.mBoff.toNat, t.mBlen.toNat) = refFind s.ib.bytes s.pos s.cfg.windowSize.val s.cfg.lookaheadSize.val := by
  obtain ⟨u, run', -, result⟩ := findReturnsTheClosedForm s dense inside
  cases run.symm.trans run'
  exact result

/-- Settles O19: the closed form's pair is within these bounds (`refFind_spec`). -/
theorem foundMatchIsWithinBounds : Obligations.FoundMatchIsWithinBounds := by
  intro s t dense inside run found
  have bounds := refFind_spec s.ib.bytes s.pos s.cfg.windowSize.val s.cfg.lookaheadSize.val
  rw [← matFind_result dense inside run, Memory.bytes_length dense] at bounds
  simpa only [readIB_eq dense] using bounds (Nat.ne_of_gt found)

/-! ## When nothing is found (R85) -/

/-- No byte is allowed to a candidate before `pos` exactly when the look-ahead or the rest of the input is empty. -/
theorem refMaxLen_zero {b : List Byte} {pos l i : Nat} (before : i < pos) (inside : pos ≤ b.length) :
    refMaxLen b pos l i = 0 ↔ l = 0 ∨ pos = b.length := by
  unfold refMaxLen
  omega

/-- The best length is 0 exactly when that of every candidate in the window is. -/
theorem refBest_zero {b : List Byte} {pos w l : Nat} :
    refBest b pos w l = 0 ↔ ∀ i, pos - w ≤ i → i < pos → refLen b pos l i = 0 := by
  have range (i : Nat) : i ∈ refCandidates pos w ↔ pos - w ≤ i ∧ i < pos := by
    rw [refCandidates, List.mem_range'_1]; omega
  simp only [refBest, foldl_max_pos, true_and, List.forall_mem_map, range, and_imp]

/-- The closed form is `(0, 0)` exactly when there is no candidate, no room, or no byte in the window that matches. -/
theorem refFind_zero_iff {b : List Byte} {pos w l : Nat} (inside : pos ≤ b.length) :
    refFind b pos w l = (0, 0) ↔
      w = 0 ∨ pos = 0 ∨ l = 0 ∨ pos = b.length ∨ ∀ i, pos - w ≤ i → i < pos → b[i]? ≠ b[pos]? := by
  rw [refFind_zero, refBest_zero]
  constructor
  · intro allZero
    by_cases room : l = 0 ∨ pos = b.length
    · tauto
    · refine .inr (.inr (.inr (.inr fun i low before => ?_)))
      exact ((refLen_zero b pos l i).1 (allZero i low before)).resolve_left (mt (refMaxLen_zero before inside).1 room)
  · intro cause i low before
    rw [refLen_zero, refMaxLen_zero before inside]
    obtain empty | start | noRoom | atEnd | differ := cause
    · omega
    · omega
    · exact .inl (.inl noRoom)
    · exact .inl (.inr atEnd)
    · exact .inr (differ i low before)

/-- Settles O20: the registers are both 0 exactly when the closed form is `(0, 0)` (`refFind_zero_iff`). -/
theorem nothingFoundExactlyWithoutACandidate : Obligations.NothingFoundExactlyWithoutACandidate := by
  intro s t dense inside run
  have length := Memory.bytes_length dense
  have registers : (t.mBoff = 0 ∧ t.mBlen = 0) ↔ (t.mBoff.toNat, t.mBlen.toNat) = (0, 0) := by
    simp only [Prod.mk.injEq, BitVec.toNat_eq]
    rfl
  rw [registers, matFind_result dense inside run, refFind_zero_iff (length.symm ▸ inside), length]
  simp only [readIB_eq dense]

/-! ## MAT.LEN (R83) -/

/-- The run ends below its bound only where the next bytes differ. -/
theorem refLen_stops {b : List Byte} {pos l i : Nat} (short : refLen b pos l i < refMaxLen b pos l i) :
    b[i + refLen b pos l i]? ≠ b[pos + refLen b pos l i]? := by
  rw [← runFrom_eq_refLen] at short ⊢
  exact runFrom_stops b pos i _ l 0 (Nat.min_le_left l _) (Nat.zero_le _) short

/-- MAT.LEN writes `len(M_I)` to M_K, and nothing else. -/
theorem matLen_eq_refLen {s : State} (dense : s.ib.dense s.inLen) (before : s.mI ≤ s.pos) (inside : s.pos ≤ s.inLen) :
    matLen s = .go { s with mK := BitVec.ofNat 16 (refLen s.ib.bytes s.pos s.cfg.lookaheadSize.val s.mI) } := by
  rw [matLen_eq dense before inside, ← runFrom_eq_refLen, refMaxLen, Memory.bytes_length dense]

/-- A run fits M_K, since L does. -/
theorem toNat_refLen (c : Config) (b : List Byte) (pos i : Nat) :
    (BitVec.ofNat 16 (refLen b pos c.lookaheadSize.val i)).toNat = refLen b pos c.lookaheadSize.val i := by
  have bound := refLen_le b pos c.lookaheadSize.val i
  have fits := c.lookaheadSize.isLt
  unfold refMaxLen at bound
  rw [BitVec.toNat_ofNat, Nat.mod_eq_of_lt (by omega)]

/-- Settles O16: M_K becomes `len(M_I)`, which is within its bound, agrees, and ends only where the bytes differ. -/
theorem runLengthIsTheLargest : Obligations.RunLengthIsTheLargest := by
  intro s dense before inside
  refine ⟨_, congrArg Flow.outcome (matLen_eq_refLen dense (Nat.le_of_lt before) inside), rfl, ?_⟩
  simp only [toNat_refLen, readIB_eq dense, ← Memory.bytes_length dense]
  exact ⟨refLen_le _ _ _ _, refLen_agrees _ _ _ _, refLen_stops⟩

/-! ## MAT.RANGE (R81) -/

/-- Settles O14: the subtraction of W saturates at 0. -/
theorem rangeStartsAtTheWindow : Obligations.RangeStartsAtTheWindow := by
  intro s
  refine ⟨{ s with mLo := s.windowStart }, rfl, rfl, Nat.sub_eq_zero_of_le, Nat.sub_add_cancel, ?_⟩
  show s.pos - (s.pos - s.cfg.windowSize.val) = min s.cfg.windowSize.val s.pos
  omega

/-! ## MAT.CMP (R82) -/

/-- Outside its conditions the comparison has no value (log 18). -/
theorem cmpBytes_undefined {s : State} {i k : Nat} (outside : s.pos ≤ i + k ∨ s.inLen ≤ s.pos + k) :
    s.cmpBytes i k = .error .cmpUndefined := by
  refine if_neg ?_
  simp only [State.cmpDefined, Bool.and_eq_true, decide_eq_true_eq]
  omega

/-- A comparison that has a value shows it, and writes nothing else. -/
theorem matCmp_of_ok {s : State} {equal : Bool} (value : s.cmpBytes s.mI s.mK.toNat = .ok equal) :
    matCmp s = .go { s with eqOut := equal } := by
  simp only [matCmp, value]

/-- A comparison that has no value stops. -/
theorem matCmp_of_error {s : State} {f : Fault} (noValue : s.cmpBytes s.mI s.mK.toNat = .error f) :
    matCmp s = .stop f := by
  simp only [matCmp, noValue]

/-- Settles O15, by the comparison of the two bytes within its conditions (`cmpBytes_ok`) and outside. -/
theorem compareYieldsByteEquality : Obligations.CompareYieldsByteEquality := by
  refine fun s => ⟨fun x y source target readX readY => ?_, fun outside => ?_⟩
  · exact congrArg Flow.outcome (matCmp_of_ok (cmpBytes_ok source target readX readY))
  · exact congrArg Flow.outcome (matCmp_of_error (cmpBytes_undefined outside))

/-! ## MAT.SEL (R84) -/

/-- A candidate that is not strictly longer is passed over. -/
theorem matSel_keeps {s : State} (short : s.mK.toNat ≤ s.mBlen.toNat) : matSel s = .go s :=
  if_neg (Nat.not_lt.2 short)

/-- A strictly longer candidate before POS replaces the best. -/
theorem matSel_replaces {s : State} (longer : s.mBlen.toNat < s.mK.toNat) (before : s.mI < s.pos) :
    matSel s = .go (selected s) := by
  rw [matSel, if_pos longer, if_pos before]

/-- Settles O17: the replacement writes the distance where it fits the field (`selected_near`), and a free value where it
does not (log 28). -/
theorem selectTakesOnlyTheStrictlyLonger : Obligations.SelectTakesOnlyTheStrictlyLonger := by
  refine fun s => ⟨fun short => ?_, fun longer before near => ?_, fun longer far => ?_⟩
  · exact congrArg Flow.outcome (matSel_keeps short)
  · have fits : s.pos - s.mI < 65536 := by omega
    have run := matSel_replaces longer before
    rw [selected_near fits] at run
    refine ⟨_, congrArg Flow.outcome run, rfl, ?_⟩
    rw [BitVec.toNat_ofNat, Nat.mod_eq_of_lt fits]
  · exact ⟨selected s, congrArg Flow.outcome (matSel_replaces longer (by omega)), selected_eq s⟩

end Sys2Proof.Machine

/-! The statements of 41_encoder.md: what each operation of the encoder writes, ENC.RUN against the reference encoder,
and what the stream of an input is. -/

namespace Sys2Proof.Machine

/-! ## ENC.START (R101) -/

/-- The state in which the encoder begins to read its input (R101). -/
def encStarted (s : State) : State := { clearOutput s with pos := 0, gCnt := 0, gCtrl := 0 }

/-- On an empty input ENC.START enters the error. -/
theorem encStart_empty {s : State} (empty : s.inLen = 0) : encStart s = .ended (errorEntry .emptyInput s) :=
  if_pos empty

/-- On any other input ENC.START prepares the registers. -/
theorem encStart_nonempty {s : State} (nonempty : s.inLen ≠ 0) : encStart s = .go (encStarted s) :=
  if_neg nonempty

theorem encStarted_frame (s : State) : Frame s (encStarted s) := by constructor <;> rfl

theorem encStarted_encInv {s : State} (dense : s.ib.dense s.inLen) : EncInv (encStarted s) where
  dense := dense
  out := OutOk.of_empty rfl rfl
  pos := Nat.zero_le _
  cnt := Nat.zero_le _
  ctl := controlAgrees_zero rfl rfl

/-- Settles O21, by whether the input is empty. -/
theorem encodeStartInitialisesOrRefusesEmpty : Obligations.EncodeStartInitialisesOrRefusesEmpty := by
  refine fun s => ⟨fun empty => ?_, fun nonempty => ?_⟩
  · exact ⟨_, congrArg Flow.outcome (encStart_empty empty), errorEntry_entered .emptyInput s s (Frame.refl s)⟩
  · exact ⟨_, congrArg Flow.outcome (encStart_nonempty nonempty), rfl, fun a => if_neg (Nat.not_lt_zero a)⟩

/-! ## ENC.RUN against the reference encoder (R100) -/

/-- The reference encoder fails on the empty input only, and with EmptyInputError. -/
theorem refEncode_eq_error {b : List Byte} {w l : Nat} {o : Order} {k : ErrKind}
    (failed : refEncode b w l o = .error k) : b = [] ∧ k = .emptyInput := by
  unfold refEncode at failed
  split at failed
  · cases failed; exact ⟨‹_›, rfl⟩
  · cases failed

/-- Where the reference encoder succeeds, the input is not empty and the result is the stream of its tokens. -/
theorem refEncode_eq_ok {b stream : List Byte} {w l : Nat} {o : Order} (ok : refEncode b w l o = .ok stream) :
    b ≠ [] ∧ stream = refStream o (refTokens b w l) := by
  unfold refEncode at ok
  split at ok
  · cases ok
  · cases ok; exact ⟨‹_›, rfl⟩

/-- ENC.RUN is the loop of `encLoop_ref` from the start of the input, with an empty group and no output yet. -/
theorem encRun_ref {s : State} {stream : List Byte} (dense : s.ib.dense s.inLen)
    (ok : refEncode s.ib.bytes s.cfg.windowSize.val s.cfg.lookaheadSize.val s.cfg.order = .ok stream) :
    (fitsCap s.cfg.capOut stream.length = true → ∃ t, encRun s = .ended t ∧ t.status = statusSuccess ∧
      t.ob.bytes = stream ∧ t.pos = refFinalPos s.ib.bytes s.cfg.windowSize.val s.cfg.lookaheadSize.val) ∧
    (fitsCap s.cfg.capOut stream.length = false →
      ∃ u, Frame s u ∧ encRun s = .ended (errorEntry .capacity u)) := by
  obtain ⟨nonempty, rfl⟩ := refEncode_eq_ok ok
  have length := Memory.bytes_length dense
  have inLen : s.inLen ≠ 0 := by rw [← length]; exact mt List.eq_nil_of_length_eq_zero nonempty
  have run : encRun s = encLoop s.inLen (encStarted s) := by rw [encRun, encStart_nonempty inLen]; rfl
  have noGroup : (encStarted s).group = [] := List.take_zero
  have outLen : (encStarted s).outLen = 0 := rfl
  have loop := encLoop_ref s.inLen (encStarted_encInv dense) (Nat.le_refl _)
  rw [noGroup, outLen, Nat.zero_add, List.nil_append] at loop
  rw [run, refTokens, refFinalPos, length]
  refine ⟨loop.1, fun full => ?_⟩
  obtain ⟨u, frame, stopped⟩ := loop.2 full
  exact ⟨u, (encStarted_frame s).trans frame, stopped⟩

/-- Settles O28: `encRun_ref` gives the output or the capacity error, `encRun_sat` what every completed run keeps. -/
theorem encodeRunIsTheReferenceEncoder : Obligations.EncodeRunIsTheReferenceEncoder := by
  intro s dense noError
  split
  next stream ok =>
    obtain ⟨fits, full⟩ := encRun_ref dense ok
    refine ⟨fun room => ?_, fun noRoom => ?_⟩
    · obtain ⟨t, run, success, output, final⟩ := fits room
      have completed := encRun_sat dense
      rw [run] at completed
      exact ⟨t, congrArg Flow.outcome run, EndOk.succeeded completed noError success output, final⟩
    · obtain ⟨u, frame, run⟩ := full noRoom
      exact ⟨_, congrArg Flow.outcome run, errorEntry_entered .capacity s u frame⟩
  next k failed =>
    obtain ⟨empty, rfl⟩ := refEncode_eq_error failed
    have inLen : s.inLen = 0 := by rw [← Memory.bytes_length dense, empty]; rfl
    have run : encRun s = .ended (errorEntry .emptyInput s) := by rw [encRun, encStart_empty inLen]; rfl
    exact ⟨rfl, _, congrArg Flow.outcome run, errorEntry_entered .emptyInput s s (Frame.refl s)⟩

/-! ## The round trip (R110) -/

/-- Settles O31: the tokens of an input stand for it (`roundtrip_from`), and a stream decodes to what its tokens stand
for (`decodeFrom_stream`). -/
theorem roundTripUpToTheSentinel : Obligations.RoundTripUpToTheSentinel := by
  intro b w l o nonempty
  have decoded {out : List Byte} (stands : applyToks [] (refTokens b w.val l.val) = .ok out) :
      refDecode (refStream o (refTokens b w.val l.val)) o = .ok out :=
    decodeFrom_stream o _ _ [] out (Nat.lt_succ_self _) stands
  refine ⟨_, if_neg nonempty, ?_⟩
  obtain ⟨final, stands⟩ | ⟨final, stands⟩ :=
    roundtrip_from b w.val l.val w.isLt l.isLt b.length 0 (Nat.le_refl _) (Nat.zero_le _)
  · exact ⟨.inl final, fun _ => decoded stands, fun final' => absurd (final.symm.trans final') (by omega)⟩
  · exact ⟨.inr final, fun final' => absurd (final.symm.trans final') (by omega), fun _ => decoded stands⟩

/-! ## ENC.FLUSH and ENC.END (R106, R107) -/

/-- The bytes that ENC.FLUSH writes, each slot's by its offset (R65, R106). -/
theorem groupBytes_eq (s : State) :
    s.groupBytes = s.gCtrl :: (s.gTok.toList.take s.gCnt.toNat).flatMap (fun sl =>
      if sl.off = 0 then [sl.byte] else u16Bytes s.cfg.order sl.off ++ u16Bytes s.cfg.order sl.len ++ [sl.byte]) := by
  simp only [← tokenBytes_eq]
  rfl

/-- ENC.FLUSH where the group fits: its bytes are appended and the group is emptied. -/
theorem encFlush_room {s : State} (occupied : 1 ≤ s.gCnt.toNat) (most : s.gCnt.toNat ≤ 8)
    (room : s.roomFor s.groupBytes.length = true) :
    encFlush s = .go (groupEmptied (appendedAll s.groupBytes s)) := by
  rw [encFlush_eq occupied most, appendAll_room room, Flow.go_andThen]

/-- Bytes appended and the group emptied: OB, OUT_LEN, G_CNT and G_CTRL change, and nothing else. -/
theorem groupEmptied_appendedAll_eq (bytes : List Byte) (s : State) :
    groupEmptied (appendedAll bytes s) =
      { s with ob := (appendedAll bytes s).ob, outLen := s.outLen + bytes.length, gCnt := 0, gCtrl := 0 } := by
  rw [appendedAll_eq]
  rfl

/-- Settles O26, by `encFlush_room`. -/
theorem flushAppendsTheGroup : Obligations.FlushAppendsTheGroup := by
  intro s bytes occupied most group room
  rw [← groupBytes_eq] at group
  subst group
  refine ⟨_, congrArg Flow.outcome (encFlush_room occupied most room), ?_⟩
  rw [groupEmptied_appendedAll_eq]
  exact ⟨appendedTo_of rfl rfl, rfl⟩

/-- ENC.END with an empty group completes at once. -/
theorem encEnd_noGroup {s : State} (empty : s.gCnt = 0) : encEnd s = .ended (complete s) := by
  rw [encEnd, empty]
  rfl

/-- ENC.END with a group that fits flushes it first. -/
theorem encEnd_room {s : State} (occupied : 1 ≤ s.gCnt.toNat) (most : s.gCnt.toNat ≤ 8)
    (room : s.roomFor s.groupBytes.length = true) :
    encEnd s = .ended (complete (groupEmptied (appendedAll s.groupBytes s))) := by
  rw [encEnd, if_pos (Nat.succ_le_iff.1 occupied), encFlush_room occupied most room, Flow.go_andThen]

/-- Settles O27: the group, if any, is flushed (`encEnd_room`), and the command completes. -/
theorem encodeEndFlushesThePartialGroup : Obligations.EncodeEndFlushesThePartialGroup := by
  refine fun s => ⟨fun empty => ?_, fun bytes occupied most group room => ?_⟩
  · exact ⟨_, congrArg Flow.outcome (encEnd_noGroup empty), rfl⟩
  · subst group
    refine ⟨_, congrArg Flow.outcome (encEnd_room occupied most room), ?_⟩
    rw [groupEmptied_appendedAll_eq]
    exact ⟨appendedTo_of rfl rfl, rfl⟩

/-! ## The length of a stream (R109) -/

/-- A Literal takes one byte, a Match five. -/
theorem tokenBytes_length (o : Order) (tk : Slot) : (tokenBytes o tk).length = if tk.off = 0 then 1 else 5 := by
  rw [tokenBytes_eq]
  split
  · rfl
  · simp only [List.length_append, Laws.Size.u16Bytes_length, List.length_singleton]

/-- The bytes of several tokens, without control bytes. -/
theorem tokensBytes_length (o : Order) (toks : List Slot) :
    (toks.flatMap (tokenBytes o)).length =
      toks.countP (fun tk => decide (tk.off = 0)) + 5 * toks.countP (fun tk => decide (tk.off ≠ 0)) := by
  induction toks with
  | nil => rfl
  | cons tk toks ih =>
    rw [List.flatMap_cons, List.length_append, ih, tokenBytes_length, List.countP_cons, List.countP_cons]
    by_cases literal : tk.off = 0#16
    · simp +arith [literal]
    · simp +arith [literal]

/-- Consecutive groups: one control byte for every eight tokens begun, and the bytes of the tokens. -/
theorem refGroups_length (o : Order) (n : Nat) (toks : List Slot) (enough : toks.length ≤ n) :
    (refGroups n o toks).length = (toks.length + 7) / 8 + (toks.flatMap (tokenBytes o)).length := by
  induction n generalizing toks with
  | zero =>
    cases List.eq_nil_of_length_eq_zero (Nat.le_zero.1 enough)
    rfl
  | succ n ih =>
    by_cases empty : toks = []
    · subst empty; rfl
    · have positive := List.length_pos_iff.2 empty
      have parts : (toks.flatMap (tokenBytes o)).length =
          ((toks.take 8).flatMap (tokenBytes o)).length + ((toks.drop 8).flatMap (tokenBytes o)).length := by
        rw [← List.length_append, ← List.flatMap_append, List.take_append_drop]
      rw [refGroups, if_neg empty, List.length_append, refGroup, List.length_cons,
        ih _ (by rw [List.length_drop]; omega), parts, List.length_drop]
      omega

/-- Settles O29: control bytes (`refGroups_length`) and token bytes (`tokensBytes_length`), counted. -/
theorem streamLengthFormula : Obligations.StreamLengthFormula := by
  intro o toks
  rw [refStream, refGroups_length o _ toks (Nat.le_refl _), tokensBytes_length, Nat.add_assoc]

/-! ## The encoder's tokens (R112) -/

/-- A token is a Literal, or the Match that was found with its next_byte. -/
theorem refToken_cases (b : List Byte) (w l pos : Nat) :
    refToken b w l pos = ⟨0, 0, refByte b pos⟩ ∨
      (refFind b pos w l).2 ≠ 0 ∧ refToken b w l pos =
        ⟨BitVec.ofNat 16 (refFind b pos w l).1, BitVec.ofNat 16 (refFind b pos w l).2,
          refNext b pos (refFind b pos w l).2⟩ := by
  unfold refToken
  split
  next => exact .inl rfl
  next matching => exact .inr ⟨(not_or.1 matching).2, rfl⟩

/-- Below W the tokens are the Literals of consecutive bytes. -/
theorem refTokensFrom_literals (b : List Byte) (w l n pos j : Nat) (passes : j < n) (below : pos + j < min w b.length) :
    (refTokensFrom n b w l pos)[j]? = some ⟨0, 0, refByte b (pos + j)⟩ := by
  induction n generalizing pos j with
  | zero => omega
  | succ n ih =>
    have literal : pos < w ∨ (refFind b pos w l).2 = 0 := .inl (by omega)
    rw [refTokensFrom, if_pos (by omega), refToken, if_pos literal, refAdvance, if_pos literal]
    cases j with
    | zero => rfl
    | succ j =>
      rw [List.getElem?_cons_succ, ih (pos + 1) j (by omega) (by omega), Nat.add_right_comm, Nat.add_assoc]

/-- Settles O30: a Match is what was found (`refToken_cases`), within its bounds (`refFind_spec`). -/
theorem encodedTokensAreCanonical : Obligations.EncodedTokensAreCanonical := by
  refine fun b w l => ⟨fun pos inside notLiteral => ?_, fun j below => ?_⟩
  · obtain literal | ⟨found, token⟩ := refToken_cases b w.val l.val pos
    · exact absurd (congrArg Slot.off literal) notLiteral
    · obtain ⟨lenOff, offBound, lenBound, -, -⟩ := refFind_spec b pos w.val l.val found
      have fitsOff : (refFind b pos w.val l.val).1 < 65536 := by omega
      have fitsLen : (refFind b pos w.val l.val).2 < 65536 := by omega
      rw [token]
      simp only [BitVec.toNat_ofNat, Nat.mod_eq_of_lt fitsOff, Nat.mod_eq_of_lt fitsLen]
      exact ⟨Nat.pos_of_ne_zero found, lenOff, offBound, lenBound⟩
  · have literal := refTokensFrom_literals b w.val l.val b.length 0 j (by omega) (by omega)
    rwa [Nat.zero_add] at literal

/-! ## ENC.SELECT (R102) -/

/-- Below W nothing is searched. -/
theorem encSelect_below {s : State} (below : s.pos < s.cfg.windowSize.val) : encSelect s = .go s := if_pos below

/-- From W on ENC.SELECT is MAT.FIND. -/
theorem encSelect_from {s : State} (onward : s.cfg.windowSize.val ≤ s.pos) : encSelect s = matFind s :=
  if_neg (Nat.not_lt.2 onward)

/-- Below W the decision is literal. -/
theorem wantsMatch_below {s : State} (below : s.pos < s.cfg.windowSize.val) : s.wantsMatch = false := by
  simp only [State.wantsMatch, below, decide_true, Bool.not_true, Bool.false_and]

/-- From W on the decision is match exactly when a length was found. -/
theorem wantsMatch_from {s : State} (onward : s.cfg.windowSize.val ≤ s.pos) :
    s.wantsMatch = true ↔ 1 ≤ s.mBlen.toNat := by
  have notBelow : ¬ s.pos < s.cfg.windowSize.val := Nat.not_lt.2 onward
  simp only [State.wantsMatch, State.found, notBelow, decide_false, Bool.not_false, Bool.true_and, bne_iff_ne, ne_eq,
    BitVec.toNat_eq, Nat.one_le_iff_ne_zero]
  rfl

/-- Settles O22: MAT.FIND keeps POS and W (`matFind_fold`), so that the decision reads what it found. -/
theorem selectDecidesLiteralOrMatch : Obligations.SelectDecidesLiteralOrMatch := by
  refine fun s => ⟨fun below => ?_, fun onward dense inside => ?_⟩
  · exact ⟨congrArg Flow.outcome (encSelect_below below), wantsMatch_below below⟩
  · obtain ⟨t, run, frame, -⟩ := matFind_fold dense inside
    have decision : t.wantsMatch = true ↔ 1 ≤ t.mBlen.toNat := wantsMatch_from (by rw [frame]; exact onward)
    exact ⟨t, congrArg Flow.outcome ((encSelect_from onward).trans run), congrArg Flow.outcome run, decision⟩

/-! ## ENC.LIT and ENC.MATCH (R103, R104) -/

/-- Settles O23: the byte at POS is readable, so that ENC.LIT takes it (`encLit_eq`). -/
theorem encodeLiteralTakesOneByte : Obligations.EncodeLiteralTakesOneByte :=
  fun _ _ read => congrArg Flow.outcome (encLit_eq read)

/-- Settles O24, by whether there is an input byte after the match. -/
theorem encodeMatchTakesTheNextByteOrTheSentinel : Obligations.EncodeMatchTakesTheNextByteOrTheSentinel := by
  refine fun s => ⟨fun b inside read => ?_, fun atEnd => ?_⟩
  · have nextByte : s.nextByte = some b := (if_pos inside).trans read
    exact congrArg Flow.outcome (encMatch_eq nextByte)
  · have nextByte : s.nextByte = some 0x00 := if_neg (Nat.not_lt.2 atEnd)
    exact congrArg Flow.outcome (encMatch_eq nextByte)

/-! ## ENC.PUSH (R105) -/

/-- The control bits after a token is stored: its own is set when it is a Match, the others are kept. -/
theorem stored_controlBit (s : State) {j : Nat} (slot : j < 8) :
    controlBit (stored s).gCtrl j = if j = s.gCnt.toNat ∧ s.t.off ≠ 0 then true else controlBit s.gCtrl j := by
  by_cases matching : s.t.off ≠ 0
  · have ctrl : (stored s).gCtrl = setControlBit s.gCtrl s.gCnt.toNat := if_pos (bne_iff_ne.2 matching)
    rw [ctrl, controlBit_set _ _ _ slot]
    by_cases own : j = s.gCnt.toNat
    · rw [if_pos ⟨own, matching⟩, decide_eq_true own, Bool.or_true]
    · rw [if_neg (mt And.left own), decide_eq_false own, Bool.or_false]
  · have ctrl : (stored s).gCtrl = s.gCtrl := if_neg (mt bne_iff_ne.1 matching)
    rw [ctrl, if_neg fun own => matching own.2]

/-- ENC.PUSH before the eighth token stores it. -/
theorem encPush_stores {s : State} (below : s.gCnt.toNat < 7) : encPush s = .go (stored s) := by
  have count : (stored s).gCnt.toNat = s.gCnt.toNat + 1 := gCnt_succ (by omega)
  rw [encPush, if_pos (by omega), if_neg (by omega)]

/-- ENC.PUSH of the eighth token stores it and flushes. -/
theorem encPush_flushes {s : State} (eighth : s.gCnt.toNat = 7) : encPush s = encFlush (stored s) := by
  have count : (stored s).gCnt.toNat = s.gCnt.toNat + 1 := gCnt_succ (by omega)
  rw [encPush, if_pos (by omega), if_pos (by omega)]

/-- Settles O25: the state `stored` is the group with the token in it. -/
theorem pushStoresTheTokenAndFlushesTheEighth : Obligations.PushStoresTheTokenAndFlushesTheEighth := by
  refine fun s free => ⟨stored s, rfl, rfl, fun j slot => stored_controlBit s slot, gCnt_succ free, ?_, ?_⟩
  · exact fun below => congrArg Flow.outcome (encPush_stores below)
  · exact fun eighth => congrArg Flow.outcome (encPush_flushes eighth)

end Sys2Proof.Machine

/-! The statements of 42_decoder.md: what each operation of the decoder writes, DEC.RUN against the reference decoder, and the
step that runs an element of the stream. -/

namespace Sys2Proof.Machine

/-! ## The two ends of an operation -/

/-- An operation that raises, from a state that keeps what R172 keeps, enters the error. -/
theorem raise_entered {k : ErrKind} {s u : State} {x : Flow} (frame : Frame s u) (raised : x = raise k u) :
    ∃ t, x.outcome = .next t ∧ ErrorEntered (errCodeOf k) s t :=
  ⟨errorEntry k u, congrArg Flow.outcome raised, errorEntry_entered k s u frame⟩

/-- An instruction that does as DEC.END ends cleanly (R131). -/
theorem endsCleanly_of_decEnd {i : Instr} {s : State} (run : exec i s = (decEnd s).outcome) : EndsCleanly i s :=
  ⟨complete s, run, rfl⟩

/-- No byte is available from IN_LEN on (log 29). -/
theorem avail_eq_zero {s : State} (atEnd : s.inLen ≤ s.rp) : s.avail = 0 := Nat.sub_eq_zero_of_le atEnd

/-- A byte that can be read at RP is available. -/
theorem avail_ne_zero {s : State} {b : Byte} (read : s.readIB s.rp = some b) : s.avail ≠ 0 :=
  Nat.sub_ne_zero_of_lt (readIB_lt read)

/-- Settles O41: DEC.ABORT is the `raise` of its kind. -/
theorem abortEntersTheError : Obligations.AbortEntersTheError := fun s =>
  ⟨raise_entered (Frame.refl s) rfl, raise_entered (Frame.refl s) rfl, raise_entered (Frame.refl s) rfl⟩

/-! ## DEC.START and DEC.CTRL (R121, R122) -/

/-- The state in which the decoder begins to read its stream (R121). -/
def decStarted (s : State) : State := { clearOutput s with rp := 0 }

theorem decStart_eq (s : State) : decStart s = .go (decStarted s) := rfl

theorem decStarted_frame (s : State) : Frame s (decStarted s) := by constructor <;> rfl

theorem decStarted_decInv {s : State} (dense : s.ib.dense s.inLen) : DecInv (decStarted s) where
  dense := dense
  out := OutOk.of_empty rfl rfl
  rp := Nat.zero_le _

/-- Settles O32: with OUT_LEN = 0 no byte of OB is valid. -/
theorem decodeStartInitialises : Obligations.DecodeStartInitialises := fun s =>
  ⟨decStarted s, congrArg Flow.outcome (decStart_eq s), rfl, fun a => if_neg (Nat.not_lt_zero a)⟩

/-- DEC.CTRL where no byte is available. -/
theorem decCtrl_atEnd {s : State} (atEnd : s.inLen ≤ s.rp) : decCtrl s = decEnd s := if_pos (avail_eq_zero atEnd)

/-- DEC.CTRL where a byte is available. -/
theorem decCtrl_read {s : State} {f : Byte} (read : s.readIB s.rp = some f) : decCtrl s = .go (controlRead f s) := by
  rw [decCtrl, if_neg (avail_ne_zero read), read]

/-- Settles O33, by whether a byte is available. -/
theorem controlByteIsLatchedOrTheStreamEnds : Obligations.ControlByteIsLatchedOrTheStreamEnds := by
  refine fun s => ⟨endsCleanly_of_decEnd rfl, fun atEnd => ?_, fun f read => ?_⟩
  · exact endsCleanly_of_decEnd (congrArg Flow.outcome (decCtrl_atEnd atEnd))
  · exact congrArg Flow.outcome (decCtrl_read read)

/-! ## Literals (R124) -/

/-- DEC.LIT reads its byte at RP. -/
theorem decLit_read {s : State} {b : Byte} (read : s.readIB s.rp = some b) : decLit s = literalRead b s := by
  rw [decLit, read]

/-- Settles O46: LIT and DEC.LIT are the same Literal (`decLit_read`), which fits (`literal_room`). -/
theorem literalAppendsItsByte : Obligations.LiteralAppendsItsByte := by
  intro b s room
  have literal := literal_room (b := b) room
  refine ⟨_, congrArg Flow.outcome literal, appendedTo_of rfl rfl, rfl, fun read => ?_⟩
  exact congrArg Flow.outcome ((decLit_read read).trans literal)

/-! ## The fetches of a Match (R125, R126, R127) -/

/-- DEC.FETCH_OFF where no byte is available. -/
theorem decFetchOff_atEnd {s : State} (atEnd : s.inLen ≤ s.rp) : decFetchOff s = decEnd s :=
  if_pos (avail_eq_zero atEnd)

/-- DEC.FETCH_OFF where half of the offset is available. -/
theorem decFetchOff_cut {s : State} (half : s.inLen = s.rp + 1) : decFetchOff s = raise .truncatedStream s := by
  have avail : s.avail = 1 := by unfold State.avail; omega
  rw [decFetchOff, if_neg (by omega), if_pos avail]

/-- DEC.FETCH_OFF where the offset is available. -/
theorem decFetchOff_read {s : State} {b0 b1 : Byte} (low : s.readIB s.rp = some b0)
    (high : s.readIB (s.rp + 1) = some b1) : decFetchOff s = .go (offsetRead (u16Of s.cfg.order b0 b1) s) := by
  have avail : 2 ≤ s.avail := by have := readIB_lt high; unfold State.avail; omega
  rw [decFetchOff, if_neg (by omega), if_neg (by omega), readU16_eq low high]

/-- DEC.FETCH_LEN where the length is cut off. -/
theorem decFetchLen_cut {s : State} (short : s.inLen ≤ s.rp + 1) : decFetchLen s = raise .truncatedStream s :=
  if_pos (by unfold State.avail; omega)

/-- DEC.FETCH_LEN where the length is available. -/
theorem decFetchLen_read {s : State} {b0 b1 : Byte} (low : s.readIB s.rp = some b0)
    (high : s.readIB (s.rp + 1) = some b1) : decFetchLen s = .go (lengthRead (u16Of s.cfg.order b0 b1) s) := by
  have avail : 2 ≤ s.avail := by have := readIB_lt high; unfold State.avail; omega
  rw [decFetchLen, if_neg (by omega), readU16_eq low high]

/-- DEC.FETCH_NXT where the next_byte is cut off. -/
theorem decFetchNxt_cut {s : State} (atEnd : s.inLen ≤ s.rp) : decFetchNxt s = raise .truncatedStream s :=
  if_pos (by rw [avail_eq_zero atEnd]; exact Nat.one_pos)

/-- DEC.FETCH_NXT where the next_byte is available. -/
theorem decFetchNxt_read {s : State} {b : Byte} (read : s.readIB s.rp = some b) :
    decFetchNxt s = .go (nextRead b s) := by
  have avail := avail_ne_zero read
  rw [decFetchNxt, if_neg (by omega), read]

/-- Settles O37: the three fetches, each by the bytes that are available. -/
theorem fetchesLatchTheirFieldsOrTruncate : Obligations.FetchesLatchTheirFieldsOrTruncate := by
  refine fun s => ⟨fun atEnd => ?_, fun half => ?_, fun b0 b1 low high => ?_, fun short => ?_, fun b0 b1 low high => ?_,
    fun atEnd => ?_, fun b read => ?_⟩
  · exact endsCleanly_of_decEnd (congrArg Flow.outcome (decFetchOff_atEnd atEnd))
  · exact raise_entered (Frame.refl s) (decFetchOff_cut half)
  · exact congrArg Flow.outcome (decFetchOff_read low high)
  · exact raise_entered (Frame.refl s) (decFetchLen_cut short)
  · exact congrArg Flow.outcome (decFetchLen_read low high)
  · exact raise_entered (Frame.refl s) (decFetchNxt_cut atEnd)
  · exact congrArg Flow.outcome (decFetchNxt_read read)

/-! ## The replay of a Match (R128, R129, R130) -/

/-- An offset that DEC.CHECK passes. -/
theorem decCheck_legal {s : State} (nonzero : s.dOff ≠ 0) (legal : s.dOff.toNat ≤ s.outLen) : decCheck s = .go s :=
  if_neg (not_or.2 ⟨nonzero, Nat.not_lt.2 legal⟩)

/-- Settles O38: `decCheck_legal` and `decCheck_bad` are its two cases. -/
theorem checkPassesExactlyLegalOffsets : Obligations.CheckPassesExactlyLegalOffsets := by
  refine fun s => ⟨fun nonzero legal => ?_, fun bad => ?_⟩
  · exact congrArg Flow.outcome (decCheck_legal nonzero legal)
  · exact raise_entered (Frame.refl s) (decCheck_bad bad)

/-- Settles O39: with room `decCopy_cases` appends the bytes of the reference copy, and those are cyclic
(`copied_cyclic`). -/
theorem copyRepeatsTheLastBytesCyclically : Obligations.CopyRepeatsTheLastBytesCyclically := by
  intro s dense nonzero legal room
  have output : OutOk s := ⟨dense, roomFor_mono (Nat.zero_le _) room⟩
  obtain ⟨-, copied, length, copy, run⟩ | ⟨noRoom, -⟩ := decCopy_cases output nonzero legal
  · refine ⟨_, copied, congrArg Flow.outcome run, appendedTo_of rfl (appendedAll_outLen copied s), length, ?_, ?_⟩
    · exact copied_cyclic dense (pos_of_ne nonzero) legal copy
    · rw [appendedAll_eq]
  · exact absurd (room.symm.trans noRoom) (by decide)

/-- Settles O40: DEC.NEXT is one append. -/
theorem nextAppendsTheNextByte : Obligations.NextAppendsTheNextByte := by
  intro s room
  simp only [exec, execDecNext, decNext, append_eq_appendAll]
  exact appendAll_outcome room

/-! ## DEC.BIT (R123) -/

/-- DEC.BIT where no byte is available leaves the group. -/
theorem decBit_atEnd {s : State} (atEnd : s.inLen ≤ s.rp) : decBit s = .go s := if_pos (avail_eq_zero atEnd)

/-- DEC.BIT for a clear bit is DEC.LIT, then D_BIT + 1. -/
theorem decBit_clear {s : State} (below : s.dBit.toNat < 8) (clear : controlBit s.dCtrl s.dBit.toNat = false)
    (avail : s.avail ≠ 0) : decBit s = (decLit s).andThen fun a => .go (bitDone a) := by
  rw [decBit, if_neg avail, if_pos below, clear]
  rfl

/-- DEC.BIT for a set bit is the Match sequence, then D_BIT + 1. -/
theorem decBit_set {s : State} (below : s.dBit.toNat < 8) (bitSet : controlBit s.dCtrl s.dBit.toNat = true)
    (avail : s.avail ≠ 0) : decBit s = (decMatch s).andThen fun a => .go (bitDone a) := by
  rw [decBit, if_neg avail, if_pos below, bitSet]
  rfl

/-- Settles O34: no byte available (`decBit_atEnd`), or one Literal (`decBit_clear`). -/
theorem clearBitReadsOneLiteral : Obligations.ClearBitReadsOneLiteral := by
  refine fun s => ⟨fun atEnd => congrArg Flow.outcome (decBit_atEnd atEnd), fun b below clear read room => ?_⟩
  have run : decBit s = .go (bitDone { appended b s with rp := s.rp + 1 }) := by
    rw [decBit_clear below clear (avail_ne_zero read), decLit_read read, literal_room room]
    rfl
  exact ⟨_, congrArg Flow.outcome run, appendedTo_of rfl rfl, rfl⟩

/-- Settles O35: with five bytes available the Match sequence is the Match element (`decMatch_eq`), which fits
(`matchElement_room`). -/
theorem setBitReplaysOneMatch : Obligations.SetBitReplaysOneMatch := by
  rintro s _ _ b0 b1 b2 b3 nb dense below bitSet fetched rfl rfl nonzero legal room
  have avail := avail_ne_zero (fetchBytes_five fetched).1
  obtain ⟨t, copied, run, appends, length, cyclic, frame⟩ := matchElement_room (nb := nb) dense nonzero legal room
  have bit : decBit s = .go (bitDone t) := by
    rw [decBit_set below bitSet avail, decMatch_eq fetched, run]
    rfl
  exact ⟨bitDone t, copied, congrArg Flow.outcome bit, ⟨appends.outLen, appends.stored, appends.others⟩, length, cyclic,
    congrArg bitDone frame⟩

/-- A Match with an offset that DEC.CHECK rejects: the fields are latched, then it raises InvalidOffsetError (R168). -/
theorem matchElement_bad {off len : Half} {nb : Byte} {s : State} (bad : off = 0 ∨ s.outLen < off.toNat) :
    ∃ u, Frame s u ∧ matchElement off len nb s = raise .invalidOffset u := by
  refine ⟨nextRead nb (lengthRead len (offsetRead off s)), by constructor <;> rfl, ?_⟩
  rw [matchElement, replay, decCheck_bad bad]
  rfl

/-- One to four bytes of a Match: whichever fetch comes to the end of the stream raises TruncatedStreamError (R167). -/
theorem decMatch_cut {s : State} (dense : s.ib.dense s.inLen) (begun : s.rp < s.inLen) (short : s.inLen ≤ s.rp + 4) :
    ∃ u, Frame s u ∧ decMatch s = raise .truncatedStream u := by
  by_cases one : s.inLen = s.rp + 1
  · exact ⟨s, Frame.refl s, by rw [decMatch, decFetchOff_cut one]; rfl⟩
  obtain ⟨b0, r0, -⟩ := readIB_some dense (a := s.rp) (by omega)
  obtain ⟨b1, r1, -⟩ := readIB_some dense (a := s.rp + 1) (by omega)
  rw [decMatch, decFetchOff_read r0 r1, Flow.go_andThen]
  by_cases three : s.inLen ≤ s.rp + 3
  · refine ⟨_, ?_, by rw [decFetchLen_cut three]; rfl⟩
    constructor <;> rfl
  obtain ⟨b2, r2, -⟩ := readIB_some dense (a := s.rp + 2) (by omega)
  obtain ⟨b3, r3, -⟩ := readIB_some dense (a := s.rp + 3) (by omega)
  rw [decFetchLen_read (s := offsetRead _ s) r2 r3, Flow.go_andThen, decFetchNxt_cut short]
  refine ⟨_, ?_, rfl⟩
  constructor <;> rfl

/-- What the Match sequence raises, DEC.BIT for a set bit raises. -/
theorem decBit_raises {k : ErrKind} {s u : State} (below : s.dBit.toNat < 8)
    (bitSet : controlBit s.dCtrl s.dBit.toNat = true) (avail : s.avail ≠ 0) (raised : decMatch s = raise k u) :
    decBit s = raise k u := by
  rw [decBit_set below bitSet avail, raised]
  rfl

/-- Settles O36: a Match cut off (`decMatch_cut`), or a whole one with a bad offset (`matchElement_bad`). -/
theorem setBitWithABrokenMatchRaises : Obligations.SetBitWithABrokenMatchRaises := by
  refine fun s below bitSet => ⟨fun dense one four => ?_, fun b0 b1 b2 b3 nb fetched bad => ?_⟩
  · obtain ⟨u, frame, raised⟩ := decMatch_cut dense (by omega) (by omega)
    exact raise_entered frame (decBit_raises below bitSet (Nat.ne_of_gt one) raised)
  · have avail := avail_ne_zero (fetchBytes_five fetched).1
    obtain ⟨u, frame, raised⟩ := matchElement_bad bad
    exact raise_entered frame (decBit_raises below bitSet avail ((decMatch_eq fetched).trans raised))

/-! ## DEC.RUN against the reference decoder (R120) -/

/-- DEC.RUN is its loop, from the start of the stream and with no output. -/
theorem decRun_eq (s : State) : decRun s = decLoop (s.inLen + 1) (decStarted s) := rfl

/-- The reference decoder as `decLoop_agrees` meets it there. -/
theorem refDecodeFrom_decStarted {s : State} (dense : s.ib.dense s.inLen) :
    refDecodeFrom (s.inLen + 1) (decStarted s).cfg.order ((decStarted s).ib.bytes.drop (decStarted s).rp)
      (decStarted s).ob.bytes = refDecode s.ib.bytes s.cfg.order := by
  rw [refDecode, Memory.bytes_length dense]
  rfl

/-- Where the reference decoder gives an output, DEC.RUN completes with it exactly when it fits: a completed run's output
always fits (`decRun_sat`), and otherwise the run ends with CapacityError. -/
theorem decRun_ok {s : State} {out : List Byte} (dense : s.ib.dense s.inLen)
    (ok : refDecode s.ib.bytes s.cfg.order = .ok out) :
    (fitsCap s.cfg.capOut out.length = true → ∃ t, decRun s = .ended t ∧ t.status = statusSuccess ∧ t.ob.bytes = out) ∧
    (fitsCap s.cfg.capOut out.length = false → ∃ u, Frame s u ∧ decRun s = raise .capacity u) := by
  have loop := decLoop_agrees (s.inLen + 1) (decStarted_decInv dense) (Nat.lt_succ_self _)
  rw [refDecodeFrom_decStarted dense, ok, ← decRun_eq] at loop
  obtain ⟨t, run, success, output⟩ | ⟨noRoom, u, frame, run⟩ := loop
  · refine ⟨fun _ => ⟨t, run, success, output⟩, fun noRoom => ?_⟩
    have completed := decRun_sat dense
    rw [run, Flow.sat_ended] at completed
    have fits := completed.out.fits
    rw [completed.cfg, ← Memory.bytes_length completed.out.dense, output, noRoom] at fits
    cases fits
  · exact ⟨fun room => absurd (room.symm.trans noRoom) (by decide), fun _ => ⟨u, (decStarted_frame s).trans frame, run⟩⟩

/-- Where the reference decoder fails, DEC.RUN raises its error, or CapacityError before it comes to it. -/
theorem decRun_error {s : State} {k : ErrKind} (dense : s.ib.dense s.inLen)
    (failed : refDecode s.ib.bytes s.cfg.order = .error k) :
    (k = .truncatedStream ∨ k = .invalidOffset) ∧
      ∃ u, Frame s u ∧ (decRun s = raise k u ∨ (s.cfg.capOut ≠ none ∧ decRun s = raise .capacity u)) := by
  have loop := decLoop_agrees (s.inLen + 1) (decStarted_decInv dense) (Nat.lt_succ_self _)
  rw [refDecodeFrom_decStarted dense, failed, ← decRun_eq] at loop
  obtain ⟨kinds, u, frame, run⟩ := loop
  exact ⟨kinds, u, (decStarted_frame s).trans frame, run⟩

/-- Settles O43: `decRun_ok` and `decRun_error` give how the run ends, `decRun_sat` what every completed run keeps. -/
theorem decodeRunIsTheReferenceDecoder : Obligations.DecodeRunIsTheReferenceDecoder := by
  intro s dense noError
  split
  next out ok =>
    obtain ⟨fits, full⟩ := decRun_ok dense ok
    refine ⟨fun room => ?_, fun noRoom => ?_⟩
    · obtain ⟨t, run, success, output⟩ := fits room
      have completed := decRun_sat dense
      rw [run] at completed
      exact ⟨t, congrArg Flow.outcome run, EndOk.succeeded completed noError success output⟩
    · obtain ⟨u, frame, raised⟩ := full noRoom
      exact raise_entered frame raised
  next k failed =>
    obtain ⟨kinds, u, frame, raised | ⟨finite, raised⟩⟩ := decRun_error dense failed
    · obtain ⟨t, run, entered⟩ := raise_entered frame raised
      exact ⟨kinds, t, run, .inl entered⟩
    · obtain ⟨t, run, entered⟩ := raise_entered frame raised
      exact ⟨kinds, t, run, .inr ⟨finite, entered⟩⟩

/-! ## The control bits that the decoder reads (R136) -/

/-- From control bit `i` on, each element has the size that its bit of `c` says, and `c'` has the same bit. -/
def ControlsAgree (c c' : Byte) (i : Nat) (els : List (List Byte)) : Prop :=
  ∀ (j : Nat) (e : List Byte), els[j]? = some e →
    e.length = (if controlBit c (i + j) then 5 else 1) ∧ controlBit c' (i + j) = controlBit c (i + j)

/-- It says the same of the first element and, from the next bit on, of the others. -/
theorem ControlsAgree.cons {c c' : Byte} {i : Nat} {e : List Byte} {els : List (List Byte)}
    (h : ControlsAgree c c' i (e :: els)) :
    e.length = (if controlBit c i then 5 else 1) ∧ controlBit c' i = controlBit c i ∧ ControlsAgree c c' (i + 1) els := by
  obtain ⟨size, bit⟩ := h 0 e rfl
  refine ⟨size, bit, fun j e' found => ?_⟩
  rw [Nat.add_assoc, Nat.add_comm 1 j]
  exact h (j + 1) e' found

/-- The end of the stream ends a group, whatever its control bits are. -/
theorem refTokensDecode_nil (n : Nat) (o : Order) (ctl : Byte) (out : List Byte) :
    refTokensDecode n o ctl [] out = .ok ([], out) := by
  cases n <;> rfl

/-- A token of the size its control bit says leaves what follows it. -/
theorem oneTok_rest {o : Order} {m : Bool} {b : Byte} {bs rest r out out' : List Byte}
    (size : (b :: bs).length = if m then 5 else 1) (decoded : oneTok o m b (bs ++ rest) out = .ok (r, out')) :
    r = rest := by
  cases m with
  | false =>
    obtain rfl : bs = [] := List.eq_nil_of_length_eq_zero (Nat.succ.inj size)
    cases decoded
    rfl
  | true =>
    obtain ⟨o1, l0, l1, nb, rfl⟩ : ∃ o1 l0 l1 nb, bs = [o1, l0, l1, nb] :=
      List.length_eq_four.1 (Nat.succ.inj size)
    simp only [oneTok, if_true, List.cons_append, List.nil_append] at decoded
    split at decoded
    · cases decoded; rfl
    · cases decoded

/-- The last `n` control bits of a group whose tokens end the stream: only the bits of these tokens are read. -/
theorem refTokensDecode_congr {o : Order} {c c' : Byte} {els : List (List Byte)} {n : Nat} (most : n ≤ 8)
    (count : els.length ≤ n) (agree : ControlsAgree c c' (8 - n) els) (out : List Byte) :
    refTokensDecode n o c els.flatten out = refTokensDecode n o c' els.flatten out := by
  induction els generalizing n out with
  | nil => rw [List.flatten_nil, refTokensDecode_nil, refTokensDecode_nil]
  | cons e els ih =>
    obtain ⟨m, rfl⟩ : ∃ m, n = m + 1 := ⟨n - 1, by simp only [List.length_cons] at count; omega⟩
    obtain ⟨size, bit, others⟩ := agree.cons
    rw [show 8 - (m + 1) = 7 - m by omega] at size bit
    rw [show 8 - (m + 1) + 1 = 8 - m by omega] at others
    obtain ⟨b, bs, rfl⟩ : ∃ b bs, e = b :: bs := by
      refine List.exists_cons_of_length_pos ?_
      rw [size]; split <;> decide
    rw [List.flatten_cons, List.cons_append, tokensDecode_succ, tokensDecode_succ, bit]
    cases decoded : oneTok o (controlBit c (7 - m)) b (bs ++ els.flatten) out with
    | error k => rfl
    | ok p =>
      obtain ⟨r, out'⟩ := p
      obtain rfl := oneTok_rest size decoded
      exact ih (by omega) (Nat.le_of_succ_le_succ count) others out'

/-- Settles O44: the group is decoded alike (`refTokensDecode_congr`), and nothing after it is read. -/
theorem unusedControlBitsAreIgnored : Obligations.UnusedControlBitsAreIgnored := by
  intro o c c' els out n count sizes
  have agree : ControlsAgree c c' (8 - 8) els := fun j e found => by
    rw [Nat.sub_self, Nat.zero_add]
    exact sizes j e found
  cases n with
  | zero => rfl
  | succ n => simp only [refDecodeFrom, refTokensDecode_congr (Nat.le_refl 8) count agree]

/-! ## What a step runs (R68, R73, R123, R150) -/

/-- An element whose bytes stand at RP is the one that is fetched. -/
theorem fetchElement_of_decode {c : Ctx} {s : State} {i : Instr} {bytes rest : List Byte} (begun : 0 < s.avail)
    (avail : elementSize c ≤ s.avail) (fetched : fetchBytes (elementSize c) s.rp s = some bytes)
    (decoded : decode s.cfg.order c bytes = .ok (i, rest)) : fetchElement c s = .ok i := by
  unfold fetchElement
  rw [if_neg (Nat.ne_of_gt begun), Nat.min_eq_right avail]
  simp only [fetched, decoded]

/-- At a group boundary the step fetches an element, but at the size micro. -/
theorem selectInstr_group {s : State} (large : s.cfg.grain ≠ .micro) (boundary : s.seq = .group) :
    selectInstr s = fetchElement .group s := by
  simp only [selectInstr, boundary, selectAtGroup]
  split
  next micro => exact absurd micro large
  · rfl
  · rfl

/-- At a token boundary the step fetches the element that the control bit says, but at the size micro. -/
theorem selectInstr_token {s : State} (large : s.cfg.grain ≠ .micro) (boundary : s.seq = .token)
    (below : s.dBit.toNat < 8) : selectInstr s = fetchElement (.token (controlBit s.dCtrl s.dBit.toNat)) s := by
  simp only [selectInstr, boundary, selectAtToken, if_neg (Nat.not_le.2 below)]
  split
  next micro => exact absurd micro large
  · rfl
  · rfl

/-- After a token before the eighth the core stands at the next token. -/
theorem tokenDone_inside {s : State} (inside : s.dBit.toNat < 7) :
    tokenDone s = { s with dBit := s.dBit + 1, seq := .token } := by
  have bit := dBit_succ (s := s) (by omega)
  rw [tokenDone_eq, if_neg (by omega)]

/-- After the eighth token the core stands at a group boundary. -/
theorem tokenDone_eighth {s : State} (eighth : s.dBit.toNat = 7) :
    tokenDone s = { s with dBit := 8, seq := .group } := by
  have bit : s.dBit + 1 = 8 := BitVec.eq_of_toNat_eq (by rw [dBit_succ (by omega), eighth]; rfl)
  rw [tokenDone_eq, bit]
  rfl

/-- Settles O8: what is selected is run (`step_of_selectInstr`), and at a boundary that is the element whose bytes stand at
RP (`fetchElement_of_decode`). -/
theorem stepRunsTheFetchedInstruction : Obligations.StepRunsTheFetchedInstruction := by
  refine ⟨fun s o rest pending => ?_, fun s v => exec_hostCmd v s, ?_, ?_, fun s i => step_of_selectInstr, ?_⟩
  · simp only [step, pending]
  · intro s bytes rest i busy quiet large boundary begun fetched decoded
    refine step_of_selectInstr busy quiet ?_
    rw [selectInstr_group large boundary]
    exact fetchElement_of_decode begun begun fetched decoded
  · rintro s bytes rest i m busy quiet large boundary below bitSet avail fetched decoded
    refine step_of_selectInstr busy quiet ?_
    rw [selectInstr_token large boundary below, show controlBit s.dCtrl s.dBit.toNat = m from bitSet]
    cases m with
    | false => exact fetchElement_of_decode avail avail fetched decoded
    | true => exact fetchElement_of_decode (Nat.lt_of_lt_of_le (by decide) avail) avail fetched decoded
  · intro s busy
    have literal (b : Byte) : advance (.lit b) s = tokenDone s := if_pos busy
    have matched (off len : Half) (nxt : Byte) : advance (.matchTok off len nxt) s = tokenDone s := if_pos busy
    exact ⟨fun _ => if_pos busy, fun b inside => (literal b).trans (tokenDone_inside inside),
      fun b eighth => (literal b).trans (tokenDone_eighth eighth),
      fun off len nxt inside => (matched off len nxt).trans (tokenDone_inside inside),
      fun off len nxt eighth => (matched off len nxt).trans (tokenDone_eighth eighth)⟩

end Sys2Proof.Machine

/-! The statements of 43_host_commands.md: the host's operations, and a whole command from HOST.LOAD to its result. -/

namespace Sys2Proof.Machine

/-! ## The result of a command (R158) -/

/-- Where the output is what R17 says, a read of OB is a read of its list of bytes. -/
theorem readOB_eq {s : State} (dense : s.ob.dense s.outLen) (a : Nat) : s.readOB a = s.ob.bytes[a]? := by
  rw [← Memory.read_dense dense, State.readOB]
  split
  · rfl
  next beyond =>
    rw [Memory.read_dense dense, List.getElem?_eq_none]
    rw [Memory.bytes_length dense]
    exact Nat.le_of_not_lt beyond

/-- While OUT_LEN = 0 no byte of OB is valid (R17). -/
theorem readOB_of_empty {s : State} (empty : s.outLen = 0) (a : Nat) : s.readOB a = none :=
  if_neg (by rw [empty]; exact Nat.not_lt_zero a)

/-- The host finds this result: a success with its bytes, or an error with its number and no output (R158, R165, R172). -/
def State.HasResult (t : State) (r : Except ErrKind (List Byte)) : Prop :=
  match r with
  | .ok out => t.status = statusSuccess ∧ t.errCode = 0 ∧ t.outLen = out.length ∧ ∀ a, t.readOB a = out[a]?
  | .error k => t.status = statusError ∧ t.errCode = errCodeOf k ∧ t.outLen = 0

/-- A buffer that holds these bytes and no other. -/
theorem Memory.dense_of_eq_ofBytes {m : Memory} {n : Nat} {bytes : List Byte} (holds : m = Memory.ofBytes bytes)
    (length : n = bytes.length) : m.dense n := by
  rw [holds, length]
  exact Memory.ofBytes_dense bytes

/-- A completion with success. -/
theorem SucceededWith.hasResult {out : List Byte} {s t : State} (h : SucceededWith out s t) : t.HasResult (.ok out) := by
  refine ⟨h.status, h.errCode, h.outLen, fun a => ?_⟩
  rw [readOB_eq (Memory.dense_of_eq_ofBytes h.ob h.outLen), h.ob, Memory.ofBytes_bytes]

/-- The error entry. -/
theorem ErrorEntered.hasResult {k : ErrKind} {s t : State} (h : ErrorEntered (errCodeOf k) s t) :
    t.HasResult (.error k) :=
  ⟨h.status, h.errCode, h.outLen⟩

/-- An instruction answers one next state. -/
theorem exec_next_unique {i : Instr} {s t u : State} (h : exec i s = .next t) (h' : exec i s = .next u) : t = u :=
  Host.Outcome.next.inj (h.symm.trans h')

/-- With an unbounded CAP_OUT, ENC.RUN leaves the result of the reference encoder (O28). -/
theorem encRun_hasResult {x : List Byte} {s t : State} (ib : s.ib = Memory.ofBytes x) (inLen : s.inLen = x.length)
    (noError : s.errCode = 0) (unbounded : s.cfg.capOut = none) (run : encRun s = .ended t) :
    t.HasResult (refEncode x s.cfg.windowSize.val s.cfg.lookaheadSize.val s.cfg.order) := by
  have runs : exec .encRun s = .next t := congrArg Flow.outcome run
  have reference := encodeRunIsTheReferenceEncoder s (Memory.dense_of_eq_ofBytes ib inLen) noError
  rw [ib, Memory.ofBytes_bytes] at reference
  cases result : refEncode x s.cfg.windowSize.val s.cfg.lookaheadSize.val s.cfg.order with
  | ok stream =>
    rw [result] at reference
    obtain ⟨u, e, succeeded, -⟩ := reference.1 (by rw [unbounded]; rfl)
    obtain rfl := exec_next_unique e runs
    exact succeeded.hasResult
  | error k =>
    rw [result] at reference
    obtain ⟨rfl, u, e, entered⟩ := reference
    obtain rfl := exec_next_unique e runs
    exact ErrorEntered.hasResult (k := .emptyInput) entered

/-- With an unbounded CAP_OUT, DEC.RUN leaves the result of the reference decoder (O43). -/
theorem decRun_hasResult {x : List Byte} {s t : State} (ib : s.ib = Memory.ofBytes x) (inLen : s.inLen = x.length)
    (noError : s.errCode = 0) (unbounded : s.cfg.capOut = none) (run : decRun s = .ended t) :
    t.HasResult (refDecode x s.cfg.order) := by
  have runs : exec .decRun s = .next t := congrArg Flow.outcome run
  have reference := decodeRunIsTheReferenceDecoder s (Memory.dense_of_eq_ofBytes ib inLen) noError
  rw [ib, Memory.ofBytes_bytes] at reference
  cases result : refDecode x s.cfg.order with
  | ok out =>
    rw [result] at reference
    obtain ⟨u, e, succeeded⟩ := reference.1 (by rw [unbounded]; rfl)
    obtain rfl := exec_next_unique e runs
    exact succeeded.hasResult
  | error k =>
    rw [result] at reference
    obtain ⟨-, u, e, entered | ⟨finite, -⟩⟩ := reference
    · obtain rfl := exec_next_unique e runs
      exact entered.hasResult
    · exact absurd unbounded finite

/-! ## Whole commands (R159) -/

/-- Settles O56: the three moves lead to the end of ENC.RUN on the loaded input (`load_run`), whose result is that of the
reference encoder. -/
theorem encodeEntryPointComputesEncode : Obligations.EncodeEntryPointComputesEncode := by
  intro s x inv ready capIn capOut pending
  obtain ⟨n, t, a, reaches, completed, ib, inLen, noError, cfg, run⟩ := load_run inv ready capIn (.inl rfl) pending
  have result := encRun_hasResult ib inLen noError (by rw [cfg, capOut]) run
  rw [cfg] at result
  exact ⟨n, { t with inputs := [] }, reaches, completed, rfl, result⟩

/-- Settles O57: the three moves lead to the end of DEC.RUN on the loaded input (`load_run`), whose result is that of the
reference decoder. -/
theorem decodeEntryPointComputesDecode : Obligations.DecodeEntryPointComputesDecode := by
  intro s x inv ready capIn capOut pending
  obtain ⟨n, t, a, reaches, completed, ib, inLen, noError, cfg, run⟩ := load_run inv ready capIn (.inr rfl) pending
  have result := decRun_hasResult ib inLen noError (by rw [cfg, capOut]) run
  rw [cfg] at result
  exact ⟨n, { t with inputs := [] }, reaches, completed, rfl, result⟩

/-! ## Accepted and refused (R150, R151, R157) -/

/-- While BUSY = 0, an operation is accepted. -/
theorem whenReady_ready {s : State} (ready : s.busy = false) (k : State → Host.Outcome State Fault Refusal) :
    whenReady k s = k s := if_neg (by rw [ready]; decide)

/-- What an accepted write of CMD leads to, by its value (R66, R152 to R155). -/
def commanded (v : BitVec 2) (s : State) : State :=
  if v = 0 then nopDone s else if v = 3 then badCommand s else commandStart v s

/-- Each of the four commands is accepted only while BUSY = 0. -/
theorem exec_decodeCommand (v : BitVec 2) (s : State) :
    exec (decodeCommand v) s = whenReady (fun a => .next (acceptHost (commanded v a))) s := by
  obtain rfl | rfl | rfl | rfl : v = 0 ∨ v = 1 ∨ v = 2 ∨ v = 3 := by revert v; decide
  · rfl
  · rfl
  · rfl
  · rfl

/-- While BUSY = 1, a command is refused. -/
theorem command_busy {s : State} (busy : s.busy = true) (v : BitVec 2) :
    exec (decodeCommand v) s = .next (refuseHost s) :=
  (exec_decodeCommand v s).trans (whenReady_busy busy _)

/-- While BUSY = 0, a command does what it says, and the host is told that it was accepted. -/
theorem command_ready {s : State} (ready : s.busy = false) (v : BitVec 2) :
    exec (decodeCommand v) s = .next (acceptHost (commanded v s)) :=
  (exec_decodeCommand v s).trans (whenReady_ready ready _)

/-- HOST.LOAD while BUSY = 1. -/
theorem exec_hostLoad_busy {s : State} (busy : s.busy = true) (bytes : List Byte) :
    exec (.hostLoad bytes) s = .next (refuseHost s) :=
  show execHostLoad bytes s = _ from whenReady_busy busy _

/-- HOST.READ while BUSY = 1. -/
theorem exec_hostRead_busy {s : State} (busy : s.busy = true) (a : Nat) :
    exec (.hostRead a) s = .next (refuseHost s) :=
  show execHostRead a s = _ from whenReady_busy busy _

/-- Settles O50: each of the operations is accepted only while BUSY = 0, and a write of CMD is its command
(`exec_hostCmd`). -/
theorem busyCoreRefusesTheHost : Obligations.BusyCoreRefusesTheHost := fun s busy =>
  ⟨exec_hostLoad_busy busy, exec_hostRead_busy busy, fun v => (exec_hostCmd v s).trans (command_busy busy v),
    command_busy busy 0, command_busy busy 1, command_busy busy 2, command_busy busy 3⟩

/-! ## HOST.LOAD (R151) -/

/-- Bytes are too many exactly when they do not fit CAP_IN. -/
theorem loadTooLong_eq (s : State) (n : Nat) : s.loadTooLong n = !fitsCap s.cfg.capIn n := by
  unfold State.loadTooLong fitsCap
  cases s.cfg.capIn with
  | none => rfl
  | some c => simp [← decide_not]

/-- HOST.LOAD while BUSY = 0: accepted when the bytes fit CAP_IN. -/
theorem exec_hostLoad_ready {s : State} (ready : s.busy = false) (bytes : List Byte) :
    exec (.hostLoad bytes) s =
      .next (if fitsCap s.cfg.capIn bytes.length then acceptHost (loaded bytes s) else refuseHost s) := by
  simp only [exec, execHostLoad, whenReady_ready ready, loadTooLong_eq]
  cases fitsCap s.cfg.capIn bytes.length <;> rfl

/-- Settles O51: what is loaded is read back, since IB then holds exactly the bytes (`readIB_eq`). -/
theorem loadSetsTheInput : Obligations.LoadSetsTheInput := by
  intro s bytes ready
  rw [exec_hostLoad_ready ready]
  refine ⟨fun fits => ?_, fun tooLong => ?_⟩
  · rw [if_pos fits]
    refine ⟨acceptHost (loaded bytes s), rfl, rfl, fun a => ?_⟩
    rw [readIB_eq (Memory.dense_of_eq_ofBytes rfl rfl)]
    exact congrArg (·[a]?) (Memory.ofBytes_bytes bytes)
  · rw [if_neg (by rw [tooLong]; decide)]
    rfl

/-! ## The commands (R152 to R155) -/

/-- Settles O52: NOP is accepted, and a write of 0 is NOP (`exec_hostCmd`). -/
theorem nopSetsOnlyTheCommandRegister : Obligations.NopSetsOnlyTheCommandRegister := fun s ready =>
  ⟨command_ready ready 0, (exec_hostCmd 0 s).trans (command_ready ready 0)⟩

/-- A command begins at the start of its run, unless it is run in one step (log 3). -/
theorem firstSeq_of_stepwise {g : Grain} (stepwise : g ≠ .command) : firstSeq g = .start := by
  cases g with
  | command => exact absurd rfl stepwise
  | element => rfl
  | micro => rfl

/-- Settles O53: the command is accepted (`command_ready`), and the rest is what `commandStart` writes and keeps. -/
theorem commandStartBeginsTheRun : Obligations.CommandStartBeginsTheRun := by
  intro s i v ready command
  obtain ⟨rfl, started⟩ : i = decodeCommand v ∧ commanded v s = commandStart v s := by
    obtain ⟨rfl, rfl⟩ | ⟨rfl, rfl⟩ := command
    · exact ⟨rfl, rfl⟩
    · exact ⟨rfl, rfl⟩
  have accepted := command_ready ready v
  rw [started] at accepted
  exact ⟨_, accepted, (exec_hostCmd v s).trans accepted, rfl, rfl, rfl, rfl, readOB_of_empty rfl, rfl, rfl, rfl, rfl,
    rfl, rfl, rfl, rfl, fun whole => congrArg firstSeq whole, firstSeq_of_stepwise⟩

/-- Settles O54: the command is accepted (`command_ready`), and the rest is what `badCommand` writes and keeps. -/
theorem reservedCommandIsBadCommand : Obligations.ReservedCommandIsBadCommand := fun s ready =>
  have accepted : exec .reserved s = .next (acceptHost (badCommand s)) := command_ready ready 3
  ⟨_, accepted, (exec_hostCmd 3 s).trans accepted, rfl, rfl, rfl, rfl, readOB_of_empty rfl, rfl, rfl, rfl, rfl⟩

/-! ## HOST.POLL and HOST.READ (R150, R156) -/

/-- CMD, STATUS and IN_LEN are polled at any time. -/
theorem pollResult_always (s : State) :
    (pollResult s).cmd = s.cmd ∧ (pollResult s).status = s.status ∧ (pollResult s).inLen = s.inLen := by
  unfold pollResult
  split
  · exact ⟨rfl, rfl, rfl⟩
  · exact ⟨rfl, rfl, rfl⟩

/-- While BUSY = 0 every register is polled. -/
theorem pollResult_ready {s : State} (ready : s.busy = false) :
    pollResult s = ⟨s.cmd, s.status, s.errCode, s.inLen, s.outLen⟩ := if_neg (by rw [ready]; decide)

/-- A byte that is not readable is refused, whether BUSY is 1 or 0. -/
theorem exec_hostRead_unreadable {s : State} {a : Nat} (unreadable : s.readable a = false) :
    exec (.hostRead a) s = .next (refuseHost s) := by
  cases busy : s.busy with
  | true => exact exec_hostRead_busy busy a
  | false => simp only [exec, execHostRead, whenReady_ready busy, unreadable, Bool.false_eq_true, if_false]

/-- No byte is readable without a success: the invariant leaves three values of STATUS, each with DONE = 0 or ERR = 1. -/
theorem Inv.unreadable {s : State} (inv : Inv s) (noSuccess : s.status ≠ statusSuccess) (a : Nat) :
    s.readable a = false := by
  have bits : (s.done && !s.err) = false := by
    rw [State.done, State.err]
    obtain status | status | status | status := inv.statusLegal
    · rw [status]; decide
    · rw [status]; decide
    · exact absurd status noSuccess
    · rw [status]; decide
  rw [State.readable, bits, Bool.false_and]

/-- Nor at or above OUT_LEN. -/
theorem unreadable_beyond {s : State} {a : Nat} (beyond : s.outLen ≤ a) : s.readable a = false := by
  rw [State.readable, decide_eq_false (Nat.not_lt.2 beyond), Bool.and_false]

/-- After a success a valid byte of OB is read. -/
theorem exec_hostRead_success {s : State} {a : Nat} {b : Byte} (success : s.status = statusSuccess)
    (valid : s.readOB a = some b) : exec (.hostRead a) s = .next { s with answer := .byte b } := by
  have below : a < s.outLen := by
    by_contra beyond
    rw [State.readOB, if_neg beyond] at valid
    cases valid
  have ready : s.busy = false := by rw [State.busy, success]; decide
  have readable : s.readable a = true := by
    rw [State.readable, decide_eq_true below, State.done, State.err, success]
    decide
  simp only [exec, execHostRead, whenReady_ready ready, readable, if_true, valid]

/-- Settles O55: a poll reads what `pollResult` says; a read is answered after a success (`exec_hostRead_success`) and
refused where nothing is readable (`exec_hostRead_unreadable`). -/
theorem pollAndReadGiveTheHostTheResult : Obligations.PollAndReadGiveTheHostTheResult := by
  intro s
  refine ⟨?_, fun a b => exec_hostRead_success, fun a unreadable => exec_hostRead_unreadable ?_⟩
  · obtain ⟨cmd, status, inLen⟩ := pollResult_always s
    refine ⟨pollResult s, _, rfl, rfl, cmd, status, inLen, fun ready => ?_⟩
    rw [pollResult_ready ready]
    exact ⟨rfl, rfl⟩
  · obtain ⟨noSuccess, inv⟩ | beyond := unreadable
    · exact inv.unreadable noSuccess a
    · exact unreadable_beyond beyond

end Sys2Proof.Machine

/-! The statements of 60_exceptions.md: what a full OB makes of an append. -/

namespace Sys2Proof.Machine

/-! ## Appends to a full OB (R170) -/

/-- At OUT_LEN = CAP_OUT there is no place for another byte. -/
theorem outputFull_of_atCap {s : State} {c : Nat} (cap : s.cfg.capOut = some c) (atCap : s.outLen = c) :
    s.outputFull = true := by
  rw [State.outputFull, cap]
  exact decide_eq_true atCap.ge

/-- At OUT_LEN = CAP_OUT the output itself still fits. -/
theorem outOk_of_atCap {s : State} {c : Nat} (dense : s.ob.dense s.outLen) (cap : s.cfg.capOut = some c)
    (atCap : s.outLen = c) : OutOk s where
  dense := dense
  fits := by rw [cap]; exact decide_eq_true atCap.le

/-- A full OB has room for no positive number of bytes. -/
theorem not_roomFor_of_full {s : State} {n : Nat} (full : s.outputFull = true) (positive : 1 ≤ n) :
    ¬ s.roomFor n = true := fun room => by
  have notFull := (roomFor_one s).1 (roomFor_mono positive room)
  exact absurd (full.symm.trans notFull) (by decide)

/-- An append to a full OB raises CapacityError. -/
theorem append_full {s : State} (full : s.outputFull = true) (v : Byte) : append v s = raise .capacity s := if_pos full

/-- So does a Literal, before it moves RP. -/
theorem literalRead_full {s : State} (full : s.outputFull = true) (b : Byte) : literalRead b s = raise .capacity s := by
  rw [literalRead, append_full full]
  rfl

/-- ENC.FLUSH of a group raises it at the control byte, the first byte that it writes (R106). -/
theorem encFlush_full {s : State} (full : s.outputFull = true) (occupied : 1 ≤ s.gCnt.toNat) (most : s.gCnt.toNat ≤ 8) :
    encFlush s = raise .capacity s := by
  rw [encFlush_eq occupied most, State.groupBytes, appendAll, append_full full]
  rfl

/-- DEC.COPY of at least one byte raises it where the bytes so far are all that fits. -/
theorem decCopy_full {s : State} (output : OutOk s) (full : s.outputFull = true) (nonzero : s.dOff ≠ 0)
    (legal : s.dOff.toNat ≤ s.outLen) (positive : s.dLen ≠ 0) : ∃ u, Frame s u ∧ decCopy s = raise .capacity u := by
  obtain ⟨room, -⟩ | ⟨-, raised⟩ := decCopy_cases output nonzero legal
  · exact absurd room (not_roomFor_of_full full (pos_of_ne positive))
  · exact raised

/-- Settles O42: each of the four raises CapacityError, the copy from a state that keeps what R172 keeps
(`decCopy_full`). -/
theorem fullOutputRaisesCapacityError : Obligations.FullOutputRaisesCapacityError := by
  intro s c cap atCap
  have full := outputFull_of_atCap cap atCap
  refine ⟨fun b => ?_, ?_, fun occupied most => ?_, fun dense nonzero legal positive => ?_⟩
  · exact raise_entered (Frame.refl s) (literalRead_full full b)
  · exact raise_entered (Frame.refl s) (append_full full s.dNxt)
  · exact raise_entered (Frame.refl s) (encFlush_full full occupied most)
  · obtain ⟨u, frame, raised⟩ := decCopy_full (outOk_of_atCap dense cap atCap) full nonzero legal positive
    exact raise_entered frame raised

end Sys2Proof.Machine

/-! The statements of 70_reset_and_hazards.md: a running command completes by itself, and a reset core stays idle. -/

namespace Sys2Proof.Machine

/-! ## Completion (R201) -/

/-- A command completes in one of two ways, with success or with an error (R158). -/
theorem EndOk.status {s t : State} (h : EndOk s t) : t.status = statusSuccess ∨ t.status = statusError := by
  obtain ⟨error, -⟩ | ⟨success, -⟩ := h.done
  · exact .inr error
  · exact .inl success

/-- Settles O59: every step lowers `rank` or completes the command, so that the core, left to itself, runs it to its end
(`run_to_end`), whose STATUS is one of the two of `EndOk.status`. -/
theorem everyCommandCompletes : Obligations.EveryCommandCompletes := by
  intro s inv busy quiet
  obtain ⟨n, t, reached, ready, -, -, ended⟩ :=
    run_to_end (N := s.inLen + 2) (rank s) (Nat.le_refl _) inv busy (Nat.lt_succ_self _) (.inl quiet)
  exact ⟨n, t, reached, ready, ended.status⟩

/-! ## Reset (R190) -/

/-- While IN_LEN = 0 no byte of IB is valid (R16). -/
theorem readIB_of_empty {s : State} (empty : s.inLen = 0) (a : Nat) : s.readIB a = none :=
  if_neg (by rw [empty]; exact Nat.not_lt_zero a)

/-- A pending reset is what the step does, whatever runs. -/
theorem step_reset {s : State} {rest : List Input} (pending : s.inputs = .reset :: rest) :
    step s = .next (powerOn { s with inputs := rest }) := by
  rw [step, pending]

/-- A core that is not busy and has no pending move does nothing. -/
theorem step_ready {s : State} (ready : s.busy = false) (quiet : s.inputs = []) : step s = .next s := by
  rw [step, quiet]
  simp [coreStep, ready]

/-- Settles O1: the values of `State.reset` are read off, those after a later reset are the ones `powerOn` writes
(`step_reset`), and with STATUS 000 the core is not busy (`step_ready`). -/
theorem resetLeavesTheCoreIdle : Obligations.ResetLeavesTheCoreIdle := by
  refine ⟨⟨rfl, rfl, rfl, rfl, rfl, rfl⟩, fun s rest pending => ?_, fun s idle quiet => ?_⟩
  · exact ⟨_, step_reset pending, rfl, rfl, rfl, rfl, rfl, fun a => ⟨readIB_of_empty rfl a, readOB_of_empty rfl a⟩, rfl,
      rfl⟩
  · have ready : s.busy = false := by rw [State.busy, idle]; rfl
    exact step_ready ready quiet

end Sys2Proof.Machine
